-- ==== Sys2Proof/Word.lean ====
section
/-! DEFINITION. The byte, the byte sequence and the 24-bit check value (20_memory.md R51, 00_scope.md R11). -/

namespace Sys2Proof

/-- A byte is 8 bits (20_memory.md R51). -/
abbrev Byte := BitVec 8

/-- A buffer: a finite sequence of bytes, byte 0 first (00_scope.md R11). -/
abbrev Bytes := List Byte

/-- A CRC-24Q value (00_scope.md R8, `CRC_WIDTH`). -/
abbrev Crc := BitVec 24

/-- A message number, 0 to 4095 (00_scope.md R8, `TYPE_BITS`). -/
abbrev MsgNum := BitVec 12

end Sys2Proof
end

