-- ==== Sys2Proof/Config.lean ====
section
/-! DEFINITION. What an implementation fixes: the types of the three open parameters `REGISTERED`, `LAYOUT` and
`MSM_ORDER` (00_scope.md R8; 92_eei_decisions.md D9, D10, D14). The spec's default values are in Machine/Layouts.lean.
There is no opaque constant: the spec leaves no value of the block undefined (93_implementation_defined.md). -/

namespace Sys2Proof

/-- The names of the decoded fields (10_state.md R30, 92_eei_decisions.md D18): those the spec gives, and any other name
a `LAYOUT` may give a field (00_scope.md R8). -/
inductive Key where
  | stationId | itrfYear | gpsIndicator | glonassIndicator | galileoIndicator | referenceStationIndicator
  | ecefX | singleReceiverOscillator | ecefY | quarterCycleIndicator | ecefZ | antennaHeight
  | antennaDescriptorLength | antennaDescriptor | antennaSetupId | antennaSerialNumberLength | antennaSerialNumber
  | codePhaseBiasIndicator | fdmaSignalsMask
  | l1CaCodePhaseBias | l1PCodePhaseBias | l2CaCodePhaseBias | l2PCodePhaseBias
  | epochTime | synchronousGnssFlag | satelliteCount | smoothingIndicator | smoothingInterval | satellites
  | satelliteId | l1CodeIndicator | frequencyChannelNumber | l1Pseudorange | l1PhaseRangeMinusPseudorange
  | l1LockTimeIndicator | l1PseudorangeAmbiguity | l1Cnr
  | l2CodeIndicator | l2MinusL1Pseudorange | l2PhaseRangeMinusL1Pseudorange | l2LockTimeIndicator | l2Cnr
  | msmType | multipleMessage | iods | clockSteering | externalClock
  | satelliteIds | signalIds | activeCells | cells | signalId
  | roughRangeMs | extendedInfo | roughRangeModulo | roughPhaseRangeRate
  | finePseudorange | finePhaseRange | lockTimeIndicator | halfCycleAmbiguity | cnr | finePhaseRangeRate
  | truncated | bitsRemaining | unsupported | rawPayloadHex | runt
  /-- A name that no other constructor spells. -/
  | other (name : String)
deriving DecidableEq, Repr

/-- The numeric field kinds (30_encoding.md R86): unsigned, two's complement, one-bit boolean. -/
inductive NumKind where
  | u
  | s
  | b
deriving DecidableEq, Repr

/-- One field of a payload layout (30_encoding.md R86). -/
inductive FieldSpec where
  /-- `u(N)`, `s(N)` or `b`, recorded under `key`. -/
  | num (kind : NumKind) (key : Key) (width : Nat)
  /-- `skip(N)`: consumed and not recorded (30_encoding.md R102). -/
  | skip (width : Nat)
  /-- `str`: an 8-bit count under `lenKey`, then that many bytes under `key` (30_encoding.md R88). -/
  | str (lenKey key : Key)
deriving DecidableEq, Repr

/-- `u(N)`. -/
abbrev FieldSpec.u (key : Key) (width : Nat) : FieldSpec := .num .u key width
/-- `s(N)`. -/
abbrev FieldSpec.s (key : Key) (width : Nat) : FieldSpec := .num .s key width
/-- `b`, one bit. -/
abbrev FieldSpec.b (key : Key) : FieldSpec := .num .b key 1

/-- One field of an MSM data row: its widths for `msmType` 1 to 7, 0 where the field does not exist
(30_encoding.md R101). -/
structure MsmField where
  key    : Key
  kind   : NumKind
  widths : List Nat
deriving DecidableEq, Repr

/-- The layout of the MSM family: the header after the message number, the per-satellite and the per-cell fields
(30_encoding.md R100, R101; 44_msm.md R235). -/
structure MsmLayout where
  header     : List FieldSpec
  satellite  : List MsmField
  cell       : List MsmField
deriving DecidableEq, Repr

/-- `MSM_ORDER`: the order of the MSM data after the masks (44_msm.md R236, R238). -/
inductive MsmOrder where
  | rowMajor
  | fieldMajor
deriving DecidableEq, Repr

/-- The decoder of a registered message number. -/
inductive Decoder where
  /-- A sequence of fields (43_mux_fixed.md R188 to R191). -/
  | fixed (layout : List FieldSpec)
  /-- A header with a mask, then a field for each set bit of the mask: (mask bit, field) in stream order
  (43_mux_fixed.md R192). -/
  | bias (header : List FieldSpec) (mask : Key) (biases : List (Nat × FieldSpec))
  /-- A header with a count, then that many rows, recorded under `rows` (43_mux_fixed.md section 7). -/
  | legacyObs (header : List FieldSpec) (count rows : Key) (row : List FieldSpec)
  /-- The multi-signal message decoder (44_msm.md R243). -/
  | msm
deriving DecidableEq, Repr

/-- The three open parameters (00_scope.md R8): `registered` is `REGISTERED` with the fixed part of `LAYOUT`, `msm`
its MSM part, `msmOrder` is `MSM_ORDER`. The model takes them as an argument, which `State` carries (log entry 15). -/
structure Params where
  registered : List (Nat × Decoder)
  msm        : MsmLayout
  msmOrder   : MsmOrder
deriving DecidableEq, Repr

end Sys2Proof
end

