-- ==== Sys2Proof/Machine/Layouts.lean ====
section
/-! DEFINITION. The spec's default values of the parameters `REGISTERED`, `LAYOUT` and `MSM_ORDER` (00_scope.md R8):
the message numbers of 30_encoding.md R89, the layouts of R93 to R101, and row-major MSM data. They are the spec's
defaults, marked there as general knowledge (log entries 4, 5). A layout begins after the 12-bit message number, which
the prologue consumes (43_mux_fixed.md R184). -/

namespace Sys2Proof.Machine

/-! ### Fixed layouts -/

/-- `F1005`, fields 1 to 12 (30_encoding.md R93). -/
def f1005 : List FieldSpec :=
  [.u .stationId 12, .u .itrfYear 6, .b .gpsIndicator, .b .glonassIndicator, .b .galileoIndicator,
   .b .referenceStationIndicator, .s .ecefX 38, .b .singleReceiverOscillator, .skip 1, .s .ecefY 38,
   .u .quarterCycleIndicator 2, .s .ecefZ 38]

/-- `F1006`, fields 1 to 13 (30_encoding.md R93). -/
def f1006 : List FieldSpec := f1005 ++ [.u .antennaHeight 16]

/-- `F1007`, fields 1 to 3 (30_encoding.md R94). -/
def f1007 : List FieldSpec :=
  [.u .stationId 12, .str .antennaDescriptorLength .antennaDescriptor, .u .antennaSetupId 8]

/-- `F1008`, fields 1 to 4 (30_encoding.md R94). -/
def f1008 : List FieldSpec := f1007 ++ [.str .antennaSerialNumberLength .antennaSerialNumber]

/-- `F1230`, fields 1 to 4 (30_encoding.md R95). -/
def f1230 : List FieldSpec :=
  [.u .stationId 12, .b .codePhaseBiasIndicator, .skip 3, .u .fdmaSignalsMask 4]

/-- `F1230`, fields 5 to 8: the mask bit that governs each bias and its field, in stream order (30_encoding.md R95,
92_eei_decisions.md D28). -/
def biases1230 : List (Nat × FieldSpec) :=
  [(3, .s .l1CaCodePhaseBias 16), (2, .s .l1PCodePhaseBias 16), (1, .s .l2CaCodePhaseBias 16),
   (0, .s .l2PCodePhaseBias 16)]

/-- `HGPS` (30_encoding.md R96). -/
def hGps : List FieldSpec :=
  [.u .stationId 12, .u .epochTime 30, .b .synchronousGnssFlag, .u .satelliteCount 5, .b .smoothingIndicator,
   .u .smoothingInterval 3]

/-- `HGLO` (30_encoding.md R98). -/
def hGlo : List FieldSpec :=
  [.u .stationId 12, .u .epochTime 27, .b .synchronousGnssFlag, .u .satelliteCount 5, .b .smoothingIndicator,
   .u .smoothingInterval 3]

/-- Group `GL1`, 58 bits (30_encoding.md R97). -/
def gl1 : List FieldSpec :=
  [.u .satelliteId 6, .b .l1CodeIndicator, .u .l1Pseudorange 24, .s .l1PhaseRangeMinusPseudorange 20,
   .u .l1LockTimeIndicator 7]

/-- Group `GL1X`, 16 bits (30_encoding.md R97). -/
def gl1x : List FieldSpec := [.u .l1PseudorangeAmbiguity 8, .u .l1Cnr 8]

/-- Group `RL1`, 64 bits (30_encoding.md R99). -/
def rl1 : List FieldSpec :=
  [.u .satelliteId 6, .b .l1CodeIndicator, .u .frequencyChannelNumber 5, .u .l1Pseudorange 25,
   .s .l1PhaseRangeMinusPseudorange 20, .u .l1LockTimeIndicator 7]

/-- Group `RL1X`, 15 bits (30_encoding.md R99). -/
def rl1x : List FieldSpec := [.u .l1PseudorangeAmbiguity 7, .u .l1Cnr 8]

/-- Group `L2`, 43 bits (30_encoding.md R97, R99). -/
def l2 : List FieldSpec :=
  [.u .l2CodeIndicator 2, .s .l2MinusL1Pseudorange 14, .s .l2PhaseRangeMinusL1Pseudorange 20,
   .u .l2LockTimeIndicator 7]

/-- Group `L2X`, 8 bits (30_encoding.md R97, R99). -/
def l2x : List FieldSpec := [.u .l2Cnr 8]

/-! ### The MSM family -/

/-- `HMSM` rows 1 to 9, 61 bits (30_encoding.md R100, 44_msm.md R231). -/
def hMsm : List FieldSpec :=
  [.u .stationId 12, .u .epochTime 30, .b .multipleMessage, .u .iods 3, .skip 7, .u .clockSteering 2,
   .u .externalClock 2, .b .smoothingIndicator, .u .smoothingInterval 3]

/-- The per-satellite fields and their widths for `msmType` 1 to 7 (30_encoding.md R101). -/
def msmSatellite : List MsmField :=
  [⟨.roughRangeMs, .u, [0, 0, 0, 8, 8, 8, 8]⟩,
   ⟨.extendedInfo, .u, [0, 0, 0, 0, 4, 0, 4]⟩,
   ⟨.roughRangeModulo, .u, [10, 10, 10, 10, 10, 10, 10]⟩,
   ⟨.roughPhaseRangeRate, .s, [0, 0, 0, 0, 14, 0, 14]⟩]

/-- The per-cell fields and their widths for `msmType` 1 to 7 (30_encoding.md R101). -/
def msmCell : List MsmField :=
  [⟨.finePseudorange, .s, [15, 0, 15, 15, 15, 20, 20]⟩,
   ⟨.finePhaseRange, .s, [0, 22, 22, 22, 22, 24, 24]⟩,
   ⟨.lockTimeIndicator, .u, [0, 4, 4, 4, 4, 10, 10]⟩,
   ⟨.halfCycleAmbiguity, .b, [0, 1, 1, 1, 1, 1, 1]⟩,
   ⟨.cnr, .u, [0, 0, 0, 6, 6, 10, 10]⟩,
   ⟨.finePhaseRangeRate, .s, [0, 0, 0, 0, 15, 0, 15]⟩]

/-- The MSM part of `LAYOUT` (30_encoding.md R100, R101). -/
def msmLayout : MsmLayout := { header := hMsm, satellite := msmSatellite, cell := msmCell }

/-- The default `MSM_ORDER` (00_scope.md R8, 92_eei_decisions.md D14; log entry 5). -/
def msmOrder : MsmOrder := .rowMajor

/-- The 28 MSM numbers: `base + k` for four bases and `k` in 1..7 (30_encoding.md R90, 90_conflicts.md C2). -/
def msmNumbers : List Nat := [1070, 1080, 1090, 1120].flatMap fun base => (List.range' 1 7).map fun k => base + k

/-- The decoder of a legacy observable message: the header's `satelliteCount` counts the rows of `satellites`
(43_mux_fixed.md section 7). -/
def legacy (header row : List FieldSpec) : Decoder := .legacyObs header .satelliteCount .satellites row

/-- The default `REGISTERED` (30_encoding.md R89): 13 fixed numbers and 28 MSM numbers. -/
def registered : List (Nat × Decoder) :=
  [(1001, legacy hGps gl1), (1002, legacy hGps (gl1 ++ gl1x)), (1003, legacy hGps (gl1 ++ l2)),
   (1004, legacy hGps (gl1 ++ gl1x ++ l2 ++ l2x)),
   (1005, .fixed f1005), (1006, .fixed f1006), (1007, .fixed f1007), (1008, .fixed f1008),
   (1009, legacy hGlo rl1), (1010, legacy hGlo (rl1 ++ rl1x)), (1011, legacy hGlo (rl1 ++ l2)),
   (1012, legacy hGlo (rl1 ++ rl1x ++ l2 ++ l2x)),
   (1230, .bias f1230 .fdmaSignalsMask biases1230)] ++ msmNumbers.map fun n => (n, Decoder.msm)

/-- The parameters at the spec's defaults (00_scope.md R8). -/
def defaultParams : Params := { registered := registered, msm := msmLayout, msmOrder := msmOrder }

end Sys2Proof.Machine
end

