-- ==== Sys2Proof/Syntax.lean ====
section
/-! DEFINITION. The instructions: one constructor for every row of spec/opcode_table.json, and the input words
they come in. -/

namespace Sys2Proof

/-- `RawFrame`, what `FS.PUSH` emits and `MUX.ROUTE` takes (10_state.md R28). -/
structure RawFrame where
  rawBytes : Bytes
  payload  : Bytes
  crcValid : Bool
deriving DecidableEq, Repr

/-- One instruction. The first nine are the port operations (00_scope.md R6); `frame` is the frame word
(30_encoding.md R80); the rest are the decoders that a payload selects (30_encoding.md R89, R91, R92), each with the
whole payload, message number included, as its operand. -/
inductive Instr where
  /-- `BR.LOAD buf` (40_bitreader.md R120). -/
  | brLoad (buf : Bytes)
  /-- `BR.RDU n` (40_bitreader.md R121); `n` is any natural number, a width outside 1..64 raises (R128). -/
  | brRdu (n : Nat)
  /-- `BR.RDS n` (40_bitreader.md R122). -/
  | brRds (n : Nat)
  /-- `BR.REM` (40_bitreader.md R123). -/
  | brRem
  /-- `CRC.CALC buf, off, len` (41_crc24q.md R143). -/
  | crcCalc (buf : Bytes) (off len : Nat)
  /-- `FS.RESET` (42_framesync.md R160). -/
  | fsReset
  /-- `FS.PUSH bytes` (42_framesync.md R169). -/
  | fsPush (bytes : Bytes)
  /-- `DEC.DECODE type, payload` (43_mux_fixed.md R183). -/
  | decDecode (type : MsgNum) (payload : Bytes)
  /-- `MUX.ROUTE frame` (43_mux_fixed.md R180). -/
  | muxRoute (f : RawFrame)
  /-- `FRAME`, the frame word: its six reserved bits, its payload (the 10-bit length is the payload's) and its
  24-bit trailer (30_encoding.md R80). -/
  | frame (reserved : BitVec 6) (payload : Bytes) (crc : Crc)
  /-- `GPS_L1_OBS`, message number 1001 (43_mux_fixed.md R193). -/
  | gpsL1Obs (payload : Bytes)
  /-- `GPS_L1_OBS_EXT`, message number 1002 (43_mux_fixed.md R194). -/
  | gpsL1ObsExt (payload : Bytes)
  /-- `GPS_L1L2_OBS`, message number 1003 (43_mux_fixed.md R195). -/
  | gpsL1L2Obs (payload : Bytes)
  /-- `GPS_L1L2_OBS_EXT`, message number 1004 (43_mux_fixed.md R196). -/
  | gpsL1L2ObsExt (payload : Bytes)
  /-- `STATION_ARP`, message number 1005 (43_mux_fixed.md R188). -/
  | stationArp (payload : Bytes)
  /-- `STATION_ARP_HGT`, message number 1006 (43_mux_fixed.md R189). -/
  | stationArpHgt (payload : Bytes)
  /-- `ANT_DESC`, message number 1007 (43_mux_fixed.md R190). -/
  | antDesc (payload : Bytes)
  /-- `ANT_DESC_SERIAL`, message number 1008 (43_mux_fixed.md R191). -/
  | antDescSerial (payload : Bytes)
  /-- `GLO_L1_OBS`, message number 1009 (43_mux_fixed.md R197). -/
  | gloL1Obs (payload : Bytes)
  /-- `GLO_L1_OBS_EXT`, message number 1010 (43_mux_fixed.md R198). -/
  | gloL1ObsExt (payload : Bytes)
  /-- `GLO_L1L2_OBS`, message number 1011 (43_mux_fixed.md R199). -/
  | gloL1L2Obs (payload : Bytes)
  /-- `GLO_L1L2_OBS_EXT`, message number 1012 (43_mux_fixed.md R200). -/
  | gloL1L2ObsExt (payload : Bytes)
  /-- `GLO_BIAS`, message number 1230 (43_mux_fixed.md R192). -/
  | gloBias (payload : Bytes)
  /-- `MSM1_GPS`, message number 1071 (44_msm.md R250). -/
  | msm1Gps (payload : Bytes)
  /-- `MSM2_GPS`, message number 1072 (44_msm.md R251). -/
  | msm2Gps (payload : Bytes)
  /-- `MSM3_GPS`, message number 1073 (44_msm.md R252). -/
  | msm3Gps (payload : Bytes)
  /-- `MSM4_GPS`, message number 1074 (44_msm.md R253). -/
  | msm4Gps (payload : Bytes)
  /-- `MSM5_GPS`, message number 1075 (44_msm.md R254). -/
  | msm5Gps (payload : Bytes)
  /-- `MSM6_GPS`, message number 1076 (44_msm.md R255). -/
  | msm6Gps (payload : Bytes)
  /-- `MSM7_GPS`, message number 1077 (44_msm.md R256). -/
  | msm7Gps (payload : Bytes)
  /-- `MSM1_GLO`, message number 1081 (44_msm.md R257). -/
  | msm1Glo (payload : Bytes)
  /-- `MSM2_GLO`, message number 1082 (44_msm.md R258). -/
  | msm2Glo (payload : Bytes)
  /-- `MSM3_GLO`, message number 1083 (44_msm.md R259). -/
  | msm3Glo (payload : Bytes)
  /-- `MSM4_GLO`, message number 1084 (44_msm.md R260). -/
  | msm4Glo (payload : Bytes)
  /-- `MSM5_GLO`, message number 1085 (44_msm.md R261). -/
  | msm5Glo (payload : Bytes)
  /-- `MSM6_GLO`, message number 1086 (44_msm.md R262). -/
  | msm6Glo (payload : Bytes)
  /-- `MSM7_GLO`, message number 1087 (44_msm.md R263). -/
  | msm7Glo (payload : Bytes)
  /-- `MSM1_GAL`, message number 1091 (44_msm.md R264). -/
  | msm1Gal (payload : Bytes)
  /-- `MSM2_GAL`, message number 1092 (44_msm.md R265). -/
  | msm2Gal (payload : Bytes)
  /-- `MSM3_GAL`, message number 1093 (44_msm.md R266). -/
  | msm3Gal (payload : Bytes)
  /-- `MSM4_GAL`, message number 1094 (44_msm.md R267). -/
  | msm4Gal (payload : Bytes)
  /-- `MSM5_GAL`, message number 1095 (44_msm.md R268). -/
  | msm5Gal (payload : Bytes)
  /-- `MSM6_GAL`, message number 1096 (44_msm.md R269). -/
  | msm6Gal (payload : Bytes)
  /-- `MSM7_GAL`, message number 1097 (44_msm.md R270). -/
  | msm7Gal (payload : Bytes)
  /-- `MSM1_BDS`, message number 1121 (44_msm.md R271). -/
  | msm1Bds (payload : Bytes)
  /-- `MSM2_BDS`, message number 1122 (44_msm.md R272). -/
  | msm2Bds (payload : Bytes)
  /-- `MSM3_BDS`, message number 1123 (44_msm.md R273). -/
  | msm3Bds (payload : Bytes)
  /-- `MSM4_BDS`, message number 1124 (44_msm.md R274). -/
  | msm4Bds (payload : Bytes)
  /-- `MSM5_BDS`, message number 1125 (44_msm.md R275). -/
  | msm5Bds (payload : Bytes)
  /-- `MSM6_BDS`, message number 1126 (44_msm.md R276). -/
  | msm6Bds (payload : Bytes)
  /-- `MSM7_BDS`, message number 1127 (44_msm.md R277). -/
  | msm7Bds (payload : Bytes)
  /-- `UNSUPPORTED`, every message number without a registered decoder (43_mux_fixed.md R187). -/
  | unsupported (payload : Bytes)
  /-- `RUNT`, a payload of fewer than 12 bits, with the `crcValid` of its frame (43_mux_fixed.md R182). -/
  | runt (payload : Bytes) (crcValid : Bool)
deriving DecidableEq, Repr

/-- One word at the block's input, as the host issues it. DESIGN CHOICE (unsafe, log entry 2): the spec issues port
operations only; the frame word and the payload word are given to the unit that reads them inside an operation. -/
inductive InputWord where
  /-- A port operation: the select code (30_encoding.md R104) and the operands. -/
  | op (bytes : Bytes)
  /-- A frame, preamble first (30_encoding.md R80). -/
  | frame (bytes : Bytes)
  /-- A payload, message number first (30_encoding.md R85), with the `crcValid` of the frame it came in. -/
  | payload (crcValid : Bool) (bytes : Bytes)
deriving DecidableEq, Repr

end Sys2Proof
end

