-- ==== Sys2Proof/Decode.lean ====
section
/-! DEFINITION. The stream primitives, the decoder from input words to instructions (total, rejecting by name) and
the encoder. The decoder takes the block's parameters: which numbers have a decoder is `REGISTERED`
(00_scope.md R8). -/

namespace Sys2Proof

/-! ### Stream primitives (00_scope.md R12, R13) -/

/-- Stream bit `k` of `B`: most significant bit of byte 0 first (00_scope.md R12). -/
def sbit (B : Bytes) (k : Nat) : Bool := (B.getD (k / 8) 0).getLsbD (7 - k % 8)

/-- `BitRead(B, k, n)`: the `n` stream bits from `k`, first bit most significant (00_scope.md R13, 20_memory.md R53). -/
def bitRead (B : Bytes) (k : Nat) : Nat → Nat
  | 0 => 0
  | n + 1 => 2 * bitRead B k n + (sbit B (k + n)).toNat

/-- `MemRead(B, a, n)`: the `n` bytes from `a` as one big-endian number (00_scope.md R13, 20_memory.md R52). -/
def memRead (B : Bytes) (a : Nat) : Nat → Nat
  | 0 => 0
  | n + 1 => 256 * memRead B a n + (B.getD (a + n) 0).toNat

/-- `sext_n(v)`: the two's-complement reading of an `n`-bit value (00_scope.md R13, 30_encoding.md R87). -/
def sext (n v : Nat) : Int := if v < 2 ^ (n - 1) then (v : Int) else (v : Int) - 2 ^ n

/-! ### The frame header and the message number -/

/-- The byte that opens every frame (00_scope.md R8, `PREAMBLE`). -/
def preamble : Byte := 0xD3

/-- The payload length from header bytes 1 and 2 (30_encoding.md R81, 90_conflicts.md C1); the six reserved bits do
not count (R82). -/
def headerLength (b1 b2 : Byte) : Nat := ((b1 &&& 0x03).toNat <<< 8) ||| b2.toNat

/-- The message number: the first 12 stream bits of the payload (30_encoding.md R85). -/
def msgnum (p : Bytes) : Nat := bitRead p 0 12

/-- Does the number have a decoder under these parameters (00_scope.md R8, `REGISTERED`)? -/
def isRegistered (P : Params) (n : Nat) : Bool := (P.registered.lookup n).isSome

/-- The constructor of a message number that has a row in the opcode table (30_encoding.md R89), `none` for every other
number. -/
def messageInstr : Nat → Option (Bytes → Instr)
  | 1001 => some .gpsL1Obs
  | 1002 => some .gpsL1ObsExt
  | 1003 => some .gpsL1L2Obs
  | 1004 => some .gpsL1L2ObsExt
  | 1005 => some .stationArp
  | 1006 => some .stationArpHgt
  | 1007 => some .antDesc
  | 1008 => some .antDescSerial
  | 1009 => some .gloL1Obs
  | 1010 => some .gloL1ObsExt
  | 1011 => some .gloL1L2Obs
  | 1012 => some .gloL1L2ObsExt
  | 1230 => some .gloBias
  | 1071 => some .msm1Gps
  | 1072 => some .msm2Gps
  | 1073 => some .msm3Gps
  | 1074 => some .msm4Gps
  | 1075 => some .msm5Gps
  | 1076 => some .msm6Gps
  | 1077 => some .msm7Gps
  | 1081 => some .msm1Glo
  | 1082 => some .msm2Glo
  | 1083 => some .msm3Glo
  | 1084 => some .msm4Glo
  | 1085 => some .msm5Glo
  | 1086 => some .msm6Glo
  | 1087 => some .msm7Glo
  | 1091 => some .msm1Gal
  | 1092 => some .msm2Gal
  | 1093 => some .msm3Gal
  | 1094 => some .msm4Gal
  | 1095 => some .msm5Gal
  | 1096 => some .msm6Gal
  | 1097 => some .msm7Gal
  | 1121 => some .msm1Bds
  | 1122 => some .msm2Bds
  | 1123 => some .msm3Bds
  | 1124 => some .msm4Bds
  | 1125 => some .msm5Bds
  | 1126 => some .msm6Bds
  | 1127 => some .msm7Bds
  | _ => none

/-! ### Decoding -/

/-- Why a word is no instruction. Each is safe: the model stops where it cannot say what was issued. -/
inductive DecodeError where
  /-- An operation word without its first byte. -/
  | noSelectCode
  /-- OPSEL 1001 to 1111: not issuable (30_encoding.md R104, 93_implementation_defined.md U7). -/
  | unassignedOpsel (code : Nat)
  /-- The word ends before its operands do (log entry 1). -/
  | missingOperand
  /-- Bytes follow the last operand (log entry 1). -/
  | trailingBytes
  /-- The `type` operand of `DEC.DECODE` exceeds 4095 (43_mux_fixed.md R183). -/
  | typeOutOfRange
  /-- The `crcValid` byte of a `MUX.ROUTE` word is neither 0 nor 1 (log entry 1). -/
  | badFlag
  /-- A frame word that does not begin with the preamble (30_encoding.md R80). -/
  | noPreamble
  /-- A frame word that is not `L + 6` bytes long (30_encoding.md R80, R83). -/
  | frameLength
deriving DecidableEq, Repr

/-- A natural-number operand: groups of seven bits, most significant group first, bit 7 set on every byte but the
last. DESIGN CHOICE (safe, log entry 1). `acc` is the value of the groups already read. -/
def natFrom (acc : Nat) : Bytes → Option (Nat × Bytes)
  | [] => none
  | b :: bs =>
    if b.toNat < 128 then some (acc * 128 + b.toNat, bs) else natFrom (acc * 128 + (b.toNat - 128)) bs

/-- The operands of `BR.RDU` and `BR.RDS`: one number and nothing after it. -/
def decodeWidth (mk : Nat → Instr) (bs : Bytes) : Except DecodeError Instr :=
  match natFrom 0 bs with
  | none => .error .missingOperand
  | some (n, []) => .ok (mk n)
  | some (_, _ :: _) => .error .trailingBytes

/-- An operation without operands. -/
def decodeBare (i : Instr) : Bytes → Except DecodeError Instr
  | [] => .ok i
  | _ :: _ => .error .trailingBytes

/-- The operands of `CRC.CALC`: offset, length, then the buffer to the end of the word. -/
def decodeCrcCalc (bs : Bytes) : Except DecodeError Instr :=
  match natFrom 0 bs with
  | none => .error .missingOperand
  | some (off, bs1) =>
    match natFrom 0 bs1 with
    | none => .error .missingOperand
    | some (len, buf) => .ok (.crcCalc buf off len)

/-- The operands of `DEC.DECODE`: the type in two big-endian bytes, then the payload. -/
def decodeDecDecode : Bytes → Except DecodeError Instr
  | t1 :: t0 :: payload =>
    if t1.toNat < 16 then .ok (.decDecode (BitVec.ofNat 12 (t1.toNat * 256 + t0.toNat)) payload)
    else .error .typeOutOfRange
  | _ => .error .missingOperand

/-- The operands of `MUX.ROUTE`: `crcValid` in one byte, the number of raw bytes, the raw bytes, the payload. -/
def decodeMuxRoute : Bytes → Except DecodeError Instr
  | [] => .error .missingOperand
  | v :: bs =>
    if 1 < v.toNat then .error .badFlag else
    match natFrom 0 bs with
    | none => .error .missingOperand
    | some (n, rest) =>
      if rest.length < n then .error .missingOperand
      else .ok (.muxRoute ⟨rest.take n, rest.drop n, v.toNat == 1⟩)

/-- A port operation: OPSEL is the low four bits of the first byte (30_encoding.md R104; the table's mask is `0xF`),
the operands follow. -/
def decodeOp : Bytes → Except DecodeError Instr
  | [] => .error .noSelectCode
  | b :: bs =>
    match b.toNat % 16 with
    | 0 => .ok (.brLoad bs)
    | 1 => decodeWidth .brRdu bs
    | 2 => decodeWidth .brRds bs
    | 3 => decodeBare .brRem bs
    | 4 => decodeCrcCalc bs
    | 5 => decodeBare .fsReset bs
    | 6 => .ok (.fsPush bs)
    | 7 => decodeDecDecode bs
    | 8 => decodeMuxRoute bs
    | code => .error (.unassignedOpsel code)

/-- A frame word (30_encoding.md R80 to R84): the preamble, six reserved bits and the length, the payload, the
big-endian trailer. -/
def decodeFrame : Bytes → Except DecodeError Instr
  | b0 :: b1 :: b2 :: body =>
    if b0 ≠ preamble then .error .noPreamble else
    let len := headerLength b1 b2
    if body.length ≠ len + 3 then .error .frameLength
    else .ok (.frame (b1.extractLsb' 2 6) (body.take len) (BitVec.ofNat 24 (memRead body len 3)))
  | _ => .error .frameLength

/-- A payload: under 12 bits it is a runt (30_encoding.md R92), else the message number selects (R89), and a number
outside `REGISTERED` is unsupported (R91). A registered number without a row of the opcode table is `DEC.DECODE` of
that number (43_mux_fixed.md R183, log entry 15). -/
def decodePayload (P : Params) (crcValid : Bool) (p : Bytes) : Instr :=
  if p.length < 2 then .runt p crcValid
  else if isRegistered P (msgnum p) then
    match messageInstr (msgnum p) with
    | some mk => mk p
    | none => .decDecode (BitVec.ofNat 12 (msgnum p)) p
  else .unsupported p

/-- The decoder under the block's parameters, total on any word; only a payload depends on them. -/
def decode (P : Params) : InputWord → Except DecodeError Instr
  | .op bs => decodeOp bs
  | .frame bs => decodeFrame bs
  | .payload v p => .ok (decodePayload P v p)

/-! ### Encoding -/

/-- The continuation groups of a number operand before the bytes `tail`; `fuel` bounds the number of groups. -/
def natHigh : Nat → Nat → Bytes → Bytes
  | 0, _, tail => tail
  | fuel + 1, n, tail => if n = 0 then tail else natHigh fuel (n / 128) (BitVec.ofNat 8 (128 + n % 128) :: tail)

/-- The bytes of a number operand (log entry 1). -/
def natBytes (n : Nat) : Bytes := natHigh n (n / 128) [BitVec.ofNat 8 (n % 128)]

/-- The three header bytes for `L = len` (30_encoding.md R80, R81). -/
def headerBytes (reserved : BitVec 6) (len : Nat) : Bytes :=
  [preamble, BitVec.ofNat 8 (reserved.toNat * 4 + len / 256 % 4), BitVec.ofNat 8 len]

/-- The three trailer bytes, most significant first (30_encoding.md R84). -/
def trailerBytes (crc : Crc) : Bytes := [crc.extractLsb' 16 8, crc.extractLsb' 8 8, crc.extractLsb' 0 8]

/-- The bytes of a frame word (30_encoding.md R80). -/
def frameBytes (reserved : BitVec 6) (payload : Bytes) (crc : Crc) : Bytes :=
  headerBytes reserved payload.length ++ payload ++ trailerBytes crc

/-- The word of an instruction. A payload word of a message number carries `crcValid = true`; the decoder does not
read it there. -/
def encode : Instr → InputWord
  | .brLoad buf => .op (0x00 :: buf)
  | .brRdu n => .op (0x01 :: natBytes n)
  | .brRds n => .op (0x02 :: natBytes n)
  | .brRem => .op [0x03]
  | .crcCalc buf off len => .op (0x04 :: (natBytes off ++ natBytes len ++ buf))
  | .fsReset => .op [0x05]
  | .fsPush bytes => .op (0x06 :: bytes)
  | .decDecode type p => .op (0x07 :: BitVec.ofNat 8 (type.toNat / 256) :: BitVec.ofNat 8 type.toNat :: p)
  | .muxRoute f =>
    .op (0x08 :: BitVec.ofNat 8 f.crcValid.toNat :: (natBytes f.rawBytes.length ++ f.rawBytes ++ f.payload))
  | .frame reserved p crc => .frame (frameBytes reserved p crc)
  | .gpsL1Obs p => .payload true p
  | .gpsL1ObsExt p => .payload true p
  | .gpsL1L2Obs p => .payload true p
  | .gpsL1L2ObsExt p => .payload true p
  | .stationArp p => .payload true p
  | .stationArpHgt p => .payload true p
  | .antDesc p => .payload true p
  | .antDescSerial p => .payload true p
  | .gloL1Obs p => .payload true p
  | .gloL1ObsExt p => .payload true p
  | .gloL1L2Obs p => .payload true p
  | .gloL1L2ObsExt p => .payload true p
  | .gloBias p => .payload true p
  | .msm1Gps p => .payload true p
  | .msm2Gps p => .payload true p
  | .msm3Gps p => .payload true p
  | .msm4Gps p => .payload true p
  | .msm5Gps p => .payload true p
  | .msm6Gps p => .payload true p
  | .msm7Gps p => .payload true p
  | .msm1Glo p => .payload true p
  | .msm2Glo p => .payload true p
  | .msm3Glo p => .payload true p
  | .msm4Glo p => .payload true p
  | .msm5Glo p => .payload true p
  | .msm6Glo p => .payload true p
  | .msm7Glo p => .payload true p
  | .msm1Gal p => .payload true p
  | .msm2Gal p => .payload true p
  | .msm3Gal p => .payload true p
  | .msm4Gal p => .payload true p
  | .msm5Gal p => .payload true p
  | .msm6Gal p => .payload true p
  | .msm7Gal p => .payload true p
  | .msm1Bds p => .payload true p
  | .msm2Bds p => .payload true p
  | .msm3Bds p => .payload true p
  | .msm4Bds p => .payload true p
  | .msm5Bds p => .payload true p
  | .msm6Bds p => .payload true p
  | .msm7Bds p => .payload true p
  | .unsupported p => .payload true p
  | .runt p v => .payload v p

/-! ### The opcode table's words -/

/-- The operand bytes of zeros that an operation word has after its select code (log entry 8). -/
def zeroOperands (code : Nat) : Bytes :=
  match code % 16 with
  | 1 => [0]
  | 2 => [0]
  | 4 => [0, 0]
  | 7 => [0, 0]
  | 8 => [0, 0]
  | _ => []

/-- The input word whose leading bits are `w`, numbered as spec/opcode_table.json numbers them, and whose other bits
are 0. 8 bits are an operation (30_encoding.md R104), 24 the frame header read big-endian (R80, R81), 16 the first two
payload bytes read big-endian (R89), none the runt (R92). A payload is filled with zeros to 22 bytes, an MSM whose
fields are all 0 (log entry 8). -/
def tableWord (nbits w : Nat) : InputWord :=
  if nbits = 0 then .payload false []
  else if nbits ≤ 8 then .op (BitVec.ofNat 8 w :: zeroOperands w)
  else if nbits ≤ 16 then .payload false (BitVec.ofNat 8 (w / 256) :: BitVec.ofNat 8 w :: List.replicate 20 0)
  else .frame (BitVec.ofNat 8 (w / 65536) :: BitVec.ofNat 8 (w / 256) :: BitVec.ofNat 8 w ::
    List.replicate (headerLength (BitVec.ofNat 8 (w / 256)) (BitVec.ofNat 8 w) + 3) 0)

/-- The instruction the decoder reads from a row's bits, `none` where it refuses; the opcode table is written for the
default parameters (30_encoding.md R89). -/
def decodeTableWord (nbits w : Nat) : Option Instr := (decode Machine.defaultParams (tableWord nbits w)).toOption

end Sys2Proof
end

