-- ==== Sys2Proof/Machine/State.lean ====
section
/-! DEFINITION. The state of the block, its records and outcomes, and the reasons a step can stop. -/

namespace Sys2Proof.Machine

/-! ### The records the units exchange (10_state.md section 5) -/

/-- A decoded value that is no list (10_state.md R30); `absent` is `none`, never zero or empty (00_scope.md R14). -/
inductive Scalar where
  | uint (v : Nat)
  | sint (v : Int)
  | bool (v : Bool)
  | str (bytes : Bytes)
  | absent
deriving DecidableEq, Repr

/-- A row of a repeating block: an ordered mapping from names to values (10_state.md R30). -/
abbrev Row := List (Key × Scalar)

/-- A value of a fields mapping (10_state.md R30). -/
inductive Value where
  | scalar (v : Scalar)
  | list (rows : List Row)
  | ulist (ns : List Nat)
deriving DecidableEq, Repr

/-- A fields mapping: ordered pairs of name and value (10_state.md R30). -/
abbrev Fields := List (Key × Value)

/-- `DecodedMessage` without the host's `receivedAt` (10_state.md R29); `messageType` is `none` for a runt. -/
structure DecodedMessage where
  messageType   : Option MsgNum
  crcValid      : Bool
  payloadLength : Nat
  fields        : Fields
deriving DecidableEq, Repr

/-! ### Outcomes (00_scope.md R15) -/

/-- The raising errors with the values they record (60_exceptions.md R291 to R293). They end an operation, never the
machine: the outcome is a next state whose `reply` is the error. -/
inductive Err where
  /-- A read of `n` bits when fewer remain (60_exceptions.md R291). -/
  | eRange (n : Nat)
  /-- A read width outside 1..64 (60_exceptions.md R292). -/
  | eArg (n : Nat)
  /-- A CRC range outside the buffer (60_exceptions.md R293). -/
  | eBounds (off len : Nat)
deriving DecidableEq, Repr

/-- What an operation returns (30_encoding.md R104, column "result"). -/
inductive Output where
  /-- Nothing: `BR.LOAD`, `FS.RESET`. -/
  | unit
  /-- A natural number: `BR.RDU`, `BR.REM`. -/
  | nat (v : Nat)
  /-- A signed number: `BR.RDS`. -/
  | int (v : Int)
  /-- A check value: `CRC.CALC`. -/
  | crc (v : Crc)
  /-- The emitted frames, in stream order: `FS.PUSH`. -/
  | frames (fs : List RawFrame)
  /-- A fields mapping: `DEC.DECODE` and the decoders. -/
  | fields (m : Fields)
  /-- A decoded message: `MUX.ROUTE`. -/
  | message (m : DecodedMessage)
deriving DecidableEq, Repr

/-- The outcome of a port operation: exactly one of `ok(outputs)` and `raise E` (00_scope.md R15). -/
inductive Reply where
  | ok (out : Output)
  | raised (e : Err)
deriving DecidableEq, Repr

/-! ### The state -/

/-- A bit reader: an immutable buffer and a cursor, the next stream bit to read (10_state.md R22, R23). -/
structure Reader where
  buf : Bytes
  pos : Nat
deriving DecidableEq, Repr

/-- The whole state (10_state.md R20), and the model's own fields: the parameters the block is built with and the host's
side of the port. -/
structure State where
  /-- `FS.acc`, the accumulator of the frame synchronizer (10_state.md R21). -/
  fsAcc  : Bytes
  /-- `BR.buf` and `BR.pos`, the port reader (10_state.md R22, R23). -/
  br     : Reader
  /-- The model's own: the open parameters `REGISTERED`, `LAYOUT`, `MSM_ORDER` (00_scope.md R8), an argument of the model
  and no state of the block (10_state.md R31); a step reads them here and never changes them (log entry 15). -/
  params : Params
  /-- The model's own: the words the host has issued and no step has run (log entry 2). -/
  issued : List InputWord
  /-- The model's own: the outcome of the last operation, the host's return value (log entry 3). -/
  reply  : Option Reply
deriving DecidableEq, Repr

/-- A block built with the parameters `P`, right after reset (10_state.md R34, 70_reset_and_hazards.md R320, R322);
nothing is issued and nothing has been returned. -/
def State.resetWith (P : Params) : State :=
  { fsAcc := [], br := { buf := [], pos := 0 }, params := P, issued := [], reply := none }

/-- The machine right after reset, built with the spec's default parameters (00_scope.md R8). -/
def State.reset : State := State.resetWith defaultParams

/-! ### Where a step can stop -/

/-- Nothing the spec describes stops the block (93_implementation_defined.md, end of section 1; 60_exceptions.md R302,
R303), so no step ends in a fault and this type has no constructor. -/
inductive Fault where
deriving DecidableEq, Repr

/-- Where the step gives no meaning to what was issued. -/
inductive Refusal where
  /-- An instruction without a meaning yet, raised by `exec`; no arm answers so. Safe. -/
  | notModelled (mnemonic : String)
  /-- The issued word is no instruction, raised by `step`: an unassigned select code (93_implementation_defined.md U7)
  or operand bytes the model's word layout does not read. Safe: the step says nothing of it. -/
  | undecodable (why : DecodeError)
deriving DecidableEq, Repr

end Sys2Proof.Machine
end

