-- ==== Sys2Proof/Machine/Ops.lean ====
section
/-! DEFINITION. The named operations on the state: returning a result, raising an error, the reader's, the CRC's. -/

namespace Sys2Proof.Machine

/-! ### Ending an operation (00_scope.md R15) -/

/-- `ok(outputs)`: the operation completes and the host gets `out`. -/
def answer (out : Output) (s : State) : State := { s with reply := some (.ok out) }

/-- Taking an exception: `raise E` saves nothing, changes no mode, transfers control nowhere and leaves the whole state
as it was (60_exceptions.md R301); the host gets the error. There is no return from it (R302): the next operation is
issued as after any other. -/
def raise (e : Err) (s : State) : State := { s with reply := some (.raised e) }

/-! ### The bit reader (40_bitreader.md) -/

/-- A reader over a copy of `buf`, at its first bit (40_bitreader.md R120). -/
def Reader.load (buf : Bytes) : Reader := { buf := buf, pos := 0 }

/-- `bitsRemaining()` (40_bitreader.md R123). -/
def Reader.rem (r : Reader) : Nat := 8 * r.buf.length - r.pos

/-- The read itself, once its guards have passed: the next `n` bits, and the cursor `n` further
(40_bitreader.md R121). -/
def Reader.take (r : Reader) (n : Nat) : Nat × Reader :=
  (bitRead r.buf r.pos n, { r with pos := r.pos + n })

/-- `RDU n`: the width is checked before the range (40_bitreader.md R121, R127, R128). -/
def Reader.rdu (r : Reader) (n : Nat) : Except Err (Nat × Reader) :=
  if n < 1 ∨ 64 < n then .error (.eArg n)
  else if r.rem < n then .error (.eRange n)
  else .ok (r.take n)

/-- `RDS n`: the same bits and cursor, read as two's complement (40_bitreader.md R122). -/
def Reader.rds (r : Reader) (n : Nat) : Except Err (Int × Reader) :=
  match r.rdu n with
  | .error e => .error e
  | .ok (v, r') => .ok (sext n v, r')

/-! ### The CRC-24Q generator (41_crc24q.md) -/

/-- `CRC_POLY`, 25 bits, bit 24 set (41_crc24q.md R140, R146). -/
def crcPoly : BitVec 25 := 0x1864CFB

/-- `CRC_INIT` (41_crc24q.md R140). -/
def crcInit : Crc := 0

/-- `CrcBit(a)`: the 25-bit shift, the polynomial if bit 24 is set, the mask (41_crc24q.md R141, 90_conflicts.md C4). -/
def crcBit (a : Crc) : Crc :=
  let t : BitVec 25 := a.setWidth 25 <<< 1
  let t := if t.getLsbD 24 then t ^^^ crcPoly else t
  (t &&& 0xFFFFFF).setWidth 24

/-- `k` bit steps. -/
def crcBits : Nat → Crc → Crc
  | 0, a => a
  | k + 1, a => crcBits k (crcBit a)

/-- `CrcByte(a, b)`: the byte into value bits 23..16, then eight bit steps (41_crc24q.md R142). -/
def crcByte (a : Crc) (b : Byte) : Crc := crcBits 8 (a ^^^ (b.setWidth 24 <<< 16))

/-- The byte loop of `CRC.CALC` continued from register value `a` (41_crc24q.md R143, R147 item 3). -/
def crcBytes (a : Crc) (bs : Bytes) : Crc := bs.foldl crcByte a

/-- The check value of a whole buffer: `CRC.CALC(M, 0, |M|)` (41_crc24q.md R147). -/
def crcOf (bs : Bytes) : Crc := crcBytes crcInit bs

/-- `CRC.CALC buf, off, len` (41_crc24q.md R143, R144). -/
def crcCalc (buf : Bytes) (off len : Nat) : Except Err Crc :=
  if buf.length < off + len then .error (.eBounds off len)
  else .ok (crcOf ((buf.drop off).take len))

end Sys2Proof.Machine
end

