-- ==== Sys2Proof/Machine/BitReader.lean ====
section
/-! DEFINITION. The bit reader's port operations (40_bitreader.md). -/

namespace Sys2Proof.Machine

/-- `BR.LOAD buf`: a copy of the operand, cursor 0; `FS.acc` is not touched (40_bitreader.md R120,
70_reset_and_hazards.md R321). -/
def execBrLoad (buf : Bytes) (s : State) : Host.Outcome State Fault Refusal :=
  .next (answer .unit { s with br := Reader.load buf })

/-- `BR.RDU n` (40_bitreader.md R121): `E_ARG` before `E_RANGE`, and a raise changes no state (R127, R128). -/
def execBrRdu (n : Nat) (s : State) : Host.Outcome State Fault Refusal :=
  match s.br.rdu n with
  | .error e => .next (raise e s)
  | .ok (v, r) => .next (answer (.nat v) { s with br := r })

/-- `BR.RDS n` (40_bitreader.md R122). -/
def execBrRds (n : Nat) (s : State) : Host.Outcome State Fault Refusal :=
  match s.br.rds n with
  | .error e => .next (raise e s)
  | .ok (v, r) => .next (answer (.int v) { s with br := r })

/-- `BR.REM` (40_bitreader.md R123). -/
def execBrRem (s : State) : Host.Outcome State Fault Refusal :=
  .next (answer (.nat s.br.rem) s)

end Sys2Proof.Machine
end

