-- ==== Sys2Proof/Machine/Crc.lean ====
section
/-! DEFINITION. The CRC generator's port operation (41_crc24q.md). -/

namespace Sys2Proof.Machine

/-- `CRC.CALC buf, off, len`: no state is read or written (41_crc24q.md R143, R149); a range outside the buffer raises
(R144). -/
def execCrcCalc (buf : Bytes) (off len : Nat) (s : State) : Host.Outcome State Fault Refusal :=
  match crcCalc buf off len with
  | .error e => .next (raise e s)
  | .ok v => .next (answer (.crc v) s)

end Sys2Proof.Machine
end

