-- ==== Sys2Proof/Machine/Operands.lean ====
section
/-! DEFINITION. The operand forms of a payload: the field kinds (30_encoding.md R86 to R88), the masks of the MSM
family (44_msm.md R232 to R234), and what each reads from a decoder's reader. Every read is guarded by the bits
remaining, so no `E_RANGE` arises inside a decoder (40_bitreader.md R129). -/

namespace Sys2Proof

/-- A field's name as the spec spells it (10_state.md R30, 92_eei_decisions.md D18). -/
def Key.name : Key → String
  | .stationId => "stationId"
  | .itrfYear => "itrfYear"
  | .gpsIndicator => "gpsIndicator"
  | .glonassIndicator => "glonassIndicator"
  | .galileoIndicator => "galileoIndicator"
  | .referenceStationIndicator => "referenceStationIndicator"
  | .ecefX => "ecefX"
  | .singleReceiverOscillator => "singleReceiverOscillator"
  | .ecefY => "ecefY"
  | .quarterCycleIndicator => "quarterCycleIndicator"
  | .ecefZ => "ecefZ"
  | .antennaHeight => "antennaHeight"
  | .antennaDescriptorLength => "antennaDescriptorLength"
  | .antennaDescriptor => "antennaDescriptor"
  | .antennaSetupId => "antennaSetupId"
  | .antennaSerialNumberLength => "antennaSerialNumberLength"
  | .antennaSerialNumber => "antennaSerialNumber"
  | .codePhaseBiasIndicator => "codePhaseBiasIndicator"
  | .fdmaSignalsMask => "fdmaSignalsMask"
  | .l1CaCodePhaseBias => "l1CaCodePhaseBias"
  | .l1PCodePhaseBias => "l1PCodePhaseBias"
  | .l2CaCodePhaseBias => "l2CaCodePhaseBias"
  | .l2PCodePhaseBias => "l2PCodePhaseBias"
  | .epochTime => "epochTime"
  | .synchronousGnssFlag => "synchronousGnssFlag"
  | .satelliteCount => "satelliteCount"
  | .smoothingIndicator => "smoothingIndicator"
  | .smoothingInterval => "smoothingInterval"
  | .satellites => "satellites"
  | .satelliteId => "satelliteId"
  | .l1CodeIndicator => "l1CodeIndicator"
  | .frequencyChannelNumber => "frequencyChannelNumber"
  | .l1Pseudorange => "l1Pseudorange"
  | .l1PhaseRangeMinusPseudorange => "l1PhaseRangeMinusPseudorange"
  | .l1LockTimeIndicator => "l1LockTimeIndicator"
  | .l1PseudorangeAmbiguity => "l1PseudorangeAmbiguity"
  | .l1Cnr => "l1Cnr"
  | .l2CodeIndicator => "l2CodeIndicator"
  | .l2MinusL1Pseudorange => "l2MinusL1Pseudorange"
  | .l2PhaseRangeMinusL1Pseudorange => "l2PhaseRangeMinusL1Pseudorange"
  | .l2LockTimeIndicator => "l2LockTimeIndicator"
  | .l2Cnr => "l2Cnr"
  | .msmType => "msmType"
  | .multipleMessage => "multipleMessage"
  | .iods => "iods"
  | .clockSteering => "clockSteering"
  | .externalClock => "externalClock"
  | .satelliteIds => "satelliteIds"
  | .signalIds => "signalIds"
  | .activeCells => "activeCells"
  | .cells => "cells"
  | .signalId => "signalId"
  | .roughRangeMs => "roughRangeMs"
  | .extendedInfo => "extendedInfo"
  | .roughRangeModulo => "roughRangeModulo"
  | .roughPhaseRangeRate => "roughPhaseRangeRate"
  | .finePseudorange => "finePseudorange"
  | .finePhaseRange => "finePhaseRange"
  | .lockTimeIndicator => "lockTimeIndicator"
  | .halfCycleAmbiguity => "halfCycleAmbiguity"
  | .cnr => "cnr"
  | .finePhaseRangeRate => "finePhaseRangeRate"
  | .truncated => "truncated"
  | .bitsRemaining => "bitsRemaining"
  | .unsupported => "unsupported"
  | .rawPayloadHex => "rawPayloadHex"
  | .runt => "runt"
  | .other name => name

end Sys2Proof

namespace Sys2Proof.Machine

/-- What a decoder's procedure leaves: what it recorded, the reader, and whether it was truncated. -/
structure Partial (α : Type) where
  out       : α
  reader    : Reader
  truncated : Bool
deriving DecidableEq, Repr

/-! ### Scalar fields -/

/-- The value that `v`, a number of `width` bits, has under a field kind (30_encoding.md R86, R87). -/
def numValue (kind : NumKind) (width v : Nat) : Scalar :=
  match kind with
  | .u => .uint v
  | .s => .sint (sext width v)
  | .b => .bool (v == 1)

/-- A numeric field whose bits are there. -/
def readNum (kind : NumKind) (width : Nat) (r : Reader) : Scalar × Reader :=
  (numValue kind width (r.take width).1, (r.take width).2)

/-- The characters of a string: `count` reads of 8 bits, in order (30_encoding.md R88). -/
def readChars : Nat → Reader → Bytes × Reader
  | 0, r => ([], r)
  | count + 1, r =>
    let rest := readChars count (r.take 8).2
    (BitVec.ofNat 8 (r.take 8).1 :: rest.1, rest.2)

/-- The names a field records, in order. -/
def fieldKeys : FieldSpec → List Key
  | .num _ key _ => [key]
  | .skip _ => []
  | .str lenKey key => [lenKey, key]

/-- The names of a layout, in order. -/
def layoutKeys (layout : List FieldSpec) : List Key := layout.flatMap fieldKeys

/-- Every name recorded as absent (00_scope.md R14, log entry 6). -/
def absentRow (keys : List Key) : Row := keys.map fun k => (k, .absent)

/-- One field: read whole or not at all; a string's count and its characters are two atoms (43_mux_fixed.md R184,
92_eei_decisions.md D15, D19). -/
def readField (f : FieldSpec) (r : Reader) : Partial Row :=
  match f with
  | .num kind key width =>
    if r.rem < width then ⟨[(key, .absent)], r, true⟩
    else ⟨[(key, (readNum kind width r).1)], (readNum kind width r).2, false⟩
  | .skip width =>
    if r.rem < width then ⟨[], r, true⟩ else ⟨[], (r.take width).2, false⟩
  | .str lenKey key =>
    if r.rem < 8 then ⟨[(lenKey, .absent), (key, .absent)], r, true⟩
    else
      let count := (r.take 8).1
      let r1 := (r.take 8).2
      if r1.rem < 8 * count then ⟨[(lenKey, .uint count), (key, .absent)], r1, true⟩
      else
        let chars := readChars count r1
        ⟨[(lenKey, .uint count), (key, .str chars.1)], chars.2, false⟩

/-- The number recorded under `key`, 0 where none is. -/
def uintAt (row : Row) (key : Key) : Nat :=
  match row.lookup key with
  | some (.uint v) => v
  | _ => 0

/-! ### Masks -/

/-- The identifiers of a mask of `width` bits with value `m`: all `i` in 1..width with `m[width - i] = 1`, ascending;
the first bit read is identifier 1 (44_msm.md R232, R233). -/
def maskIds (width m : Nat) : List Nat := (List.range' 1 width).filter fun i => m.testBit (width - i)

/-- A mask as one atomic item (44_msm.md R232, R233). -/
def readMask (width : Nat) (r : Reader) : Partial (Option (List Nat)) :=
  if r.rem < width then ⟨none, r, true⟩
  else ⟨some (maskIds width (r.take width).1), (r.take width).2, false⟩

/-- The (satellite, signal) pairs in mask order, satellite-major (44_msm.md R234). -/
def cellPairs (sats sigs : List Nat) : List (Nat × Nat) := sats.flatMap fun s => sigs.map fun g => (s, g)

/-- The pairs whose mask bit is set, one bit read for each pair (44_msm.md R234, 92_eei_decisions.md D13). -/
def readActive : List (Nat × Nat) → Reader → List (Nat × Nat) × Reader
  | [], r => ([], r)
  | pair :: pairs, r =>
    let rest := readActive pairs (r.take 1).2
    (if (r.take 1).1 = 1 then pair :: rest.1 else rest.1, rest.2)

/-- The cell mask as one atomic item of `Nsat * Nsig` bits; 0 bits are no truncation (44_msm.md R234). -/
def readCellMask (sats sigs : List Nat) (r : Reader) : Partial (Option (List (Nat × Nat))) :=
  if r.rem < sats.length * sigs.length then ⟨none, r, true⟩
  else
    let active := readActive (cellPairs sats sigs) r
    ⟨some active.1, active.2, false⟩

/-! ### MSM data fields -/

/-- `wS(f, k)`, `wC(f, k)`: the width of a field for `msmType = k`, 0 outside 1..7 (30_encoding.md R101,
44_msm.md R242). -/
def msmWidth (f : MsmField) (k : Nat) : Nat :=
  if 1 ≤ k ∧ k ≤ 7 then f.widths.getD (k - 1) 0 else 0

/-- `SW(k)`, `CW(k)`: the bits of a row (44_msm.md R235). -/
def rowWidth (fields : List MsmField) (k : Nat) : Nat := (fields.map fun f => msmWidth f k).sum

end Sys2Proof.Machine
end

