-- ==== Sys2Proof/Machine/Flags.lean ====
section
/-! DEFINITION. The flags of the output records (10_state.md R26): `crcValid`, `truncated` with `bitsRemaining`,
`unsupported`, `runt`; and the codes of the errors and conditions (60_exceptions.md R298). -/

namespace Sys2Proof.Machine

/-- `crcValid` of a whole frame with payload length `len`: the CRC-24Q over header and payload equals the 24-bit
big-endian trailer (42_framesync.md R167, 30_encoding.md R84). The reserved bits take part as received (R82). -/
def crcValidFlag (raw : Bytes) (len : Nat) : Bool :=
  (crcOf (raw.take (3 + len))).toNat == memRead raw (3 + len) 3

/-- The record of one decode: what was recorded, then `truncated` and `bitsRemaining` (43_mux_fixed.md R186). -/
def epilogue (p : Partial Fields) : Fields :=
  p.out ++ [(.truncated, .scalar (.bool p.truncated)), (.bitsRemaining, .scalar (.uint p.reader.rem))]

/-- The ASCII code of a hexadecimal digit, upper case (43_mux_fixed.md R187). -/
def hexDigit (d : Nat) : Byte := if d < 10 then BitVec.ofNat 8 (0x30 + d) else BitVec.ofNat 8 (0x37 + d)

/-- `Hex(p)`: two digits a byte, most significant first, no separator (43_mux_fixed.md R187). -/
def hex (p : Bytes) : Bytes := p.flatMap fun b => [hexDigit (b.toNat / 16), hexDigit (b.toNat % 16)]

/-- `Unsupported(payload)`, the fallback record (43_mux_fixed.md R187). -/
def unsupportedRecord (p : Bytes) : Fields :=
  [(.unsupported, .scalar (.bool true)), (.rawPayloadHex, .scalar (.str (hex p)))]

/-- The fields of a runt record (43_mux_fixed.md R182). -/
def runtFields (p : Bytes) : Fields :=
  [(.runt, .scalar (.bool true)), (.rawPayloadHex, .scalar (.str (hex p)))]

/-- `Runt(frame)`: no message number, no decoder (43_mux_fixed.md R182). -/
def runtMessage (p : Bytes) (crcValid : Bool) : DecodedMessage :=
  { messageType := none, crcValid := crcValid, payloadLength := p.length, fields := runtFields p }

/-! ### Codes (60_exceptions.md R290, R298): names for traces, which no rule reads -/

/-- The code of a raising error. -/
def errCode : Err → Nat
  | .eRange _ => 1
  | .eArg _ => 2
  | .eBounds _ _ => 3

/-- The conditions: each is a flag of an output record and ends nothing (60_exceptions.md R290). -/
inductive Condition where
  /-- The computed CRC differs from the trailer (60_exceptions.md R294). -/
  | crcMismatch
  /-- An atom of the layout did not fit (60_exceptions.md R295). -/
  | truncated
  /-- The type has no decoder (60_exceptions.md R296). -/
  | unsupported
  /-- The payload has fewer than 12 bits (60_exceptions.md R297). -/
  | runt
deriving DecidableEq, Repr

/-- The code of a condition. -/
def conditionCode : Condition → Nat
  | .crcMismatch => 16
  | .truncated => 17
  | .unsupported => 18
  | .runt => 19

/-- The condition of an emitted frame (60_exceptions.md R294). -/
def frameConditions (f : RawFrame) : List Condition := if f.crcValid then [] else [.crcMismatch]

/-- The conditions that a record's flags show (60_exceptions.md R295 to R297). -/
def recordConditions (m : Fields) : List Condition :=
  (if m.lookup .truncated = some (.scalar (.bool true)) then [.truncated] else []) ++
  (if m.lookup .unsupported = some (.scalar (.bool true)) then [.unsupported] else []) ++
  (if m.lookup .runt = some (.scalar (.bool true)) then [.runt] else [])

end Sys2Proof.Machine
end

