-- ==== Sys2Proof/Machine/Decoders.lean ====
section
/-! DEFINITION. The decoders of payloads: the shared procedures (43_mux_fixed.md R184 to R186), the fixed layouts, the
bias mask, the legacy observables, the multi-signal message (44_msm.md R243) in both data orders, and the dispatch on
the message number (43_mux_fixed.md R183). Each is a function of its arguments: no decoder has state or can raise
(60_exceptions.md R303). -/

namespace Sys2Proof.Machine

/-! ### Shared procedures (43_mux_fixed.md section 2) -/

/-- `Prologue`: load the private reader, consume the message number without looking at it (43_mux_fixed.md R184). -/
def prologue (payload : Bytes) : Partial Unit :=
  let r := Reader.load payload
  if r.rem < 12 then ⟨(), r, true⟩ else ⟨(), (r.take 12).2, false⟩

/-- `DecodeSeq`: one guarded read a field, in layout order; after a truncation every later field is absent
(43_mux_fixed.md R184). -/
def decodeSeq : List FieldSpec → Reader → Partial Row
  | [], r => ⟨[], r, false⟩
  | f :: fs, r =>
    let head := readField f r
    if head.truncated then ⟨head.out ++ absentRow (layoutKeys fs), head.reader, true⟩
    else
      let tail := decodeSeq fs head.reader
      ⟨head.out ++ tail.out, tail.reader, tail.truncated⟩

/-- The bits of a layout without strings. -/
def layoutWidth (layout : List FieldSpec) : Nat :=
  (layout.map fun f => match f with
    | .num _ _ w => w
    | .skip w => w
    | .str _ _ => 0).sum

/-- `DecodeRows`: a row is read whole or not at all, and the first that does not fit ends the block
(43_mux_fixed.md R185). -/
def decodeRows (layout : List FieldSpec) : Nat → Reader → Partial (List Row)
  | 0, r => ⟨[], r, false⟩
  | count + 1, r =>
    if r.rem < layoutWidth layout then ⟨[], r, true⟩
    else
      let row := decodeSeq layout r
      let rows := decodeRows layout count row.reader
      ⟨row.out :: rows.out, rows.reader, rows.truncated⟩

/-- `Prologue or DecodeSeq`: the short-circuit start of every registered decoder (43_mux_fixed.md R188). -/
def startSeq (layout : List FieldSpec) (payload : Bytes) : Partial Row :=
  let p := prologue payload
  if p.truncated then ⟨absentRow (layoutKeys layout), p.reader, true⟩ else decodeSeq layout p.reader

/-- The scalars of a row as values of a fields mapping. -/
def rowFields (row : Row) : Fields := row.map fun (k, v) => (k, .scalar v)

/-! ### The fixed-layout decoders -/

/-- A decoder of a fixed sequence of fields (43_mux_fixed.md R188 to R191). -/
def decodeFixed (layout : List FieldSpec) (payload : Bytes) : Fields :=
  let p := startSeq layout payload
  epilogue ⟨rowFields p.out, p.reader, p.truncated⟩

/-- The fields a mask governs: each is read where its bit is set, absent where it is clear, and after a truncation
nothing more is read (43_mux_fixed.md R192). -/
def readBiases (mask : Nat) : List (Nat × FieldSpec) → Reader → Partial Row
  | [], r => ⟨[], r, false⟩
  | (k, f) :: rest, r =>
    if mask.testBit k then
      let head := readField f r
      if head.truncated then ⟨head.out ++ absentRow (layoutKeys (rest.map Prod.snd)), head.reader, true⟩
      else
        let tail := readBiases mask rest head.reader
        ⟨head.out ++ tail.out, tail.reader, tail.truncated⟩
    else
      let tail := readBiases mask rest r
      ⟨absentRow (fieldKeys f) ++ tail.out, tail.reader, tail.truncated⟩

/-- The bias-mask decoder (43_mux_fixed.md R192); `mask` names the header's mask. -/
def decodeBias (header : List FieldSpec) (mask : Key) (biases : List (Nat × FieldSpec)) (payload : Bytes) : Fields :=
  let h := startSeq header payload
  let b : Partial Row :=
    if h.truncated then ⟨absentRow (layoutKeys (biases.map Prod.snd)), h.reader, true⟩
    else readBiases (uintAt h.out mask) biases h.reader
  epilogue ⟨rowFields (h.out ++ b.out), b.reader, b.truncated⟩

/-- `LegacyObs(payload, H, ROW)` (43_mux_fixed.md section 7): the decoded count drives the rows, the bits remaining
bound them (R193, 92_eei_decisions.md D27); the list of rows is always present. `count` and `rows` are its names,
`satelliteCount` and `satellites` in every default layout. -/
def decodeLegacyObs (header : List FieldSpec) (count rows : Key) (row : List FieldSpec) (payload : Bytes) : Fields :=
  let h := startSeq header payload
  let block : Partial (List Row) :=
    if h.truncated then ⟨[], h.reader, true⟩
    else decodeRows row (uintAt h.out count) h.reader
  epilogue ⟨rowFields h.out ++ [(rows, .list block.out)], block.reader, block.truncated⟩

/-! ### The multi-signal message (44_msm.md) -/

/-- The identifying keys of a satellite row (44_msm.md R237). -/
def satelliteRowId (s : Nat) : Row := [(.satelliteId, .uint s)]

/-- The identifying keys of a cell, in `activeCells` and in a cell row (44_msm.md R237, R241). -/
def cellRowId (c : Nat × Nat) : Row := [(.satelliteId, .uint c.1), (.signalId, .uint c.2)]

/-- The field keys of one data row whose bits are there: width 0 is absent and consumes nothing (44_msm.md R236,
R239). -/
def readMsmRow (k : Nat) : List MsmField → Reader → Row × Reader
  | [], r => ([], r)
  | f :: fs, r =>
    if msmWidth f k = 0 then
      let rest := readMsmRow k fs r
      ((f.key, .absent) :: rest.1, rest.2)
    else
      let rest := readMsmRow k fs (readNum f.kind (msmWidth f k) r).2
      ((f.key, (readNum f.kind (msmWidth f k) r).1) :: rest.1, rest.2)

/-- A data block row by row; the row is the atom (44_msm.md R236). `ids` holds the identifying keys of the rows. -/
def readMsmRows (k : Nat) (fields : List MsmField) : List Row → Reader → Partial (List Row)
  | [], r => ⟨[], r, false⟩
  | id :: ids, r =>
    if r.rem < rowWidth fields k then ⟨[], r, true⟩
    else
      let row := readMsmRow k fields r
      let rows := readMsmRows k fields ids row.2
      ⟨(id ++ row.1) :: rows.out, rows.reader, rows.truncated⟩

/-- `count` values of one field; the value is the atom, the values not read are absent (44_msm.md R238). -/
def readColumn (kind : NumKind) (width : Nat) : Nat → Reader → Partial (List Scalar)
  | 0, r => ⟨[], r, false⟩
  | count + 1, r =>
    if r.rem < width then ⟨List.replicate (count + 1) .absent, r, true⟩
    else
      let rest := readColumn kind width count (readNum kind width r).2
      ⟨(readNum kind width r).1 :: rest.out, rest.reader, rest.truncated⟩

/-- All columns of a data block in field order; after a truncation nothing more is read (44_msm.md R238, R239). -/
def readColumns (k count : Nat) : List MsmField → Reader → Partial (List (Key × List Scalar))
  | [], r => ⟨[], r, false⟩
  | f :: fs, r =>
    let column : Partial (List Scalar) :=
      if msmWidth f k = 0 then ⟨List.replicate count .absent, r, false⟩ else readColumn f.kind (msmWidth f k) count r
    if column.truncated then
      ⟨(f.key, column.out) :: fs.map (fun g => (g.key, List.replicate count .absent)), column.reader, true⟩
    else
      let rest := readColumns k count fs column.reader
      ⟨(f.key, column.out) :: rest.out, rest.reader, rest.truncated⟩

/-- The rows of a block read by columns: each identifying part with its value of every field. -/
def columnRows (ids : List Row) (columns : List (Key × List Scalar)) : List Row :=
  ids.mapIdx fun j id => id ++ columns.map fun (key, values) => (key, values.getD j .absent)

/-- A data block field by field: every row is there, the values not read are absent (44_msm.md R238). -/
def readMsmColumns (k : Nat) (fields : List MsmField) (ids : List Row) (r : Reader) : Partial (List Row) :=
  let columns := readColumns k ids.length fields r
  ⟨columnRows ids columns.out, columns.reader, columns.truncated⟩

/-- The cell block of a message whose satellite block was truncated: no cell row is read (44_msm.md R236); under
`FieldMajor` the rows are there with every value absent (44_msm.md R238). -/
def unreadCells (order : MsmOrder) (fields : List MsmField) (ids : List Row) : List Row :=
  match order with
  | .rowMajor => []
  | .fieldMajor => ids.map fun id => id ++ absentRow (fields.map MsmField.key)

/-- One data block in the given order (44_msm.md R236, R238). -/
def readBlock (order : MsmOrder) (k : Nat) (fields : List MsmField) (ids : List Row) (r : Reader) :
    Partial (List Row) :=
  match order with
  | .rowMajor => readMsmRows k fields ids r
  | .fieldMajor => readMsmColumns k fields ids r

/-- The two data blocks: satellites, then cells unless the satellites were truncated (44_msm.md R236, R238). -/
def readData (order : MsmOrder) (L : MsmLayout) (k : Nat) (sats : List Nat) (active : List (Nat × Nat)) (r : Reader) :
    Partial (List Row × List Row) :=
  let satBlock := readBlock order k L.satellite (sats.map satelliteRowId) r
  if satBlock.truncated then
    ⟨(satBlock.out, unreadCells order L.cell (active.map cellRowId)), satBlock.reader, true⟩
  else
    let cellBlock := readBlock order k L.cell (active.map cellRowId) satBlock.reader
    ⟨(satBlock.out, cellBlock.out), cellBlock.reader, cellBlock.truncated⟩

/-- What the MSM decoder has found after its three masks. -/
structure MsmMasks where
  sats   : Option (List Nat)
  sigs   : Option (List Nat)
  active : Option (List (Nat × Nat))
deriving DecidableEq, Repr

/-- The three masks, each one atomic item; the first that does not fit ends the reading (44_msm.md R232 to R234,
R240). -/
def readMasks (r : Reader) : Partial MsmMasks :=
  let sats := readMask 64 r
  if sats.truncated then ⟨⟨none, none, none⟩, sats.reader, true⟩
  else
    let sigs := readMask 32 sats.reader
    if sigs.truncated then ⟨⟨sats.out, none, none⟩, sigs.reader, true⟩
    else
      let active := readCellMask (sats.out.getD []) (sigs.out.getD []) sigs.reader
      ⟨⟨sats.out, sigs.out, active.out⟩, active.reader, active.truncated⟩

/-- A mask's identifiers in the record, absent when the mask was not read (44_msm.md R240, R241). -/
def idsValue : Option (List Nat) → Value
  | none => .scalar .absent
  | some ids => .ulist ids

/-- The active cells in the record (44_msm.md R241, R243). -/
def cellsValue : Option (List (Nat × Nat)) → Value
  | none => .scalar .absent
  | some active => .list (active.map cellRowId)

/-- `MSM(type, payload)` (44_msm.md R243), in either data order. -/
def decodeMsm (order : MsmOrder) (L : MsmLayout) (type : Nat) (payload : Bytes) : Fields :=
  let k := type % 10
  let h := startSeq L.header payload
  let m : Partial MsmMasks :=
    if h.truncated then ⟨⟨none, none, none⟩, h.reader, true⟩ else readMasks h.reader
  let d : Partial (List Row × List Row) :=
    if m.truncated then ⟨([], []), m.reader, true⟩
    else readData order L k (m.out.sats.getD []) (m.out.active.getD []) m.reader
  epilogue
    ⟨(.msmType, .scalar (.uint k)) :: rowFields h.out ++
      [(.satelliteIds, idsValue m.out.sats), (.signalIds, idsValue m.out.sigs),
       (.activeCells, cellsValue m.out.active), (.satellites, .list d.out.1), (.cells, .list d.out.2)],
     d.reader, d.truncated⟩

/-! ### Dispatch (43_mux_fixed.md R183) -/

/-- The decoder of a registered number, run on a payload. -/
def runDecoder (P : Params) (type : Nat) (payload : Bytes) : Decoder → Fields
  | .fixed layout => decodeFixed layout payload
  | .bias header mask biases => decodeBias header mask biases payload
  | .legacyObs header count rows row => decodeLegacyObs header count rows row payload
  | .msm => decodeMsm P.msmOrder P.msm type payload

/-- `DEC.DECODE type, payload`: the `type` operand selects, whatever number the payload begins with
(43_mux_fixed.md R183, R187). -/
def decodeMessage (P : Params) (type : Nat) (payload : Bytes) : Fields :=
  match P.registered.lookup type with
  | some d => runDecoder P type payload d
  | none => unsupportedRecord payload

/-- `MUX.ROUTE frame`: runt first, then the decoder of the first 12 payload bits; `crcValid` is copied, never tested
(43_mux_fixed.md R180 to R182). -/
def routeFrame (P : Params) (f : RawFrame) : DecodedMessage :=
  if 8 * f.payload.length < 12 then runtMessage f.payload f.crcValid
  else
    { messageType := some (BitVec.ofNat 12 (msgnum f.payload)), crcValid := f.crcValid,
      payloadLength := f.payload.length, fields := decodeMessage P (msgnum f.payload) f.payload }

end Sys2Proof.Machine
end

