-- ==== Sys2Proof/Machine/Fixed.lean ====
section
/-! DEFINITION. The 13 fixed-layout message numbers (43_mux_fixed.md R188 to R200): each returns the record of the
decoder that the block's parameters give its number (R183, 00_scope.md R8) and changes no other state. By default that
is the decoder and the layout of the rule each names (Machine/Layouts.lean). -/

namespace Sys2Proof.Machine

/-- `GPS_L1_OBS`, message number 1001 (43_mux_fixed.md R193). -/
def execGpsL1Obs (payload : Bytes) (s : State) : Host.Outcome State Fault Refusal :=
  .next (answer (.fields (decodeMessage s.params 1001 payload)) s)

/-- `GPS_L1_OBS_EXT`, message number 1002 (43_mux_fixed.md R194). -/
def execGpsL1ObsExt (payload : Bytes) (s : State) : Host.Outcome State Fault Refusal :=
  .next (answer (.fields (decodeMessage s.params 1002 payload)) s)

/-- `GPS_L1L2_OBS`, message number 1003 (43_mux_fixed.md R195). -/
def execGpsL1L2Obs (payload : Bytes) (s : State) : Host.Outcome State Fault Refusal :=
  .next (answer (.fields (decodeMessage s.params 1003 payload)) s)

/-- `GPS_L1L2_OBS_EXT`, message number 1004 (43_mux_fixed.md R196). -/
def execGpsL1L2ObsExt (payload : Bytes) (s : State) : Host.Outcome State Fault Refusal :=
  .next (answer (.fields (decodeMessage s.params 1004 payload)) s)

/-- `STATION_ARP`, message number 1005 (43_mux_fixed.md R188). -/
def execStationArp (payload : Bytes) (s : State) : Host.Outcome State Fault Refusal :=
  .next (answer (.fields (decodeMessage s.params 1005 payload)) s)

/-- `STATION_ARP_HGT`, message number 1006 (43_mux_fixed.md R189). -/
def execStationArpHgt (payload : Bytes) (s : State) : Host.Outcome State Fault Refusal :=
  .next (answer (.fields (decodeMessage s.params 1006 payload)) s)

/-- `ANT_DESC`, message number 1007 (43_mux_fixed.md R190). -/
def execAntDesc (payload : Bytes) (s : State) : Host.Outcome State Fault Refusal :=
  .next (answer (.fields (decodeMessage s.params 1007 payload)) s)

/-- `ANT_DESC_SERIAL`, message number 1008 (43_mux_fixed.md R191). -/
def execAntDescSerial (payload : Bytes) (s : State) : Host.Outcome State Fault Refusal :=
  .next (answer (.fields (decodeMessage s.params 1008 payload)) s)

/-- `GLO_L1_OBS`, message number 1009 (43_mux_fixed.md R197). -/
def execGloL1Obs (payload : Bytes) (s : State) : Host.Outcome State Fault Refusal :=
  .next (answer (.fields (decodeMessage s.params 1009 payload)) s)

/-- `GLO_L1_OBS_EXT`, message number 1010 (43_mux_fixed.md R198). -/
def execGloL1ObsExt (payload : Bytes) (s : State) : Host.Outcome State Fault Refusal :=
  .next (answer (.fields (decodeMessage s.params 1010 payload)) s)

/-- `GLO_L1L2_OBS`, message number 1011 (43_mux_fixed.md R199). -/
def execGloL1L2Obs (payload : Bytes) (s : State) : Host.Outcome State Fault Refusal :=
  .next (answer (.fields (decodeMessage s.params 1011 payload)) s)

/-- `GLO_L1L2_OBS_EXT`, message number 1012 (43_mux_fixed.md R200). -/
def execGloL1L2ObsExt (payload : Bytes) (s : State) : Host.Outcome State Fault Refusal :=
  .next (answer (.fields (decodeMessage s.params 1012 payload)) s)

/-- `GLO_BIAS`, message number 1230 (43_mux_fixed.md R192). -/
def execGloBias (payload : Bytes) (s : State) : Host.Outcome State Fault Refusal :=
  .next (answer (.fields (decodeMessage s.params 1230 payload)) s)

end Sys2Proof.Machine
end

