-- ==== Sys2Proof/Machine/FrameSync.lean ====
section
/-! DEFINITION. The frame synchronizer: the scan-extract loop, its port operations and the frame word
(42_framesync.md). -/

namespace Sys2Proof.Machine

/-- Step 7: the RawFrame of a whole frame with payload length `len`, emitted whether or not the check passed
(42_framesync.md R167). -/
def extractFrame (raw : Bytes) (len : Nat) : RawFrame :=
  { rawBytes := raw, payload := (raw.drop 3).take len, crcValid := crcValidFlag raw len }

/-- Steps 2 to 8 (42_framesync.md R162 to R168): scan for the preamble and drop what stands before it, wait for the
header, wait for the frame, emit it, go on with what is left. The result is the frames emitted and the accumulator
left. `fuel` bounds the iterations; each removes at least six bytes (R170). -/
def fsLoop : Nat → Bytes → List RawFrame × Bytes
  | 0, acc => ([], acc)
  | fuel + 1, acc =>
    match acc.dropWhile (· != preamble) with
    | [] => ([], [])
    | b0 :: rest =>
      let acc1 := b0 :: rest
      if acc1.length < 3 then ([], acc1)
      else
        let len := headerLength (acc1.getD 1 0) (acc1.getD 2 0)
        if acc1.length < len + 6 then ([], acc1)
        else
          let more := fsLoop fuel (acc1.drop (len + 6))
          (extractFrame (acc1.take (len + 6)) len :: more.1, more.2)

/-- The loop on a whole accumulator (42_framesync.md R169); `|acc| + 1` iterations are always enough (R170). -/
def fsScan (acc : Bytes) : List RawFrame × Bytes := fsLoop (acc.length + 1) acc

/-- `FS.PUSH bytes` on the state: the append precedes the scan (42_framesync.md R161, R169; 20_memory.md R65). -/
def pushBytes (bytes : Bytes) (s : State) : State :=
  let found := fsScan (s.fsAcc ++ bytes)
  answer (.frames found.1) { s with fsAcc := found.2 }

/-- `FS.RESET`: only `FS.acc` is cleared (42_framesync.md R160, 70_reset_and_hazards.md R320, R321). -/
def execFsReset (s : State) : Host.Outcome State Fault Refusal :=
  .next (answer .unit { s with fsAcc := [] })

/-- `FS.PUSH bytes` (42_framesync.md R169); it never raises. -/
def execFsPush (bytes : Bytes) (s : State) : Host.Outcome State Fault Refusal :=
  .next (pushBytes bytes s)

/-- `FRAME`: the frame's bytes reach the synchronizer, which extracts it (30_encoding.md R80, 42_framesync.md R169;
log entry 9). -/
def execFrame (reserved : BitVec 6) (payload : Bytes) (crc : Crc) (s : State) : Host.Outcome State Fault Refusal :=
  .next (pushBytes (frameBytes reserved payload crc) s)

end Sys2Proof.Machine
end

