-- ==== Sys2Proof/Machine/Msm.lean ====
section
/-! DEFINITION. The 28 MSM message numbers (44_msm.md R250 to R277): each returns the record of the decoder that the
block's parameters give its number (43_mux_fixed.md R183, 00_scope.md R8). By default that is the one MSM decoder, whose
widths the last digit of the number selects (44_msm.md R230); `MSM_ORDER` is a parameter, either order runs. -/

namespace Sys2Proof.Machine

/-- `MSM1_GPS`, message number 1071 (44_msm.md R250). -/
def execMsm1Gps (payload : Bytes) (s : State) : Host.Outcome State Fault Refusal :=
  .next (answer (.fields (decodeMessage s.params 1071 payload)) s)

/-- `MSM2_GPS`, message number 1072 (44_msm.md R251). -/
def execMsm2Gps (payload : Bytes) (s : State) : Host.Outcome State Fault Refusal :=
  .next (answer (.fields (decodeMessage s.params 1072 payload)) s)

/-- `MSM3_GPS`, message number 1073 (44_msm.md R252). -/
def execMsm3Gps (payload : Bytes) (s : State) : Host.Outcome State Fault Refusal :=
  .next (answer (.fields (decodeMessage s.params 1073 payload)) s)

/-- `MSM4_GPS`, message number 1074 (44_msm.md R253). -/
def execMsm4Gps (payload : Bytes) (s : State) : Host.Outcome State Fault Refusal :=
  .next (answer (.fields (decodeMessage s.params 1074 payload)) s)

/-- `MSM5_GPS`, message number 1075 (44_msm.md R254). -/
def execMsm5Gps (payload : Bytes) (s : State) : Host.Outcome State Fault Refusal :=
  .next (answer (.fields (decodeMessage s.params 1075 payload)) s)

/-- `MSM6_GPS`, message number 1076 (44_msm.md R255). -/
def execMsm6Gps (payload : Bytes) (s : State) : Host.Outcome State Fault Refusal :=
  .next (answer (.fields (decodeMessage s.params 1076 payload)) s)

/-- `MSM7_GPS`, message number 1077 (44_msm.md R256). -/
def execMsm7Gps (payload : Bytes) (s : State) : Host.Outcome State Fault Refusal :=
  .next (answer (.fields (decodeMessage s.params 1077 payload)) s)

/-- `MSM1_GLO`, message number 1081 (44_msm.md R257). -/
def execMsm1Glo (payload : Bytes) (s : State) : Host.Outcome State Fault Refusal :=
  .next (answer (.fields (decodeMessage s.params 1081 payload)) s)

/-- `MSM2_GLO`, message number 1082 (44_msm.md R258). -/
def execMsm2Glo (payload : Bytes) (s : State) : Host.Outcome State Fault Refusal :=
  .next (answer (.fields (decodeMessage s.params 1082 payload)) s)

/-- `MSM3_GLO`, message number 1083 (44_msm.md R259). -/
def execMsm3Glo (payload : Bytes) (s : State) : Host.Outcome State Fault Refusal :=
  .next (answer (.fields (decodeMessage s.params 1083 payload)) s)

/-- `MSM4_GLO`, message number 1084 (44_msm.md R260). -/
def execMsm4Glo (payload : Bytes) (s : State) : Host.Outcome State Fault Refusal :=
  .next (answer (.fields (decodeMessage s.params 1084 payload)) s)

/-- `MSM5_GLO`, message number 1085 (44_msm.md R261). -/
def execMsm5Glo (payload : Bytes) (s : State) : Host.Outcome State Fault Refusal :=
  .next (answer (.fields (decodeMessage s.params 1085 payload)) s)

/-- `MSM6_GLO`, message number 1086 (44_msm.md R262). -/
def execMsm6Glo (payload : Bytes) (s : State) : Host.Outcome State Fault Refusal :=
  .next (answer (.fields (decodeMessage s.params 1086 payload)) s)

/-- `MSM7_GLO`, message number 1087 (44_msm.md R263). -/
def execMsm7Glo (payload : Bytes) (s : State) : Host.Outcome State Fault Refusal :=
  .next (answer (.fields (decodeMessage s.params 1087 payload)) s)

/-- `MSM1_GAL`, message number 1091 (44_msm.md R264). -/
def execMsm1Gal (payload : Bytes) (s : State) : Host.Outcome State Fault Refusal :=
  .next (answer (.fields (decodeMessage s.params 1091 payload)) s)

/-- `MSM2_GAL`, message number 1092 (44_msm.md R265). -/
def execMsm2Gal (payload : Bytes) (s : State) : Host.Outcome State Fault Refusal :=
  .next (answer (.fields (decodeMessage s.params 1092 payload)) s)

/-- `MSM3_GAL`, message number 1093 (44_msm.md R266). -/
def execMsm3Gal (payload : Bytes) (s : State) : Host.Outcome State Fault Refusal :=
  .next (answer (.fields (decodeMessage s.params 1093 payload)) s)

/-- `MSM4_GAL`, message number 1094 (44_msm.md R267). -/
def execMsm4Gal (payload : Bytes) (s : State) : Host.Outcome State Fault Refusal :=
  .next (answer (.fields (decodeMessage s.params 1094 payload)) s)

/-- `MSM5_GAL`, message number 1095 (44_msm.md R268). -/
def execMsm5Gal (payload : Bytes) (s : State) : Host.Outcome State Fault Refusal :=
  .next (answer (.fields (decodeMessage s.params 1095 payload)) s)

/-- `MSM6_GAL`, message number 1096 (44_msm.md R269). -/
def execMsm6Gal (payload : Bytes) (s : State) : Host.Outcome State Fault Refusal :=
  .next (answer (.fields (decodeMessage s.params 1096 payload)) s)

/-- `MSM7_GAL`, message number 1097 (44_msm.md R270). -/
def execMsm7Gal (payload : Bytes) (s : State) : Host.Outcome State Fault Refusal :=
  .next (answer (.fields (decodeMessage s.params 1097 payload)) s)

/-- `MSM1_BDS`, message number 1121 (44_msm.md R271). -/
def execMsm1Bds (payload : Bytes) (s : State) : Host.Outcome State Fault Refusal :=
  .next (answer (.fields (decodeMessage s.params 1121 payload)) s)

/-- `MSM2_BDS`, message number 1122 (44_msm.md R272). -/
def execMsm2Bds (payload : Bytes) (s : State) : Host.Outcome State Fault Refusal :=
  .next (answer (.fields (decodeMessage s.params 1122 payload)) s)

/-- `MSM3_BDS`, message number 1123 (44_msm.md R273). -/
def execMsm3Bds (payload : Bytes) (s : State) : Host.Outcome State Fault Refusal :=
  .next (answer (.fields (decodeMessage s.params 1123 payload)) s)

/-- `MSM4_BDS`, message number 1124 (44_msm.md R274). -/
def execMsm4Bds (payload : Bytes) (s : State) : Host.Outcome State Fault Refusal :=
  .next (answer (.fields (decodeMessage s.params 1124 payload)) s)

/-- `MSM5_BDS`, message number 1125 (44_msm.md R275). -/
def execMsm5Bds (payload : Bytes) (s : State) : Host.Outcome State Fault Refusal :=
  .next (answer (.fields (decodeMessage s.params 1125 payload)) s)

/-- `MSM6_BDS`, message number 1126 (44_msm.md R276). -/
def execMsm6Bds (payload : Bytes) (s : State) : Host.Outcome State Fault Refusal :=
  .next (answer (.fields (decodeMessage s.params 1126 payload)) s)

/-- `MSM7_BDS`, message number 1127 (44_msm.md R277). -/
def execMsm7Bds (payload : Bytes) (s : State) : Host.Outcome State Fault Refusal :=
  .next (answer (.fields (decodeMessage s.params 1127 payload)) s)

end Sys2Proof.Machine
end

