-- ==== Sys2Proof/Machine/Mux.lean ====
section
/-! DEFINITION. The multiplexer's port operations, the fallback and the runt (43_mux_fixed.md), under the block's
parameters (00_scope.md R8). -/

namespace Sys2Proof.Machine

/-- `DEC.DECODE type, payload` (43_mux_fixed.md R183); total, and `BR` is not used (10_state.md R33). -/
def execDecDecode (type : MsgNum) (payload : Bytes) (s : State) : Host.Outcome State Fault Refusal :=
  .next (answer (.fields (decodeMessage s.params type.toNat payload)) s)

/-- `MUX.ROUTE frame` (43_mux_fixed.md R180). -/
def execMuxRoute (f : RawFrame) (s : State) : Host.Outcome State Fault Refusal :=
  .next (answer (.message (routeFrame s.params f)) s)

/-- `UNSUPPORTED`, the fallback (43_mux_fixed.md R187). -/
def execUnsupported (payload : Bytes) (s : State) : Host.Outcome State Fault Refusal :=
  .next (answer (.fields (unsupportedRecord payload)) s)

/-- `RUNT` (43_mux_fixed.md R182). -/
def execRunt (payload : Bytes) (crcValid : Bool) (s : State) : Host.Outcome State Fault Refusal :=
  .next (answer (.message (runtMessage payload crcValid)) s)

end Sys2Proof.Machine
end

