-- ==== Sys2Proof/Machine/Dispatch.lean ====
section
/-! DEFINITION. The dispatch from instructions to their meanings, one arm a constructor. -/

namespace Sys2Proof.Machine

def exec (i : Instr) (s : State) : Host.Outcome State Fault Refusal :=
  match i with
  | .brLoad buf => Sys2Proof.Machine.execBrLoad buf s
  | .brRdu n => Sys2Proof.Machine.execBrRdu n s
  | .brRds n => Sys2Proof.Machine.execBrRds n s
  | .brRem => Sys2Proof.Machine.execBrRem s
  | .crcCalc buf off len => Sys2Proof.Machine.execCrcCalc buf off len s
  | .fsReset => Sys2Proof.Machine.execFsReset s
  | .fsPush bytes => Sys2Proof.Machine.execFsPush bytes s
  | .decDecode type payload => Sys2Proof.Machine.execDecDecode type payload s
  | .muxRoute f => Sys2Proof.Machine.execMuxRoute f s
  | .frame reserved payload crc => Sys2Proof.Machine.execFrame reserved payload crc s
  | .gpsL1Obs payload => Sys2Proof.Machine.execGpsL1Obs payload s
  | .gpsL1ObsExt payload => Sys2Proof.Machine.execGpsL1ObsExt payload s
  | .gpsL1L2Obs payload => Sys2Proof.Machine.execGpsL1L2Obs payload s
  | .gpsL1L2ObsExt payload => Sys2Proof.Machine.execGpsL1L2ObsExt payload s
  | .stationArp payload => Sys2Proof.Machine.execStationArp payload s
  | .stationArpHgt payload => Sys2Proof.Machine.execStationArpHgt payload s
  | .antDesc payload => Sys2Proof.Machine.execAntDesc payload s
  | .antDescSerial payload => Sys2Proof.Machine.execAntDescSerial payload s
  | .gloL1Obs payload => Sys2Proof.Machine.execGloL1Obs payload s
  | .gloL1ObsExt payload => Sys2Proof.Machine.execGloL1ObsExt payload s
  | .gloL1L2Obs payload => Sys2Proof.Machine.execGloL1L2Obs payload s
  | .gloL1L2ObsExt payload => Sys2Proof.Machine.execGloL1L2ObsExt payload s
  | .gloBias payload => Sys2Proof.Machine.execGloBias payload s
  | .msm1Gps payload => Sys2Proof.Machine.execMsm1Gps payload s
  | .msm2Gps payload => Sys2Proof.Machine.execMsm2Gps payload s
  | .msm3Gps payload => Sys2Proof.Machine.execMsm3Gps payload s
  | .msm4Gps payload => Sys2Proof.Machine.execMsm4Gps payload s
  | .msm5Gps payload => Sys2Proof.Machine.execMsm5Gps payload s
  | .msm6Gps payload => Sys2Proof.Machine.execMsm6Gps payload s
  | .msm7Gps payload => Sys2Proof.Machine.execMsm7Gps payload s
  | .msm1Glo payload => Sys2Proof.Machine.execMsm1Glo payload s
  | .msm2Glo payload => Sys2Proof.Machine.execMsm2Glo payload s
  | .msm3Glo payload => Sys2Proof.Machine.execMsm3Glo payload s
  | .msm4Glo payload => Sys2Proof.Machine.execMsm4Glo payload s
  | .msm5Glo payload => Sys2Proof.Machine.execMsm5Glo payload s
  | .msm6Glo payload => Sys2Proof.Machine.execMsm6Glo payload s
  | .msm7Glo payload => Sys2Proof.Machine.execMsm7Glo payload s
  | .msm1Gal payload => Sys2Proof.Machine.execMsm1Gal payload s
  | .msm2Gal payload => Sys2Proof.Machine.execMsm2Gal payload s
  | .msm3Gal payload => Sys2Proof.Machine.execMsm3Gal payload s
  | .msm4Gal payload => Sys2Proof.Machine.execMsm4Gal payload s
  | .msm5Gal payload => Sys2Proof.Machine.execMsm5Gal payload s
  | .msm6Gal payload => Sys2Proof.Machine.execMsm6Gal payload s
  | .msm7Gal payload => Sys2Proof.Machine.execMsm7Gal payload s
  | .msm1Bds payload => Sys2Proof.Machine.execMsm1Bds payload s
  | .msm2Bds payload => Sys2Proof.Machine.execMsm2Bds payload s
  | .msm3Bds payload => Sys2Proof.Machine.execMsm3Bds payload s
  | .msm4Bds payload => Sys2Proof.Machine.execMsm4Bds payload s
  | .msm5Bds payload => Sys2Proof.Machine.execMsm5Bds payload s
  | .msm6Bds payload => Sys2Proof.Machine.execMsm6Bds payload s
  | .msm7Bds payload => Sys2Proof.Machine.execMsm7Bds payload s
  | .unsupported payload => Sys2Proof.Machine.execUnsupported payload s
  | .runt payload crcValid => Sys2Proof.Machine.execRunt payload crcValid s

end Sys2Proof.Machine
end

