-- ==== Sys2Proof/Machine/Step.lean ====
section
/-! DEFINITION. One step: the block runs the next word the host has issued. -/

namespace Sys2Proof.Machine

/-- One step. With nothing issued the block is idle and keeps its state: it acts only when an operation is issued
(60_exceptions.md R299, log entry 2). Otherwise the next word leaves the queue, is decoded and run as one atomic
transition (00_scope.md R6), under the block's parameters (R8); a word that is no instruction is refused by name. -/
def step (s : State) : Host.Outcome State Fault Refusal :=
  match s.issued with
  | [] => .next s
  | w :: rest =>
    match decode s.params w with
    | .error why => .refused (.undecodable why)
    | .ok i => exec i { s with issued := rest }

/-- `s` with the instruction of a table word issued next (log entry 8). -/
def State.withFetchWord (s : State) (nbits w : Nat) : State := { s with issued := tableWord nbits w :: s.issued }

end Sys2Proof.Machine
end

