-- ==== Sys2Proof/WellFormed.lean ====
section
/-! DEFINITION. Which instruction terms are instructions of the block, and which parameters are parameters of a block:
the constraints the spec states. -/

namespace Sys2Proof

/-- A RawFrame is a whole frame and the payload inside it (10_state.md R28): preamble, `3 + L + 3` bytes, payload
`rawBytes[3..3+L)`. -/
def RawFrame.wellFormed (f : RawFrame) : Bool :=
  let len := headerLength (f.rawBytes.getD 1 0) (f.rawBytes.getD 2 0)
  f.rawBytes.getD 0 0 == preamble && f.rawBytes.length == len + 6 && f.payload == (f.rawBytes.drop 3).take len

/-- The payload begins with message number `n` (30_encoding.md R85), which has a decoder (00_scope.md R8). -/
def numbered (P : Params) (n : Nat) (p : Bytes) : Bool :=
  decide (2 ≤ p.length) && msgnum p == n && isRegistered P n

/-- The operand constraints under the parameters `P`: a frame's length field holds its payload's length
(30_encoding.md R80), a routed frame is a RawFrame (10_state.md R28), a message's payload begins with its number, which
is registered (30_encoding.md R89), an unsupported one has a number that is not (R91), a runt has fewer than 12 bits
(R92). Every other operand may have any value; a read width
outside 1..64 is an instruction that raises (40_bitreader.md R128). -/
def Instr.wellFormed (P : Params) : Instr → Bool
  | .brLoad _ => true
  | .brRdu _ => true
  | .brRds _ => true
  | .brRem => true
  | .crcCalc _ _ _ => true
  | .fsReset => true
  | .fsPush _ => true
  | .decDecode _ _ => true
  | .muxRoute f => f.wellFormed
  | .frame _ p _ => decide (p.length ≤ 1023)
  | .gpsL1Obs p => numbered P 1001 p
  | .gpsL1ObsExt p => numbered P 1002 p
  | .gpsL1L2Obs p => numbered P 1003 p
  | .gpsL1L2ObsExt p => numbered P 1004 p
  | .stationArp p => numbered P 1005 p
  | .stationArpHgt p => numbered P 1006 p
  | .antDesc p => numbered P 1007 p
  | .antDescSerial p => numbered P 1008 p
  | .gloL1Obs p => numbered P 1009 p
  | .gloL1ObsExt p => numbered P 1010 p
  | .gloL1L2Obs p => numbered P 1011 p
  | .gloL1L2ObsExt p => numbered P 1012 p
  | .gloBias p => numbered P 1230 p
  | .msm1Gps p => numbered P 1071 p
  | .msm2Gps p => numbered P 1072 p
  | .msm3Gps p => numbered P 1073 p
  | .msm4Gps p => numbered P 1074 p
  | .msm5Gps p => numbered P 1075 p
  | .msm6Gps p => numbered P 1076 p
  | .msm7Gps p => numbered P 1077 p
  | .msm1Glo p => numbered P 1081 p
  | .msm2Glo p => numbered P 1082 p
  | .msm3Glo p => numbered P 1083 p
  | .msm4Glo p => numbered P 1084 p
  | .msm5Glo p => numbered P 1085 p
  | .msm6Glo p => numbered P 1086 p
  | .msm7Glo p => numbered P 1087 p
  | .msm1Gal p => numbered P 1091 p
  | .msm2Gal p => numbered P 1092 p
  | .msm3Gal p => numbered P 1093 p
  | .msm4Gal p => numbered P 1094 p
  | .msm5Gal p => numbered P 1095 p
  | .msm6Gal p => numbered P 1096 p
  | .msm7Gal p => numbered P 1097 p
  | .msm1Bds p => numbered P 1121 p
  | .msm2Bds p => numbered P 1122 p
  | .msm3Bds p => numbered P 1123 p
  | .msm4Bds p => numbered P 1124 p
  | .msm5Bds p => numbered P 1125 p
  | .msm6Bds p => numbered P 1126 p
  | .msm7Bds p => numbered P 1127 p
  | .unsupported p => decide (2 ≤ p.length) && !isRegistered P (msgnum p)
  | .runt p _ => decide (p.length < 2)

/-! ### Parameters (00_scope.md R8) -/

/-- What a decoder can read: a boolean is one bit (30_encoding.md R86), every other read has 1 to 64
(40_bitreader.md R121), and a string's count is recorded under the string's name with the suffix `Length`
(30_encoding.md R88). -/
def FieldSpec.wellFormed : FieldSpec → Bool
  | .num .b _ width => width == 1
  | .num _ _ width => decide (1 ≤ width ∧ width ≤ 64)
  | .skip width => decide (1 ≤ width ∧ width ≤ 64)
  | .str lenKey key => lenKey.name == key.name ++ "Length"

/-- No two of the names are spelled alike (10_state.md R30). -/
def distinct (keys : List Key) : Bool := decide (keys.map Key.name).Nodup

/-- A row's fields have fixed widths: a repeating block sums them (43_mux_fixed.md R185). -/
def FieldSpec.fixedWidth : FieldSpec → Bool
  | .str _ _ => false
  | _ => true

/-- The fields and the names `extra` have distinct names (10_state.md R30), none of them a name that every record or
the fallback and the runt use (43_mux_fixed.md R182, R186, R187). -/
def namesDistinct (layout : List FieldSpec) (extra : List Key) : Bool :=
  distinct (Machine.layoutKeys layout ++ extra ++ [.truncated, .bitsRemaining, .unsupported, .rawPayloadHex, .runt])

/-- The layout has an unsigned field of that name. -/
def hasCount (key : Key) (layout : List FieldSpec) : Bool :=
  layout.any fun f => match f with
    | .num .u k _ => k == key
    | _ => false

/-- A decoder of `REGISTERED` with its part of `LAYOUT` (43_mux_fixed.md R188 to R200). -/
def Decoder.wellFormed : Decoder → Bool
  | .fixed layout => layout.all FieldSpec.wellFormed && namesDistinct layout []
  | .bias header mask biases =>
    header.all FieldSpec.wellFormed && namesDistinct header (Machine.layoutKeys (biases.map Prod.snd)) &&
      hasCount mask header && biases.all fun b => b.2.wellFormed
  | .legacyObs header count rows row =>
    header.all FieldSpec.wellFormed && namesDistinct header [rows] && hasCount count header &&
      row.all FieldSpec.wellFormed && row.all FieldSpec.fixedWidth && distinct (Machine.layoutKeys row)
  | .msm => true

/-- One width for each `msmType` 1 to 7, 0 for none; a boolean has at most one bit (30_encoding.md R101). -/
def MsmField.wellFormed (f : MsmField) : Bool :=
  f.widths.length == 7 && f.widths.all fun w => decide (w ≤ if f.kind = .b then 1 else 64)

/-- The MSM part of `LAYOUT` (30_encoding.md R100, R101); the rows' own identifiers are no field names
(44_msm.md R237). -/
def MsmLayout.wellFormed (L : MsmLayout) : Bool :=
  L.header.all FieldSpec.wellFormed &&
    namesDistinct L.header [.msmType, .satelliteIds, .signalIds, .activeCells, .satellites, .cells] &&
    L.satellite.all MsmField.wellFormed && distinct (.satelliteId :: L.satellite.map MsmField.key) &&
    L.cell.all MsmField.wellFormed && distinct (.satelliteId :: .signalId :: L.cell.map MsmField.key)

/-- The parameters of a block: a finite set of 12-bit numbers, each with a decoder (92_eei_decisions.md, summary of the
open parameters), and layouts that the decoders can read. -/
def Params.wellFormed (P : Params) : Bool :=
  decide (P.registered.map Prod.fst).Nodup && P.registered.all (fun e => decide (e.1 < 4096) && e.2.wellFormed) &&
    P.msm.wellFormed

end Sys2Proof
end

