-- ==== Sys2Proof/Safety.lean ====
section
/-! DEFINITION. What the claims call a good state and a completed operation. -/

namespace Sys2Proof.Machine

/-- What `FS.acc` is between two operations (42_framesync.md R171): empty; or one or two bytes that begin with the
preamble; or a preamble and a header whose frame is not complete. -/
abbrev FsInv (acc : Bytes) : Prop :=
  acc = [] ∨
  (1 ≤ acc.length ∧ acc.length ≤ 2 ∧ acc.getD 0 0 = preamble) ∨
  (3 ≤ acc.length ∧ acc.getD 0 0 = preamble ∧
    acc.length < headerLength (acc.getD 1 0) (acc.getD 2 0) + 6 ∧
    headerLength (acc.getD 1 0) (acc.getD 2 0) + 6 ≤ 1029)

/-- The block's invariant between operations: the accumulator's, and the cursor within the buffer
(10_state.md R20, R21, R23). -/
abbrev Inv (s : State) : Prop := FsInv s.fsAcc ∧ s.br.pos ≤ 8 * s.br.buf.length

/-- The operation completes: it answers a next state whose reply is `ok` (00_scope.md R15). -/
def Completes (i : Instr) (s : State) : Prop :=
  ∃ t out, exec i s = .next t ∧ t.reply = some (.ok out)

end Sys2Proof.Machine
end

