-- ==== Sys2Proof/Certificates/Slice0/Reference.lean ====
section
/-! DEFINITION. The rules of spec/ written a second time, for the statements: sums over stream bits, the serial shift
register, the synchronizer's steps as a relation, and the place of every field in a payload. None of it is used by the
machine. -/

namespace Sys2Proof.Reference

open Sys2Proof.Machine

/-! ### Bits and bytes -/

/-- The exact unsigned integer of `n` stream bits from `k` (40_bitreader.md R124). -/
def bitSum (B : Bytes) (k n : Nat) : Nat := ∑ i ∈ Finset.range n, (sbit B (k + i)).toNat * 2 ^ (n - 1 - i)

/-- The two's-complement reading of an `n`-bit value (30_encoding.md R87). -/
def signed (n v : Nat) : Int := if 2 ^ (n - 1) ≤ v then (v : Int) - 2 ^ n else v

/-- `B` with stream bit `k` inverted (00_scope.md R12). -/
def flipBit (B : Bytes) (k : Nat) : Bytes := B.modify (k / 8) (· ^^^ BitVec.ofNat 8 (2 ^ (7 - k % 8)))

/-- The sixteen hexadecimal digits in ASCII, `0`-`9` and upper-case `A`-`F` (43_mux_fixed.md R187). -/
def hexDigits : Bytes :=
  [0x30, 0x31, 0x32, 0x33, 0x34, 0x35, 0x36, 0x37, 0x38, 0x39, 0x41, 0x42, 0x43, 0x44, 0x45, 0x46]

/-- `Hex(p)` (43_mux_fixed.md R187). -/
def hexOf (p : Bytes) : Bytes :=
  (p.map fun b => [hexDigits.getD (b.toNat / 16) 0, hexDigits.getD (b.toNat % 16) 0]).flatten

/-- The frame `FRAME(P)`: reserved bits zero, the computed CRC appended (30_encoding.md R105, R106). -/
def computedFrame (P : Bytes) : Bytes :=
  let head : Bytes := [0xD3, BitVec.ofNat 8 (P.length / 256), BitVec.ofNat 8 P.length] ++ P
  let crc := (crcOf head).toNat
  head ++ [BitVec.ofNat 8 (crc / 65536), BitVec.ofNat 8 (crc / 256), BitVec.ofNat 8 crc]

/-- `n` single-bit reads in a row, their bits put together first bit most significant (40_bitreader.md R126). -/
def singleReads : Nat → State → Option (Nat × State)
  | 0, s => some (0, s)
  | n + 1, s =>
    match singleReads n s with
    | none => none
    | some (v, t) =>
      match exec (.brRdu 1) t with
      | .next u =>
        match u.reply with
        | some (.ok (.nat b)) => some (2 * v + b, u)
        | _ => none
      | _ => none

/-! ### The CRC as a shift register (41_crc24q.md R145) -/

/-- One data bit. -/
def serialBit (a : Crc) (d : Bool) : Crc :=
  if (a.getLsbD 23) ^^ d then (a <<< 1) ^^^ 0x864CFB else a <<< 1

/-- One byte, value bit 7 down to bit 0. -/
def serialByte (a : Crc) (b : Byte) : Crc := [7, 6, 5, 4, 3, 2, 1, 0].foldl (fun a i => serialBit a (b.getLsbD i)) a

/-- A buffer, from `a = 0`. -/
def serialCrc (bs : Bytes) : Crc := bs.foldl serialByte 0

/-! ### The synchronizer's steps as a relation (42_framesync.md R161 to R169) -/

/-- `Scan acc out left`: the loop on accumulator `acc` emits `out` and leaves `left`. -/
inductive Scan : Bytes → List RawFrame → Bytes → Prop where
  /-- Step 2: no preamble, everything is dropped. -/
  | discard (acc : Bytes) (h : ∀ b ∈ acc, b ≠ 0xD3) : Scan acc [] []
  /-- Step 4: fewer than three bytes from the first preamble on. -/
  | waitHeader (pre acc : Bytes) (hpre : ∀ b ∈ pre, b ≠ 0xD3) (hacc : acc.head? = some 0xD3) (h : acc.length < 3) :
      Scan (pre ++ acc) [] acc
  /-- Step 6: fewer than `L + 6` bytes from the first preamble on. -/
  | waitFrame (pre : Bytes) (b1 b2 : Byte) (tail : Bytes) (hpre : ∀ b ∈ pre, b ≠ 0xD3)
      (h : tail.length < b1.toNat % 4 * 256 + b2.toNat + 3) :
      Scan (pre ++ 0xD3 :: b1 :: b2 :: tail) [] (0xD3 :: b1 :: b2 :: tail)
  /-- Step 7: the whole frame is removed, checked and emitted; step 8 goes on with the rest. -/
  | emit (pre : Bytes) (b1 b2 : Byte) (payload : Bytes) (t0 t1 t2 : Byte) (rest : Bytes) (out : List RawFrame)
      (left : Bytes) (hpre : ∀ b ∈ pre, b ≠ 0xD3) (hlen : payload.length = b1.toNat % 4 * 256 + b2.toNat)
      (hrest : Scan rest out left) :
      Scan (pre ++ 0xD3 :: b1 :: b2 :: (payload ++ t0 :: t1 :: t2 :: rest))
        (⟨0xD3 :: b1 :: b2 :: (payload ++ [t0, t1, t2]), payload,
          decide ((crcOf (0xD3 :: b1 :: b2 :: payload)).toNat = t0.toNat * 65536 + t1.toNat * 256 + t2.toNat)⟩ :: out)
        left

/-! ### Fields at their places -/

/-- A field, the stream bit it starts at, its width. -/
structure Placed where
  key   : Key
  kind  : NumKind
  start : Nat
  width : Nat

/-- The value of `width` stream bits from `start` under a field kind (30_encoding.md R86). -/
def numAt (kind : NumKind) (p : Bytes) (start width : Nat) : Scalar :=
  match kind with
  | .u => .uint (bitSum p start width)
  | .s => .sint (signed width (bitSum p start width))
  | .b => .bool (sbit p start)

/-- Fields packed one after the other from `start` (20_memory.md R57). -/
def place (start : Nat) : List (Key × NumKind × Nat) → List Placed
  | [] => []
  | (key, kind, width) :: fs => ⟨key, kind, start, width⟩ :: place (start + width) fs

/-- The bits of packed fields. -/
def bitsOf (fs : List (Key × NumKind × Nat)) : Nat := (fs.map fun f => f.2.2).sum

/-- A whole row that starts at stream bit `base`. -/
def rowAt (p : Bytes) (base : Nat) (fs : List Placed) : Row :=
  fs.map fun f => (f.key, numAt f.kind p (base + f.start) f.width)

/-- Fields at fixed places, absent where they do not fit in the payload (43_mux_fixed.md R184). -/
def fittingRow (p : Bytes) (fs : List Placed) : Row :=
  fs.map fun f => (f.key, if f.start + f.width ≤ 8 * p.length then numAt f.kind p f.start f.width else .absent)

/-- The last of the marks that lies within `size` bits: where reading stops (43_mux_fixed.md R184, R186). -/
def lastFit (size : Nat) (marks : List Nat) : Nat := (marks.filter fun m => m ≤ size).foldl max 0

/-- A row as part of a fields mapping. -/
def scalars (row : Row) : Fields := row.map fun f => (f.1, .scalar f.2)

/-- The last two fields of every registered decoder's record (43_mux_fixed.md R186). -/
def ending (truncated : Bool) (remaining : Nat) : Fields :=
  [(.truncated, .scalar (.bool truncated)), (.bitsRemaining, .scalar (.uint remaining))]

/-- The state after an operation that returns `out` and changes nothing else. -/
def returned (out : Output) (s : State) : State := { s with reply := some (.ok out) }

/-! ### Station coordinates (30_encoding.md R93) -/

/-- The fields of `F1005` at their stream bits. -/
def stationFields : List Placed :=
  [⟨.stationId, .u, 12, 12⟩, ⟨.itrfYear, .u, 24, 6⟩, ⟨.gpsIndicator, .b, 30, 1⟩, ⟨.glonassIndicator, .b, 31, 1⟩,
   ⟨.galileoIndicator, .b, 32, 1⟩, ⟨.referenceStationIndicator, .b, 33, 1⟩, ⟨.ecefX, .s, 34, 38⟩,
   ⟨.singleReceiverOscillator, .b, 72, 1⟩, ⟨.ecefY, .s, 74, 38⟩, ⟨.quarterCycleIndicator, .u, 112, 2⟩,
   ⟨.ecefZ, .s, 114, 38⟩]

/-- The ends of the items of `F1005`, the reserved bit 73 among them. -/
def stationMarks : List Nat := [0, 12, 24, 30, 31, 32, 33, 34, 72, 73, 74, 112, 114, 152]

/-- The field of `F1006` that `F1005` lacks. -/
def heightField : Placed := ⟨.antennaHeight, .u, 152, 16⟩

/-! ### GLONASS biases (43_mux_fixed.md R192) -/

/-- The biases of a mask in stream order, two big-endian bytes for each set bit; after a shortfall the rest is absent.
The result is the row, the bytes not read, and whether it was truncated. -/
def biasRow : List (Bool × Key) → Bytes → Row × Bytes × Bool
  | [], rest => ([], rest, false)
  | (false, key) :: more, rest =>
    let tail := biasRow more rest
    ((key, .absent) :: tail.1, tail.2.1, tail.2.2)
  | (true, key) :: more, hi :: lo :: rest =>
    let tail := biasRow more rest
    ((key, .sint (signed 16 (hi.toNat * 256 + lo.toNat))) :: tail.1, tail.2.1, tail.2.2)
  | (true, key) :: more, rest => ((key, .absent) :: more.map (fun m => (m.2, .absent)), rest, true)

/-! ### Legacy observables (30_encoding.md R96 to R99) -/

/-- `GL1`. -/
def gl1Fields : List (Key × NumKind × Nat) :=
  [(.satelliteId, .u, 6), (.l1CodeIndicator, .b, 1), (.l1Pseudorange, .u, 24), (.l1PhaseRangeMinusPseudorange, .s, 20),
   (.l1LockTimeIndicator, .u, 7)]
/-- `GL1X`. -/
def gl1xFields : List (Key × NumKind × Nat) := [(.l1PseudorangeAmbiguity, .u, 8), (.l1Cnr, .u, 8)]
/-- `RL1`. -/
def rl1Fields : List (Key × NumKind × Nat) :=
  [(.satelliteId, .u, 6), (.l1CodeIndicator, .b, 1), (.frequencyChannelNumber, .u, 5), (.l1Pseudorange, .u, 25),
   (.l1PhaseRangeMinusPseudorange, .s, 20), (.l1LockTimeIndicator, .u, 7)]
/-- `RL1X`. -/
def rl1xFields : List (Key × NumKind × Nat) := [(.l1PseudorangeAmbiguity, .u, 7), (.l1Cnr, .u, 8)]
/-- `L2`. -/
def l2Fields : List (Key × NumKind × Nat) :=
  [(.l2CodeIndicator, .u, 2), (.l2MinusL1Pseudorange, .s, 14), (.l2PhaseRangeMinusL1Pseudorange, .s, 20),
   (.l2LockTimeIndicator, .u, 7)]
/-- `L2X`. -/
def l2xFields : List (Key × NumKind × Nat) := [(.l2Cnr, .u, 8)]

/-- The header `HGPS` (`epoch = 30`) or `HGLO` (`epoch = 27`) at its stream bits. -/
def obsHeader (epoch : Nat) : List Placed :=
  [⟨.stationId, .u, 12, 12⟩, ⟨.epochTime, .u, 24, epoch⟩, ⟨.synchronousGnssFlag, .b, 24 + epoch, 1⟩,
   ⟨.satelliteCount, .u, 25 + epoch, 5⟩, ⟨.smoothingIndicator, .b, 30 + epoch, 1⟩,
   ⟨.smoothingInterval, .u, 31 + epoch, 3⟩]

/-- The ends of the header's items; the last is the header's length, 64 or 61 bits. -/
def obsMarks (epoch : Nat) : List Nat := [0, 12, 24, 24 + epoch, 25 + epoch, 30 + epoch, 31 + epoch, 34 + epoch]

/-- The eight legacy messages: number, instruction, width of the epoch, fields of a row, bits of a row. -/
def obsTable : List (Nat × (Bytes → Instr) × Nat × List (Key × NumKind × Nat) × Nat) :=
  [(1001, .gpsL1Obs, 30, gl1Fields, 58), (1002, .gpsL1ObsExt, 30, gl1Fields ++ gl1xFields, 74),
   (1003, .gpsL1L2Obs, 30, gl1Fields ++ l2Fields, 101),
   (1004, .gpsL1L2ObsExt, 30, gl1Fields ++ gl1xFields ++ l2Fields ++ l2xFields, 125),
   (1009, .gloL1Obs, 27, rl1Fields, 64), (1010, .gloL1ObsExt, 27, rl1Fields ++ rl1xFields, 79),
   (1011, .gloL1L2Obs, 27, rl1Fields ++ l2Fields, 107),
   (1012, .gloL1L2ObsExt, 27, rl1Fields ++ rl1xFields ++ l2Fields ++ l2xFields, 130)]

/-- The record of a legacy message: `satelliteCount` rows of `W` bits are due after the header, as many are kept as fit
whole (43_mux_fixed.md section 7, R185). -/
def obsRecord (epoch : Nat) (fs : List (Key × NumKind × Nat)) (W : Nat) (p : Bytes) : Fields :=
  let size := 8 * p.length
  let head := 34 + epoch
  let count := if size < head then 0 else bitSum p (25 + epoch) 5
  let kept := min count ((size - head) / W)
  scalars (fittingRow p (obsHeader epoch)) ++
    [(.satellites, .list ((List.range kept).map fun i => rowAt p (head + i * W) (place 0 fs)))] ++
    ending (decide (size < head + count * W)) (size - (lastFit size (obsMarks epoch) + kept * W))

/-! ### Multi-signal messages (44_msm.md) -/

/-- The common header at its stream bits (30_encoding.md R100). -/
def msmHeader : List Placed :=
  [⟨.stationId, .u, 12, 12⟩, ⟨.epochTime, .u, 24, 30⟩, ⟨.multipleMessage, .b, 54, 1⟩, ⟨.iods, .u, 55, 3⟩,
   ⟨.clockSteering, .u, 65, 2⟩, ⟨.externalClock, .u, 67, 2⟩, ⟨.smoothingIndicator, .b, 69, 1⟩,
   ⟨.smoothingInterval, .u, 70, 3⟩]

/-- The ends of the header's items. -/
def msmMarks : List Nat := [0, 12, 24, 54, 55, 58, 65, 67, 69, 70, 73]

/-- The keys of a satellite row after its identifier (44_msm.md R235). -/
def satKeys : List Key := [.roughRangeMs, .extendedInfo, .roughRangeModulo, .roughPhaseRangeRate]

/-- The keys of a cell row after its identifiers (44_msm.md R235). -/
def cellKeys : List Key :=
  [.finePseudorange, .finePhaseRange, .lockTimeIndicator, .halfCycleAmbiguity, .cnr, .finePhaseRangeRate]

/-- The satellite fields present for `msmType = k` (44_msm.md R250 to R256). -/
def satFields : Nat → List (Key × NumKind × Nat)
  | 1 => [(.roughRangeModulo, .u, 10)]
  | 2 => [(.roughRangeModulo, .u, 10)]
  | 3 => [(.roughRangeModulo, .u, 10)]
  | 4 => [(.roughRangeMs, .u, 8), (.roughRangeModulo, .u, 10)]
  | 5 => [(.roughRangeMs, .u, 8), (.extendedInfo, .u, 4), (.roughRangeModulo, .u, 10), (.roughPhaseRangeRate, .s, 14)]
  | 6 => [(.roughRangeMs, .u, 8), (.roughRangeModulo, .u, 10)]
  | 7 => [(.roughRangeMs, .u, 8), (.extendedInfo, .u, 4), (.roughRangeModulo, .u, 10), (.roughPhaseRangeRate, .s, 14)]
  | _ => []

/-- The cell fields present for `msmType = k` (44_msm.md R250 to R256). -/
def cellFields : Nat → List (Key × NumKind × Nat)
  | 1 => [(.finePseudorange, .s, 15)]
  | 2 => [(.finePhaseRange, .s, 22), (.lockTimeIndicator, .u, 4), (.halfCycleAmbiguity, .b, 1)]
  | 3 => [(.finePseudorange, .s, 15), (.finePhaseRange, .s, 22), (.lockTimeIndicator, .u, 4),
      (.halfCycleAmbiguity, .b, 1)]
  | 4 => [(.finePseudorange, .s, 15), (.finePhaseRange, .s, 22), (.lockTimeIndicator, .u, 4),
      (.halfCycleAmbiguity, .b, 1), (.cnr, .u, 6)]
  | 5 => [(.finePseudorange, .s, 15), (.finePhaseRange, .s, 22), (.lockTimeIndicator, .u, 4),
      (.halfCycleAmbiguity, .b, 1), (.cnr, .u, 6), (.finePhaseRangeRate, .s, 15)]
  | 6 => [(.finePseudorange, .s, 20), (.finePhaseRange, .s, 24), (.lockTimeIndicator, .u, 10),
      (.halfCycleAmbiguity, .b, 1), (.cnr, .u, 10)]
  | 7 => [(.finePseudorange, .s, 20), (.finePhaseRange, .s, 24), (.lockTimeIndicator, .u, 10),
      (.halfCycleAmbiguity, .b, 1), (.cnr, .u, 10), (.finePhaseRangeRate, .s, 15)]
  | _ => []

/-- The satellite identifiers: mask bit `i`, counted from 1, is stream bit `72 + i` (44_msm.md R232). -/
def satIds (p : Bytes) : List Nat := (List.range' 1 64).filter fun i => sbit p (72 + i)

/-- The signal identifiers: mask bit `j`, counted from 1, is stream bit `136 + j` (44_msm.md R233). -/
def sigIds (p : Bytes) : List Nat := (List.range' 1 32).filter fun j => sbit p (136 + j)

/-- The active cells: the pair of positions `(a, b)` has mask bit `a * Nsig + b`, which is stream bit
`169 + a * Nsig + b` (44_msm.md R234). -/
def activeCells (p : Bytes) : List (Nat × Nat) :=
  ((satIds p).mapIdx fun a s =>
    (((sigIds p).mapIdx fun b g => (b, g)).filter fun c => sbit p (169 + a * (sigIds p).length + c.1)).map
      fun c => (s, c.2)).flatten

/-- Where the data begins: after header, masks and `Nsat * Nsig` cell mask bits (30_encoding.md R100). -/
def dataStart (p : Bytes) : Nat := 169 + (satIds p).length * (sigIds p).length

/-- The bits of a complete message of type `k` (44_msm.md R243). -/
def msmTotal (k : Nat) (p : Bytes) : Nat :=
  dataStart p + (satIds p).length * bitsOf (satFields k) + (activeCells p).length * bitsOf (cellFields k)

/-- The values of a row with all its keys, each at the place `at` gives its field, absent where the field does not
exist (44_msm.md R237, R239). -/
def keyedRow (p : Bytes) (keys : List Key) (fs : List Placed) (place : Placed → Nat) : Row :=
  keys.map fun key =>
    (key, match fs.find? (fun f => f.key == key) with
      | some f => numAt f.kind p (place f) f.width
      | none => .absent)

/-- A satellite row of type `k` whose fields lie where `place` says. -/
def satRow (k : Nat) (p : Bytes) (place' : Placed → Nat) (s : Nat) : Row :=
  (.satelliteId, .uint s) :: keyedRow p satKeys (place 0 (satFields k)) place'

/-- A cell row of type `k` whose fields lie where `place` says. -/
def cellRow (k : Nat) (p : Bytes) (place' : Placed → Nat) (c : Nat × Nat) : Row :=
  (.satelliteId, .uint c.1) :: (.signalId, .uint c.2) :: keyedRow p cellKeys (place 0 (cellFields k)) place'

/-- The keys of an MSM record up to `activeCells`, with the masks that were read (44_msm.md R241). -/
def msmHead (k : Nat) (p : Bytes) : Fields :=
  (.msmType, .scalar (.uint k)) :: scalars (fittingRow p msmHeader) ++
    [(.satelliteIds, if 8 * p.length < 137 then .scalar .absent else .ulist (satIds p)),
     (.signalIds, if 8 * p.length < 169 then .scalar .absent else .ulist (sigIds p)),
     (.activeCells, if 8 * p.length < 169 ∨ 8 * p.length < dataStart p then .scalar .absent
        else .list ((activeCells p).map fun c => [(.satelliteId, .uint c.1), (.signalId, .uint c.2)]))]

/-- The record of an MSM of type `k` in row-major order, for every payload (44_msm.md R236, R240, R243): the rows that
fit whole are kept. -/
def msmRowMajor (k : Nat) (p : Bytes) : Fields :=
  let size := 8 * p.length
  let start := dataStart p
  let sw := bitsOf (satFields k)
  let cw := bitsOf (cellFields k)
  let sats := if size < 169 then 0 else min (satIds p).length ((size - start) / sw)
  let cellStart := start + (satIds p).length * sw
  let cells := if size < 169 ∨ size < cellStart then 0 else min (activeCells p).length ((size - cellStart) / cw)
  let read :=
    if size < 73 then lastFit size msmMarks
    else if size < 137 then 73
    else if size < 169 then 137
    else if size < start then 169
    else start + sats * sw + cells * cw
  msmHead k p ++
    [(.satellites, .list (((satIds p).take sats).mapIdx fun a s => satRow k p (fun f => start + a * sw + f.start) s)),
     (.cells, .list (((activeCells p).take cells).mapIdx fun j c =>
        cellRow k p (fun f => cellStart + j * cw + f.start) c))] ++
    ending (decide (size < 169 ∨ size < msmTotal k p)) (size - read)

/-- A row with all its keys where the single value is the atom: each value at the place `at'` gives its field, absent
where the field does not exist or the value does not fit in the payload (44_msm.md R238, R239). -/
def fittingKeyedRow (p : Bytes) (keys : List Key) (fs : List Placed) (at' : Placed → Nat) : Row :=
  keys.map fun key =>
    (key, match fs.find? (fun f => f.key == key) with
      | some f => if at' f + f.width ≤ 8 * p.length then numAt f.kind p (at' f) f.width else .absent
      | none => .absent)

/-- The ends of the values of a field-major block of `count` rows that starts at stream bit `base`: all values of a
field, then all values of the next (44_msm.md R238). -/
def valueEnds (base count : Nat) (fs : List Placed) : List Nat :=
  fs.flatMap fun f => (List.range count).map fun a => base + count * f.start + (a + 1) * f.width

/-- The ends of the items before the data: the header's, the two masks and the cell mask. -/
def headMarks (p : Bytes) : List Nat := msmMarks ++ [137, 169, dataStart p]

/-- The record of an MSM of type `k` in field-major order, for every payload (44_msm.md R238, R240): all values of a
field, then all values of the next. Once the cell mask was read both lists have their full length; a value that does
not fit is absent, and `bitsRemaining` counts from the last value read. -/
def msmFieldMajor (k : Nat) (p : Bytes) : Fields :=
  let size := 8 * p.length
  let start := dataStart p
  let sats := satIds p
  let cells := activeCells p
  let satPlaces := place 0 (satFields k)
  let cellPlaces := place 0 (cellFields k)
  let cellStart := start + sats.length * bitsOf (satFields k)
  msmHead k p ++
    [(.satellites, .list (if size < start then [] else sats.mapIdx fun a s => (.satelliteId, .uint s) ::
        fittingKeyedRow p satKeys satPlaces fun f => start + sats.length * f.start + a * f.width)),
     (.cells, .list (if size < start then [] else cells.mapIdx fun j c => (.satelliteId, .uint c.1) ::
        (.signalId, .uint c.2) ::
          fittingKeyedRow p cellKeys cellPlaces fun f => cellStart + cells.length * f.start + j * f.width))] ++
    ending (decide (size < msmTotal k p)) (size - lastFit size
      (headMarks p ++ valueEnds start sats.length satPlaces ++ valueEnds cellStart cells.length cellPlaces))

/-- The record of a number whose last digit `k` lies outside 1..7, for every payload, in either order (44_msm.md R240,
R242): no data bits, so every row is there once the cell mask was read, with every field absent. -/
def msmNoData (k : Nat) (p : Bytes) : Fields :=
  let size := 8 * p.length
  let start := dataStart p
  msmHead k p ++
    [(.satellites, .list (if size < start then [] else (satIds p).map fun s => satRow k p (fun _ => 0) s)),
     (.cells, .list (if size < start then [] else (activeCells p).map fun c => cellRow k p (fun _ => 0) c))] ++
    ending (decide (size < start)) (size - lastFit size (headMarks p))

/-! ### The open parameters (00_scope.md R8) -/

/-- A block built with the spec's default `REGISTERED` and `LAYOUT` (log entry 4), and either `MSM_ORDER`. -/
def DefaultTables (s : State) : Prop := s.params.registered = registered ∧ s.params.msm = msmLayout

/-- A `LAYOUT` of numeric fields, as the model writes it. -/
def numericLayout (fs : List (Key × NumKind × Nat)) : List FieldSpec := fs.map fun f => .num f.2.1 f.1 f.2.2

/-- Where the fields end. -/
def ends (fs : List Placed) : List Nat := fs.map fun f => f.start + f.width

/-- The number in the first field of that name, 0 where there is none. -/
def countAt (p : Bytes) (fs : List Placed) (key : Key) : Nat :=
  match fs.find? (fun f => f.key == key) with
  | some f => bitSum p f.start f.width
  | none => 0

/-- The record of a fixed layout of numeric fields, for every payload (43_mux_fixed.md R184, R186): the fields lie
packed after the 12 bits of the message number. -/
def numericRecord (fs : List (Key × NumKind × Nat)) (p : Bytes) : Fields :=
  let size := 8 * p.length
  scalars (fittingRow p (place 12 fs)) ++
    ending (decide (size < 12 + bitsOf fs)) (size - lastFit size (12 :: ends (place 12 fs)))

/-- The fields that the set bits of the mask `v` bring, packed from `start`, each with its name; a clear bit brings
none (43_mux_fixed.md R192). -/
def maskedPlaces (v : Nat) : Nat → List (Nat × Key × NumKind × Nat) → List (Key × Option Placed)
  | _, [] => []
  | start, (bit, key, kind, width) :: fs =>
    if v.testBit bit then (key, some ⟨key, kind, start, width⟩) :: maskedPlaces v (start + width) fs
    else (key, none) :: maskedPlaces v start fs

/-- The record of a layout of numeric header fields and of numeric fields under a mask of the header, for every payload
(43_mux_fixed.md R192). -/
def maskedRecord (header : List (Key × NumKind × Nat)) (mask : Key) (fs : List (Nat × Key × NumKind × Nat))
    (p : Bytes) : Fields :=
  let size := 8 * p.length
  let head := 12 + bitsOf header
  let places := maskedPlaces (countAt p (place 12 header) mask) head fs
  let present := places.filterMap Prod.snd
  scalars (fittingRow p (place 12 header) ++ places.map fun e => (e.1, match e.2 with
      | some f => if f.start + f.width ≤ size then numAt f.kind p f.start f.width else .absent
      | none => .absent)) ++
    ending (decide (size < head + (present.map Placed.width).sum))
      (size - lastFit size (12 :: ends (place 12 header) ++ ends present))

/-- The record of a layout of numeric header fields and of rows that a field of the header counts, for every payload
(43_mux_fixed.md R185, section 7): as many rows are kept as fit whole. -/
def countedRecord (header : List (Key × NumKind × Nat)) (count rows : Key) (row : List (Key × NumKind × Nat))
    (p : Bytes) : Fields :=
  let size := 8 * p.length
  let head := 12 + bitsOf header
  let W := bitsOf row
  let due := if size < head then 0 else countAt p (place 12 header) count
  let kept := min due ((size - head) / W)
  scalars (fittingRow p (place 12 header)) ++
    [(rows, .list ((List.range kept).map fun i => rowAt p (head + i * W) (place 0 row)))] ++
    ending (decide (size < head + due * W)) (size - (lastFit size (12 :: ends (place 12 header)) + kept * W))

/-! ### The message numbers (30_encoding.md R89, R90) -/

/-- The 13 fixed-layout numbers. -/
def fixedTable : List (Nat × (Bytes → Instr)) :=
  [(1001, .gpsL1Obs), (1002, .gpsL1ObsExt), (1003, .gpsL1L2Obs), (1004, .gpsL1L2ObsExt), (1005, .stationArp),
   (1006, .stationArpHgt), (1007, .antDesc), (1008, .antDescSerial), (1009, .gloL1Obs), (1010, .gloL1ObsExt),
   (1011, .gloL1L2Obs), (1012, .gloL1L2ObsExt), (1230, .gloBias)]

/-- The 28 MSM numbers. -/
def msmTable : List (Nat × (Bytes → Instr)) :=
  [(1071, .msm1Gps), (1072, .msm2Gps), (1073, .msm3Gps), (1074, .msm4Gps), (1075, .msm5Gps),
   (1076, .msm6Gps), (1077, .msm7Gps), (1081, .msm1Glo), (1082, .msm2Glo), (1083, .msm3Glo),
   (1084, .msm4Glo), (1085, .msm5Glo), (1086, .msm6Glo), (1087, .msm7Glo), (1091, .msm1Gal),
   (1092, .msm2Gal), (1093, .msm3Gal), (1094, .msm4Gal), (1095, .msm5Gal), (1096, .msm6Gal),
   (1097, .msm7Gal), (1121, .msm1Bds), (1122, .msm2Bds), (1123, .msm3Bds), (1124, .msm4Bds),
   (1125, .msm5Bds), (1126, .msm6Bds), (1127, .msm7Bds)]

/-- The 41 registered numbers with their instructions. -/
def messageTable : List (Nat × (Bytes → Instr)) := fixedTable ++ msmTable

/-- The keys of the record of a registered number, in order (43_mux_fixed.md R188 to R192, section 7; 44_msm.md
R241). -/
def recordKeys (n : Nat) : List Key :=
  (if n = 1005 ∨ n = 1006 then
    [.stationId, .itrfYear, .gpsIndicator, .glonassIndicator, .galileoIndicator, .referenceStationIndicator, .ecefX,
     .singleReceiverOscillator, .ecefY, .quarterCycleIndicator, .ecefZ] ++ (if n = 1006 then [.antennaHeight] else [])
  else if n = 1007 ∨ n = 1008 then
    [.stationId, .antennaDescriptorLength, .antennaDescriptor, .antennaSetupId] ++
      (if n = 1008 then [.antennaSerialNumberLength, .antennaSerialNumber] else [])
  else if n = 1230 then
    [.stationId, .codePhaseBiasIndicator, .fdmaSignalsMask, .l1CaCodePhaseBias, .l1PCodePhaseBias, .l2CaCodePhaseBias,
     .l2PCodePhaseBias]
  else if n < 1013 then
    [.stationId, .epochTime, .synchronousGnssFlag, .satelliteCount, .smoothingIndicator, .smoothingInterval, .satellites]
  else
    [.msmType, .stationId, .epochTime, .multipleMessage, .iods, .clockSteering, .externalClock, .smoothingIndicator,
     .smoothingInterval, .satelliteIds, .signalIds, .activeCells, .satellites, .cells]) ++
  [.truncated, .bitsRemaining]

end Sys2Proof.Reference
end

