-- ==== Sys2Proof/Certificates/Slice0/Obligations.lean ====
section
/-! DEFINITION. The statements for the provers. Each docstring names the rule of spec/ it formalises; where a clause
rests on a choice of the model, it names the log entry. -/

open Sys2Proof Sys2Proof.Machine Sys2Proof.Reference

/-! ### Words and the step -/

/-- Under any parameters, decoding the word of a well-formed instruction gives the instruction back, for all 53
constructors and every operand; well-formed is what the parameters make it: a message number is registered, an
unsupported one is not (00_scope.md R8). The operand layout of a port operation is the model's (log entry 1). -/
def Obligations.DecodeInvertsEncode : Prop :=
  ∀ (P : Params) (i : Instr), i.wellFormed P = true → decode P (encode i) = .ok i

/-- A step runs the instruction that the next issued word decodes to under the block's parameters, on the state with
the word taken off the queue, and refuses a word that is none; with nothing issued the block is idle (log entry 2;
00_scope.md R6, 60_exceptions.md R299). -/
def Obligations.StepRunsTheIssuedInstruction : Prop :=
  ∀ s : State,
    (∀ w rest i, s.issued = w :: rest → decode s.params w = .ok i → step s = exec i { s with issued := rest }) ∧
    (∀ w rest why, s.issued = w :: rest → decode s.params w = .error why → step s = .refused (.undecodable why)) ∧
    (s.issued = [] → step s = .next s)

/-- Words written out from the spec's encodings: select codes (30_encoding.md R104; the operand bytes are the model's
choice, log entry 1), a frame whose six reserved bits are all ones (R82), message numbers at the start of a payload
(R85, R89), and a runt (R92). That 3E D7 is STATION_ARP, 43 21 is MSM4_GPS and 3F B1 is unsupported rests on the
default of the parameter `REGISTERED`, which the spec marks as general knowledge: a choice of the model, log entry 4.
-/
def Obligations.TableWordsDecodeToTheirRows : Prop :=
  (∀ P : Params,
    decode P (.op [0x00, 0xA5, 0xC3]) = .ok (.brLoad [0xA5, 0xC3]) ∧
    decode P (.op [0x01, 0x40]) = .ok (.brRdu 64) ∧
    decode P (.op [0x04, 0x02, 0x01, 0xAA, 0xBB, 0xCC]) = .ok (.crcCalc [0xAA, 0xBB, 0xCC] 2 1) ∧
    decode P (.op [0x06, 0xD3]) = .ok (.fsPush [0xD3]) ∧
    decode P (.frame [0xD3, 0xFC, 0x00, 0x32, 0xC2, 0x4F]) = .ok (.frame 63 [] 0x32C24F) ∧
    decode P (.payload true [0x3E]) = .ok (.runt [0x3E] true)) ∧
  decode defaultParams (.payload true [0x3E, 0xD7]) = .ok (.stationArp [0x3E, 0xD7]) ∧
  decode defaultParams (.payload true [0x43, 0x21]) = .ok (.msm4Gps [0x43, 0x21]) ∧
  decode defaultParams (.payload true [0x3F, 0xB1]) = .ok (.unsupported [0x3F, 0xB1])

/-- The first 16 bits of a payload select the instruction by match and mask, `w & 0xFFF0 = N << 4` (30_encoding.md
R85, R89), under any parameters: a registered number of the 41 that have rows selects its row, any other registered
number is given to its decoder by `DEC.DECODE` (the model's choice, log entry 15), and a number that is not registered
is unsupported. By default the registered numbers are the 41, a choice of the model (log entry 4). -/
def Obligations.MessageNumberSelectsTheInstruction : Prop :=
  (∀ (P : Params) (crcValid : Bool) (b0 b1 : Byte) (rest : Bytes),
    msgnum (b0 :: b1 :: rest) = (b0.toNat <<< 4) ||| (b1.toNat >>> 4) ∧
    (∀ e ∈ messageTable, e.1 ∈ P.registered.map Prod.fst →
      ((b0.toNat <<< 8 ||| b1.toNat) &&& 0xFFF0 = e.1 <<< 4 ↔
        decode P (.payload crcValid (b0 :: b1 :: rest)) = .ok (e.2 (b0 :: b1 :: rest)))) ∧
    (∀ n ∈ P.registered.map Prod.fst, (∀ e ∈ messageTable, e.1 ≠ n) →
      (b0.toNat <<< 8 ||| b1.toNat) &&& 0xFFF0 = n <<< 4 →
        decode P (.payload crcValid (b0 :: b1 :: rest)) = .ok (.decDecode (BitVec.ofNat 12 n) (b0 :: b1 :: rest))) ∧
    ((∀ n ∈ P.registered.map Prod.fst, (b0.toNat <<< 8 ||| b1.toNat) &&& 0xFFF0 ≠ n <<< 4) →
      decode P (.payload crcValid (b0 :: b1 :: rest)) = .ok (.unsupported (b0 :: b1 :: rest)))) ∧
  defaultParams.registered.map Prod.fst = messageTable.map Prod.fst

/-- OPSEL 1001 to 1111 is not issuable: the step refuses it by name and runs no other operation (30_encoding.md R104,
93_implementation_defined.md U7; log entry 7). That the code stands in the low four bits of the word's first byte is
the model's choice, log entry 1. -/
def Obligations.UnassignedSelectCodesAreRefused : Prop :=
  ∀ (s : State) (b : Byte) (bs : Bytes) (rest : List InputWord),
    s.issued = .op (b :: bs) :: rest → 9 ≤ b.toNat % 16 →
      step s = .refused (.undecodable (.unassignedOpsel (b.toNat % 16)))

/-- The reset values of a block built with any parameters, and a reader on which `BR.REM` is 0 and every read of 1 to
64 bits raises `E_RANGE` (10_state.md R34; that `BR` is the empty reader is the spec's decision D25); the machine's
reset is that of the block built with the default parameters (00_scope.md R8; they are the model's field `params`, log
entries 4, 5 and 15). The reset values of `issued` and `reply` are not stated: they are the model's own fields. -/
def Obligations.ResetLeavesTheEmptyBlock : Prop :=
  (∀ P : Params, ∃ s : State, s = State.resetWith P ∧
    s.fsAcc = [] ∧ s.br.buf = [] ∧ s.br.pos = 0 ∧ s.params = P ∧
    exec .brRem s = .next { s with reply := some (.ok (.nat 0)) } ∧
    ∀ n, 1 ≤ n → n ≤ 64 →
      exec (.brRdu n) s = .next { s with reply := some (.raised (.eRange n)) } ∧
      exec (.brRds n) s = .next { s with reply := some (.raised (.eRange n)) }) ∧
  State.reset = State.resetWith defaultParams

/-! ### The bit reader -/

/-- `BR.LOAD buf` replaces the buffer and puts the cursor at 0, whatever they were; `BR.REM` is then `8 * |buf|`, and
on an empty buffer every read of 1 to 64 bits raises `E_RANGE` (40_bitreader.md R120). The decode clause, OPSEL 0000
in the low four bits of a byte that may hold anything above them and the buffer after it, is the model's choice of the
word, log entry 1. -/
def Obligations.BrLoadStartsAFreshReader : Prop :=
  ∀ (buf : Bytes) (s : State), ∃ t,
    (∀ (P : Params) (b : Byte), b.toNat % 16 = 0 → decode P (.op (b :: buf)) = .ok (.brLoad buf)) ∧
    exec (.brLoad buf) s = .next t ∧
    t = { s with br := { buf := buf, pos := 0 }, reply := some (.ok .unit) } ∧
    exec .brRem t = .next (returned (.nat (8 * buf.length)) t) ∧
    (buf = [] → ∀ n, 1 ≤ n → n ≤ 64 →
      exec (.brRdu n) t = .next { t with reply := some (.raised (.eRange n)) } ∧
      exec (.brRds n) t = .next { t with reply := some (.raised (.eRange n)) })

/-- The value of `BR.RDU n` is the exact sum over the `n` stream bits from the cursor, below `2^n` and so within 64
bits; the cursor moves by exactly `n` and nothing else changes (40_bitreader.md R121, R124). -/
def Obligations.BrRduReturnsTheExactSum : Prop :=
  ∀ (n : Nat) (s : State), 1 ≤ n → n ≤ 64 → s.br.pos + n ≤ 8 * s.br.buf.length →
    exec (.brRdu n) s =
      .next { s with br := { s.br with pos := s.br.pos + n },
                     reply := some (.ok (.nat (bitSum s.br.buf s.br.pos n))) } ∧
    bitSum s.br.buf s.br.pos n < 2 ^ n ∧ 2 ^ n ≤ 2 ^ 64

/-- `BR.RDS n` reads the same bits and moves the cursor as `BR.RDU n` does; its value is the two's-complement reading
of the unsigned one, and that is its value modulo `2^n` (40_bitreader.md R122, R125; the laws of R125 are the spec's
inference from R121 and R122). -/
def Obligations.BrRdsIsTheTwosComplementReading : Prop :=
  ∀ (n : Nat) (s : State), 1 ≤ n → n ≤ 64 → s.br.pos + n ≤ 8 * s.br.buf.length →
    ∃ (v : Nat) (x : Int),
      exec (.brRdu n) s =
        .next { s with br := { s.br with pos := s.br.pos + n }, reply := some (.ok (.nat v)) } ∧
      exec (.brRds n) s =
        .next { s with br := { s.br with pos := s.br.pos + n }, reply := some (.ok (.int x)) } ∧
      x = (if 2 ^ (n - 1) ≤ v then (v : Int) - 2 ^ n else v) ∧ (v : Int) = x % 2 ^ n

/-- The splitting law: reading `a` bits and then `b` gives `x` and `y` with `x * 2^b + y` the value of one read of `a
+ b` bits, and the same cursor; and `n` single-bit reads reassemble one `n`-bit read (40_bitreader.md R126, the spec's
inference from R124). -/
def Obligations.BrReadsSplit : Prop :=
  (∀ (a b : Nat) (s : State), 1 ≤ a → 1 ≤ b → a + b ≤ 64 → s.br.pos + (a + b) ≤ 8 * s.br.buf.length →
    ∃ (x y v : Nat) (t u w : State),
      exec (.brRdu a) s = .next t ∧ t.reply = some (.ok (.nat x)) ∧
      exec (.brRdu b) t = .next u ∧ u.reply = some (.ok (.nat y)) ∧
      exec (.brRdu (a + b)) s = .next w ∧ w.reply = some (.ok (.nat v)) ∧
      x * 2 ^ b + y = v ∧ u.br = w.br) ∧
  (∀ (n : Nat) (s : State), 1 ≤ n → n ≤ 64 → s.br.pos + n ≤ 8 * s.br.buf.length →
    ∃ (v : Nat) (t w : State),
      singleReads n s = some (v, t) ∧ exec (.brRdu n) s = .next w ∧ w.reply = some (.ok (.nat v)) ∧ t.br = w.br)

/-- A read that fails with `E_RANGE` changes nothing, and a later read with a width that fits succeeds
(40_bitreader.md R127, the spec's decision D5). The premise on the cursor is the block's invariant. -/
def Obligations.BrFailingReadConsumesNothing : Prop :=
  ∀ (n : Nat) (s : State), 1 ≤ n → n ≤ 64 → s.br.pos ≤ 8 * s.br.buf.length →
    8 * s.br.buf.length < s.br.pos + n →
    ∃ t, exec (.brRdu n) s = .next t ∧ exec (.brRds n) s = .next t ∧
      t = { s with reply := some (.raised (.eRange n)) } ∧
      ∀ m, 1 ≤ m → m ≤ 64 → s.br.pos + m ≤ 8 * s.br.buf.length →
        Completes (.brRdu m) t ∧ Completes (.brRds m) t

/-- A width outside 1..64 raises `E_ARG` with the width and changes no state, on any buffer and before the range check
(40_bitreader.md R128, the spec's decision D4; 60_exceptions.md R292). -/
def Obligations.BrWidthOutside1To64Raises : Prop :=
  ∀ (n : Nat) (s : State), n < 1 ∨ 64 < n →
    exec (.brRdu n) s = .next { s with reply := some (.raised (.eArg n)) } ∧
    exec (.brRds n) s = .next { s with reply := some (.raised (.eArg n)) }

/-- `BR.REM` returns the bits from the cursor to the end of the buffer, never raises and changes no state; the premise
on the cursor is the block's invariant (40_bitreader.md R123). The decode clause, OPSEL 0011 in the low four bits of a
byte that may hold anything above them, is the model's choice of the word, log entry 1. -/
def Obligations.BrRemCountsTheUnreadBits : Prop :=
  (∀ (P : Params) (b : Byte), b.toNat % 16 = 3 → decode P (.op [b]) = .ok .brRem) ∧
  ∀ s : State, s.br.pos ≤ 8 * s.br.buf.length →
    ∃ n, exec .brRem s = .next { s with reply := some (.ok (.nat n)) } ∧ s.br.pos + n = 8 * s.br.buf.length

/-- What each instruction does to the port reader: `BR.LOAD` replaces the buffer and puts the cursor at 0; a read of
`n` bits that returns a value moves the cursor by exactly `n`, within the buffer, with `n` in 1 to 64, and one that
raises leaves the reader as it was; every other instruction leaves it as it was (10_state.md R22, R23; that a failing
read changes nothing is the spec's decision D5). -/
def Obligations.BrCursorOnlyAdvances : Prop :=
  ∀ (i : Instr) (s t : State), exec i s = .next t →
    (∀ buf, i = .brLoad buf → t.br = { buf := buf, pos := 0 }) ∧
    (∀ n, i = .brRdu n ∨ i = .brRds n →
      (∃ out, t.reply = some (.ok out) ∧ 1 ≤ n ∧ n ≤ 64 ∧ t.br = { s.br with pos := s.br.pos + n } ∧
        t.br.pos ≤ 8 * t.br.buf.length) ∨
      (∃ e, t.reply = some (.raised e) ∧ t.br = s.br)) ∧
    ((∀ buf, i ≠ .brLoad buf) → (∀ n, i ≠ .brRdu n ∧ i ≠ .brRds n) → t.br = s.br)

/-! ### The CRC generator -/

/-- `CRC.CALC` on a range inside the buffer returns what the serial shift register computes on the range's bytes, and
changes no state (41_crc24q.md R143, R145; that the two forms agree is the spec's inference, R145). -/
def Obligations.CrcCalcIsTheSerialRegister : Prop :=
  ∀ (buf : Bytes) (off len : Nat) (s : State), off + len ≤ buf.length →
    exec (.crcCalc buf off len) s = .next (returned (.crc (serialCrc ((buf.drop off).take len))) s)

/-- A range that ends outside the buffer raises `E_BOUNDS` and computes nothing (41_crc24q.md R144, the spec's
decision D6). -/
def Obligations.CrcRangeOutsideTheBufferRaises : Prop :=
  ∀ (buf : Bytes) (off len : Nat) (s : State), buf.length < off + len →
    exec (.crcCalc buf off len) s = .next { s with reply := some (.raised (.eBounds off len)) }

/-- The table form of the byte step, and the table's entries that the rule lists (41_crc24q.md R148, the spec's
inference from linearity). -/
def Obligations.CrcByteTableForm : Prop :=
  (∀ (a : Crc) (b : Byte), crcByte a b = (a <<< 8) ^^^ crcByte 0 ((a >>> 16).setWidth 8 ^^^ b)) ∧
  crcByte 0 0 = 0 ∧ crcByte 0 1 = 0x864CFB ∧ crcByte 0 2 = 0x8AD50D ∧ crcByte 0 3 = 0x0C99F6 ∧
  crcByte 0 4 = 0x93E6E1 ∧ crcByte 0 5 = 0x15AA1A ∧ crcByte 0 6 = 0x1933EC ∧ crcByte 0 7 = 0x9F7F17 ∧
  crcByte 0 0x80 = 0x3347A4 ∧ crcByte 0 0xD3 = 0xE33309 ∧ crcByte 0 0xFF = 0xDD8538

/-- The check value of nothing is 0; leading zero bytes do not change it; over a concatenation the fold goes on from
the first part's value; and `CRC.CALC` depends on nothing but the bytes of the range (41_crc24q.md R147 items 1, 2, 3,
7, the spec's inferences from R141 to R143). -/
def Obligations.CrcFoldsOverTheRange : Prop :=
  crcOf [] = 0 ∧
  (∀ (n : Nat) (M : Bytes), crcOf (List.replicate n 0 ++ M) = crcOf M) ∧
  (∀ M N : Bytes, crcOf (M ++ N) = crcBytes (crcOf M) N) ∧
  (∀ (pre M post : Bytes) (s : State),
    exec (.crcCalc (pre ++ M ++ post) pre.length M.length) s = .next (returned (.crc (crcOf M)) s))

/-- The CRC is linear: the check value of the bytewise exclusive or of two buffers of one length is that of their
check values, and the fold from `a` is the fold from 0 with the fold from `a` over zero bytes (41_crc24q.md R147 item
4, the spec's inference). -/
def Obligations.CrcIsLinear : Prop :=
  (∀ M N : Bytes, M.length = N.length → crcOf (List.zipWith (· ^^^ ·) M N) = crcOf M ^^^ crcOf N) ∧
  (∀ (a : Crc) (N : Bytes), crcBytes a N = crcBytes 0 N ^^^ crcBytes a (List.replicate N.length 0))

/-- Appending the three big-endian bytes of its check value to a buffer gives a buffer whose check value is 0
(41_crc24q.md R147 item 5, the spec's inference). -/
def Obligations.CrcResidueIsZero : Prop :=
  ∀ M : Bytes, crcOf (M ++ [(crcOf M).extractLsb' 16 8, (crcOf M).extractLsb' 8 8, (crcOf M).extractLsb' 0 8]) = 0

/-- Two buffers that differ in exactly one bit have different check values (41_crc24q.md R147 item 6, the spec's
inference). -/
def Obligations.CrcDetectsEverySingleBitError : Prop :=
  ∀ (M : Bytes) (k : Nat), k < 8 * M.length → crcOf (flipBit M k) ≠ crcOf M

/-! ### The frame synchronizer -/

/-- `FS.RESET` empties the accumulator and changes nothing else of the block; what was in it does not matter, and any
chunk without a preamble that follows, such as the tail of the frame partly received, is dropped with no frame
(42_framesync.md R160). The decode clause, OPSEL 0101 in the low four bits of a byte that may hold anything above
them, is the model's choice of the word, log entry 1. -/
def Obligations.FsResetClearsOnlyTheAccumulator : Prop :=
  (∀ (P : Params) (b : Byte), b.toNat % 16 = 5 → decode P (.op [b]) = .ok .fsReset) ∧
  ∀ (acc : Bytes) (s : State), ∃ t,
    exec .fsReset { s with fsAcc := acc } = .next t ∧
    t = { s with fsAcc := [], reply := some (.ok .unit) } ∧
    ∀ tail : Bytes, (∀ b ∈ tail, b ≠ 0xD3) →
      exec (.fsPush tail) t = .next { t with reply := some (.ok (.frames [])) }

/-- `FS.PUSH` does what its eight steps say and nothing else: there is a run of the steps on the accumulator with the
chunk appended, and every such run gives the frames returned and the accumulator left (42_framesync.md R161 to R168).
-/
def Obligations.FsPushFollowsTheEightSteps : Prop :=
  ∀ (bytes : Bytes) (s : State),
    (∃ out left, Scan (s.fsAcc ++ bytes) out left) ∧
    ∀ out left, Scan (s.fsAcc ++ bytes) out left →
      exec (.fsPush bytes) s = .next { s with fsAcc := left, reply := some (.ok (.frames out)) }

/-- On `n` bytes the loop makes at most `n div 6 + 1` iterations: more would not change its result; and an empty
accumulator or a lone preamble ends it at once (42_framesync.md R170, the spec's inference from R169). -/
def Obligations.FsLoopShrinksAndTerminates : Prop :=
  (∀ (acc : Bytes) (fuel : Nat), acc.length / 6 + 1 ≤ fuel → fsLoop fuel acc = fsLoop (acc.length / 6 + 1) acc) ∧
  (∀ acc : Bytes, fsScan acc = fsLoop (acc.length / 6 + 1) acc) ∧
  (∀ acc : Bytes, 6 * (fsScan acc).1.length + (fsScan acc).2.length ≤ acc.length) ∧
  fsLoop 1 [] = ([], []) ∧ fsLoop 1 [preamble] = ([], [preamble])

/-- When `FS.PUSH` returns, from any state, the accumulator is empty, or one or two bytes that begin with `0xD3`, or
begins with `0xD3` and is shorter than the frame its header announces; so it holds at most 1028 bytes; `FS.RESET` and
reset leave it empty (42_framesync.md R171, the spec's inference from R169). -/
def Obligations.FsPushLeavesNoCompleteFrame : Prop :=
  (∀ (bytes : Bytes) (s : State), ∃ t, exec (.fsPush bytes) s = .next t ∧ FsInv t.fsAcc ∧ t.fsAcc.length ≤ 1028) ∧
  (∀ s : State, ∃ t, exec .fsReset s = .next t ∧ t.fsAcc = []) ∧ State.reset.fsAcc = []

/-- Chunking invariance: `FS.PUSH (A ++ B)` emits the frames of `FS.PUSH A` and then those of `FS.PUSH B`, and ends in
the same state; pushing nothing emits nothing and changes nothing (42_framesync.md R172, the spec's inference from
R169 and the source's testable property). The premise of the last clause is the block's invariant (R171). -/
def Obligations.FsPushIsChunkingInvariant : Prop :=
  ∀ (A B : Bytes) (s : State),
    (∃ (t u : State) (fa fb : List RawFrame),
      exec (.fsPush A) s = .next t ∧ t.reply = some (.ok (.frames fa)) ∧
      exec (.fsPush B) t = .next u ∧ u.reply = some (.ok (.frames fb)) ∧
      exec (.fsPush (A ++ B)) s = .next { u with reply := some (.ok (.frames (fa ++ fb))) }) ∧
    (FsInv s.fsAcc → exec (.fsPush []) s = .next { s with reply := some (.ok (.frames [])) })

/-- Garbage without `0xD3` followed by a frame yields exactly that one frame; no frame is emitted from an incomplete
header or payload: every frame emitted stands whole in the bytes received (42_framesync.md R173; of its `exactly when`
this is the direction that holds for garbage without a preamble). -/
def Obligations.FsPushSkipsNoise : Prop :=
  (∀ (noise P : Bytes) (s : State), (∀ b ∈ noise, b ≠ 0xD3) → P.length ≤ 1023 → s.fsAcc = [] →
    exec (.fsPush (noise ++ computedFrame P)) s =
      .next { s with reply := some (.ok (.frames [⟨computedFrame P, P, true⟩])) }) ∧
  (∀ (bytes : Bytes) (s t : State) (fs : List RawFrame) (f : RawFrame), exec (.fsPush bytes) s = .next t →
    t.reply = some (.ok (.frames fs)) → f ∈ fs →
      f.rawBytes.length = headerLength (f.rawBytes.getD 1 0) (f.rawBytes.getD 2 0) + 6 ∧
      f.rawBytes <:+: s.fsAcc ++ bytes)

/-- A frame built with the computed CRC is reported valid, alone and whole; inverting any one bit of its payload or of
its trailer gives one frame that is reported invalid (42_framesync.md R174). -/
def Obligations.FsPushChecksTheComputedFrame : Prop :=
  ∀ (P : Bytes) (s : State), P.length ≤ 1023 → s.fsAcc = [] →
    exec (.fsPush (computedFrame P)) s =
      .next { s with reply := some (.ok (.frames [⟨computedFrame P, P, true⟩])) } ∧
    ∀ k, 24 ≤ k → k < 8 * (P.length + 6) →
      exec (.fsPush (flipBit (computedFrame P) k)) s =
        .next { s with reply := some (.ok (.frames
          [⟨flipBit (computedFrame P) k, ((flipBit (computedFrame P) k).drop 3).take P.length, false⟩])) }

/-- Every frame emitted, valid or not, is a RawFrame: preamble, `3 + L + 3` bytes, at most 1029, its payload the `L`
bytes after the header; and `crcValid` says whether `CRC.CALC` over header and payload equals the big-endian trailer
(30_encoding.md R84; the form of the record is 10_state.md section 5). -/
def Obligations.EmittedFramesAreWholeAndChecked : Prop :=
  ∀ (bytes : Bytes) (s t : State) (fs : List RawFrame) (f : RawFrame), exec (.fsPush bytes) s = .next t →
    t.reply = some (.ok (.frames fs)) → f ∈ fs →
      f.wellFormed = true ∧ f.rawBytes.length = f.payload.length + 6 ∧ f.rawBytes.length ≤ 1029 ∧
      ∃ v : Crc, crcCalc f.rawBytes 0 (3 + f.payload.length) = .ok v ∧
        (f.crcValid = true ↔ v.toNat =
          (f.rawBytes.getD (3 + f.payload.length) 0).toNat * 65536 +
          (f.rawBytes.getD (4 + f.payload.length) 0).toNat * 256 +
          (f.rawBytes.getD (5 + f.payload.length) 0).toNat)

/-- The frame word delivered to a synchronizer at a frame boundary is emitted whole, whatever its six reserved bits
and whether or not its trailer matches the CRC over the bytes as received (30_encoding.md R80 to R84); elsewhere its
bytes join those already there. That the instruction is the delivery of its bytes is the model's choice (log entry 9).
-/
def Obligations.FrameWordIsDelivered : Prop :=
  ∀ (reserved : BitVec 6) (P : Bytes) (crc : Crc) (s : State), P.length ≤ 1023 →
    ∃ raw : Bytes,
      raw = [0xD3, BitVec.ofNat 8 (reserved.toNat * 4 + P.length / 256), BitVec.ofNat 8 P.length] ++ P ++
        [BitVec.ofNat 8 (crc.toNat / 65536), BitVec.ofNat 8 (crc.toNat / 256), BitVec.ofNat 8 crc.toNat] ∧
      (s.fsAcc = [] → exec (.frame reserved P crc) s =
        .next { s with reply := some (.ok (.frames
          [⟨raw, P, decide (crcOf (raw.take (3 + P.length)) = crc)⟩])) }) ∧
      exec (.frame reserved P crc) s = exec (.fsPush raw) s ∧ Completes (.frame reserved P crc) s

/-- A false preamble swallows the start of a real frame: one false frame with `crcValid = false`, and the rest is
discarded (70_reset_and_hazards.md R325, the spec's inference from R167; 95_test_vectors.md P3). -/
def Obligations.FalsePreambleSwallowsTheRealFrame : Prop :=
  ∀ s : State, s.fsAcc = [] →
    exec (.fsPush [0xD3, 0x00, 0x04, 0xD3, 0x00, 0x13, 0x3E, 0xD7, 0xD3, 0x02, 0x02, 0x98, 0x0E, 0xDE, 0xEF, 0x34, 0xB4,
      0xBD, 0x62, 0xAC, 0x09, 0x41, 0x98, 0x6F, 0x33, 0x36, 0x0B, 0x98]) s =
    .next { s with reply := some (.ok (.frames [⟨[0xD3, 0x00, 0x04, 0xD3, 0x00, 0x13, 0x3E, 0xD7, 0xD3, 0x02],
      [0xD3, 0x00, 0x13, 0x3E], false⟩])) }

/-! ### The whole machine -/

/-- Every step keeps the block's invariant: the accumulator is empty or waits for the rest of a frame that begins with
`0xD3`, and the cursor lies within the buffer (10_state.md R20, R21, R23; 42_framesync.md R171, the spec's inference).
-/
def Obligations.BlockInvariantIsKept : Prop :=
  ∀ s t : State, Inv s → step s = .next t → Inv t

/-- The block's invariant holds at reset, whatever the parameters the block is built with (10_state.md R34,
42_framesync.md R171). -/
def Obligations.BlockInvariantAtReset : Prop :=
  (∀ P : Params, Inv (State.resetWith P)) ∧ Inv State.reset

/-- Nothing stops the block: every instruction answers a next state from every state (60_exceptions.md R302, R303;
93_implementation_defined.md, end of section 1). -/
def Obligations.EveryInstructionAnswers : Prop :=
  ∀ (i : Instr) (s : State), ∃ t r, exec i s = .next t ∧ t.reply = some r

/-- The open parameters are fixed when the block is built: no step changes them (10_state.md R27, R31;
70_reset_and_hazards.md R321, R322; that the model carries them in a field is log entry 15). -/
def Obligations.ParametersAreFixed : Prop :=
  ∀ s t : State, step s = .next t → t.params = s.params

/-- The six total operations return a result, never an error, for any state and any operand (60_exceptions.md R303).
-/
def Obligations.TotalOperationsNeverRaise : Prop :=
  ∀ (s : State) (bytes : Bytes) (type : MsgNum) (f : RawFrame),
    Completes (.fsPush bytes) s ∧ Completes .fsReset s ∧ Completes (.brLoad bytes) s ∧ Completes .brRem s ∧
    Completes (.decDecode type bytes) s ∧ Completes (.muxRoute f) s

/-- Only `BR.RDU`, `BR.RDS` and `CRC.CALC` raise, each only its own errors, and a raise leaves the whole state of the
block as it was (00_scope.md R15; 60_exceptions.md R301, R303; that a failing read changes nothing is the spec's
decision D5, the two argument errors D4 and D6). -/
def Obligations.OnlyReadsAndCrcCalcRaise : Prop :=
  ∀ (i : Instr) (s t : State) (e : Err), exec i s = .next t → t.reply = some (.raised e) →
    t = { s with reply := some (.raised e) } ∧
    ((∃ n, (i = .brRdu n ∨ i = .brRds n) ∧ (e = .eArg n ∧ (n < 1 ∨ 64 < n) ∨
        e = .eRange n ∧ 1 ≤ n ∧ n ≤ 64 ∧ 8 * s.br.buf.length < s.br.pos + n)) ∨
     (∃ buf off len, i = .crcCalc buf off len ∧ e = .eBounds off len ∧ buf.length < off + len))

/-- Each operation touches its own unit only: the accumulator changes by `FS.RESET`, `FS.PUSH` and the frame word
alone, the port reader by `BR.LOAD`, `BR.RDU`, `BR.RDS` alone, no instruction issues or takes a word, and none changes
a parameter (10_state.md R21, R22, R33; 20_memory.md R59, R60; 70_reset_and_hazards.md R321; `issued` and `params` are
the model's own fields, log entries 2 and 15). -/
def Obligations.OperationsTouchOnlyTheirUnit : Prop :=
  ∀ (i : Instr) (s t : State), exec i s = .next t →
    (t.fsAcc ≠ s.fsAcc → i = .fsReset ∨ (∃ bytes, i = .fsPush bytes) ∨ ∃ r p c, i = .frame r p c) ∧
    (t.br ≠ s.br → (∃ buf, i = .brLoad buf) ∨ ∃ n, i = .brRdu n ∨ i = .brRds n) ∧
    t.issued = s.issued ∧ t.params = s.params

/-! ### The multiplexer and the decoders -/

/-- `MUX.ROUTE` of a payload of at least 12 bits reads the message number from its first 12 bits, copies `crcValid`
untested, gives the payload's length in bytes and the fields that `DEC.DECODE` of that number gives; no state is
written (43_mux_fixed.md R180, R181; that the block packages this step is the spec's decision D24). -/
def Obligations.MuxRouteDispatchesOnTheFirst12Bits : Prop :=
  ∀ (f : RawFrame) (s : State), 2 ≤ f.payload.length →
    ∃ (n : MsgNum) (m : Fields),
      n.toNat = ((f.payload.getD 0 0).toNat <<< 4) ||| ((f.payload.getD 1 0).toNat >>> 4) ∧
      exec (.decDecode n f.payload) s = .next (returned (.fields m) s) ∧
      exec (.muxRoute f) s = .next (returned (.message
        { messageType := some n, crcValid := f.crcValid, payloadLength := f.payload.length, fields := m }) s)

/-- A payload of 0 or 1 bytes is routed to a runt record without a message number, and the runt instruction gives that
record (43_mux_fixed.md R182, the spec's decision D8). -/
def Obligations.RuntHasNoMessageNumber : Prop :=
  ∀ (raw p : Bytes) (crcValid : Bool) (s : State), p.length < 2 →
    ∃ t, exec (.muxRoute ⟨raw, p, crcValid⟩) s = .next t ∧ exec (.runt p crcValid) s = .next t ∧
      t = returned (.message
        { messageType := none, crcValid := crcValid, payloadLength := p.length,
          fields := [(.runt, .scalar (.bool true)), (.rawPayloadHex, .scalar (.str (hexOf p)))] }) s

/-- A routed message carries exactly one of the markers `runt`, `unsupported` and `truncated`, under any parameters of
a block: `runt` under 12 bits, else `unsupported` for a number without a decoder, else `truncated`, true or false;
`crcValid` is independent of them (60_exceptions.md R300 (c), the spec's inference from R180 and R183). That
parameters of a block name no field by a marker's name is the premise, and the default parameters meet it; the form of
the parameters is log entry 15. -/
def Obligations.MuxRouteRecordsCarryOneMarker : Prop :=
  Params.wellFormed defaultParams = true ∧
  ∀ (f : RawFrame) (s : State), s.params.wellFormed = true → ∃ (m : DecodedMessage) (markers : List Key),
    exec (.muxRoute f) s = .next (returned (.message m) s) ∧ m.crcValid = f.crcValid ∧
    markers = (m.fields.map Prod.fst).filter (fun k => k == .runt || k == .unsupported || k == .truncated) ∧
    (f.payload.length < 2 → markers = [.runt]) ∧
    (2 ≤ f.payload.length → (∀ e ∈ s.params.registered, e.1 ≠ msgnum f.payload) → markers = [.unsupported]) ∧
    (2 ≤ f.payload.length → (∃ e ∈ s.params.registered, e.1 = msgnum f.payload) → markers = [.truncated])

/-- Under any parameters, a message number without a registered decoder gives the fallback record, never an error, and
the fallback instruction gives that record; the hex string has two upper-case digits a byte (43_mux_fixed.md R187; the
name of the key and the form of the string are the spec's decision D20; that the model carries `REGISTERED` in a field
is log entry 15). -/
def Obligations.UnsupportedReturnsTheHexRecord : Prop :=
  ∀ (n : MsgNum) (p : Bytes) (s : State), (∀ e ∈ s.params.registered, e.1 ≠ n.toNat) →
    ∃ t, exec (.decDecode n p) s = .next t ∧ exec (.unsupported p) s = .next t ∧
      t = returned (.fields
        [(.unsupported, .scalar (.bool true)), (.rawPayloadHex, .scalar (.str (hexOf p)))]) s

/-- `DEC.DECODE` of a number that has a row and that row's message instruction return the same fields for the same
payload, whatever number the payload begins with, and change nothing else. For a registered number this is the
dispatch on the `type` operand (43_mux_fixed.md R183, the spec's decision D21; the rows are those of the default
`REGISTERED`, log entry 4). That it holds under any parameters is the model's choice, log entry 15: a row's
instruction runs the decoder that the parameters give its number, and gives the fallback record where they give none.
-/
def Obligations.DecDecodeAgreesWithTheRowInstruction : Prop :=
  ∀ e ∈ messageTable, ∀ (p : Bytes) (s : State), ∃ m : Fields,
    exec (.decDecode (BitVec.ofNat 12 e.1) p) s = .next (returned (.fields m) s) ∧
    exec (e.2 p) s = .next (returned (.fields m) s)

/-- Every registered decoder records a fixed list of keys in a fixed order, with `truncated` and `bitsRemaining` last,
whatever the payload, under either order of the MSM data (10_state.md R30, 43_mux_fixed.md R186, 44_msm.md R241). The
numbers and layouts are the spec's defaults, log entry 4; a key without a value is recorded as absent: log entry 6.
Under any other parameters too, the keys of a registered number's record do not depend on the payload (log entry 15).
-/
def Obligations.DecodersRecordTheirFixedKeys : Prop :=
  (∀ e ∈ messageTable, ∀ (order : MsmOrder) (p : Bytes),
    (decodeMessage { defaultParams with msmOrder := order } e.1 p).map Prod.fst = recordKeys e.1) ∧
  (∀ (s : State) (n : MsgNum), (∃ e ∈ s.params.registered, e.1 = n.toNat) → ∃ keys : List Key, ∀ p : Bytes, ∃ m : Fields,
    exec (.decDecode n p) s = .next (returned (.fields m) s) ∧
    m.map Prod.fst = keys ++ [.truncated, .bitsRemaining])

/-- `LAYOUT` is an argument: whatever number `REGISTERED` gives a fixed layout of numeric fields, of any names, kinds
and widths, `DEC.DECODE` of that number records each field from its stream bits, for every payload; a field that does
not fit is absent with all that follow (00_scope.md R8; 43_mux_fixed.md R183, R184, R186; 30_encoding.md R86; a
boolean has one bit, R86; that the model carries the parameters in a field is log entry 15). -/
def Obligations.AnyNumericLayoutIsReadFieldByField : Prop :=
  ∀ (n : MsgNum) (fs : List (Key × NumKind × Nat)) (p : Bytes) (s : State), (∀ f ∈ fs, f.2.1 = .b → f.2.2 = 1) →
    s.params.registered.lookup n.toNat = some (.fixed (numericLayout fs)) →
      exec (.decDecode n p) s = .next (returned (.fields (numericRecord fs p)) s)

/-- The biases are part of `LAYOUT`, their mask bits, names, kinds and widths an argument like the header's:
`DEC.DECODE` of a number with a header and fields under a mask of the header reads each field whose mask bit is set,
one after the other, for every payload; a clear bit takes no bits, and a field that does not fit is absent with all
that follow (00_scope.md R8; 30_encoding.md R86, R95; 43_mux_fixed.md R183, R184, R192; that the model carries the
parameters in a field is log entry 15). -/
def Obligations.AnyMaskedLayoutReadsItsSetFields : Prop :=
  ∀ (n : MsgNum) (header : List (Key × NumKind × Nat)) (mask : Key) (fs : List (Nat × Key × NumKind × Nat)) (p : Bytes)
    (s : State), (∀ f ∈ header ++ fs.map Prod.snd, f.2.1 = .b → f.2.2 = 1) →
    (∀ m, (place 12 header).find? (fun f => f.key == mask) = some m → m.kind = .u) →
    s.params.registered.lookup n.toNat = some (.bias (numericLayout header) mask
      (fs.map fun f => (f.1, .num f.2.2.1 f.2.1 f.2.2.2))) →
        exec (.decDecode n p) s = .next (returned (.fields (maskedRecord header mask fs p)) s)

/-- Rows are part of `LAYOUT`: `DEC.DECODE` of a number with a header and rows that a field of the header counts reads
as many of the rows due as fit whole, whatever the names, kinds and widths of header and row, for every payload
(00_scope.md R8; 30_encoding.md R86, R96 to R99; 43_mux_fixed.md R183 to R185 and section 7; that the model carries
the parameters in a field is log entry 15). A row of no bits is no row of the spec and is left out. -/
def Obligations.AnyRowLayoutReadsWholeRows : Prop :=
  ∀ (n : MsgNum) (header row : List (Key × NumKind × Nat)) (count rows : Key) (p : Bytes) (s : State),
    (∀ f ∈ header ++ row, f.2.1 = .b → f.2.2 = 1) → 0 < bitsOf row →
    (∀ m, (place 12 header).find? (fun f => f.key == count) = some m → m.kind = .u) →
    s.params.registered.lookup n.toNat = some (.legacyObs (numericLayout header) count rows (numericLayout row)) →
      exec (.decDecode n p) s = .next (returned (.fields (countedRecord header count rows row p)) s)

/-- Messages 1005 and 1006 record each field from its stream bits, for every payload: a field that does not fit is
absent with all that follow, `truncated` says so, `bitsRemaining` counts from the last item read whole
(43_mux_fixed.md R188, R189; 30_encoding.md R93; the layout is the spec's default, log entry 4). -/
def Obligations.StationMessagesReadTheirFields : Prop :=
  ∀ (p : Bytes) (s : State), DefaultTables s →
    exec (.stationArp p) s = .next (returned (.fields
      (scalars (fittingRow p stationFields) ++
        ending (decide (8 * p.length < 152)) (8 * p.length - lastFit (8 * p.length) stationMarks))) s) ∧
    exec (.stationArpHgt p) s = .next (returned (.fields
      (scalars (fittingRow p (stationFields ++ [heightField])) ++
        ending (decide (8 * p.length < 168)) (8 * p.length - lastFit (8 * p.length) (stationMarks ++ [168])))) s)

/-- Message 1007: the station in bits 12 to 23, a count, that many bytes as they are, the setup id; a count larger
than the bytes left is recorded and no character is consumed; what is missing is absent (43_mux_fixed.md R190;
30_encoding.md R88, R94; the layout is the spec's default, log entry 4). -/
def Obligations.AntennaDescriptorReadsItsString : Prop :=
  ∀ (b0 b1 b2 count : Byte) (chars rest : Bytes) (s : State), DefaultTables s →
    (chars.length = count.toNat → ∀ setup : Byte,
      exec (.antDesc (b0 :: b1 :: b2 :: count :: (chars ++ setup :: rest))) s = .next (returned (.fields
        ([(.stationId, .scalar (.uint (b1.toNat % 16 * 256 + b2.toNat))),
          (.antennaDescriptorLength, .scalar (.uint count.toNat)), (.antennaDescriptor, .scalar (.str chars)),
          (.antennaSetupId, .scalar (.uint setup.toNat))] ++ ending false (8 * rest.length))) s)) ∧
    (chars.length = count.toNat →
      exec (.antDesc (b0 :: b1 :: b2 :: count :: chars)) s = .next (returned (.fields
        ([(.stationId, .scalar (.uint (b1.toNat % 16 * 256 + b2.toNat))),
          (.antennaDescriptorLength, .scalar (.uint count.toNat)), (.antennaDescriptor, .scalar (.str chars)),
          (.antennaSetupId, .scalar .absent)] ++ ending true 0)) s)) ∧
    (rest.length < count.toNat →
      exec (.antDesc (b0 :: b1 :: b2 :: count :: rest)) s = .next (returned (.fields
        ([(.stationId, .scalar (.uint (b1.toNat % 16 * 256 + b2.toNat))),
          (.antennaDescriptorLength, .scalar (.uint count.toNat)), (.antennaDescriptor, .scalar .absent),
          (.antennaSetupId, .scalar .absent)] ++ ending true (8 * rest.length))) s)) ∧
    exec (.antDesc [b0, b1, b2]) s = .next (returned (.fields
      ([(.stationId, .scalar (.uint (b1.toNat % 16 * 256 + b2.toNat))), (.antennaDescriptorLength, .scalar .absent),
        (.antennaDescriptor, .scalar .absent), (.antennaSetupId, .scalar .absent)] ++ ending true 0)) s) ∧
    (rest.length < 3 →
      exec (.antDesc rest) s = .next (returned (.fields
        ([(.stationId, .scalar .absent), (.antennaDescriptorLength, .scalar .absent),
          (.antennaDescriptor, .scalar .absent), (.antennaSetupId, .scalar .absent)] ++
          ending true (if rest.length = 2 then 4 else 8 * rest.length))) s))

/-- Message 1008: what 1007 records, then the serial number by its own count; a serial number that does not fit leaves
its count recorded and its characters unread; where 1007 is truncated, 1008 records the same and neither serial field
(43_mux_fixed.md R191; 30_encoding.md R94; the layout is the spec's default, log entry 4). -/
def Obligations.AntennaSerialReadsBothStrings : Prop :=
  ∀ (b0 b1 b2 n m setup : Byte) (chars serial rest : Bytes) (s : State), DefaultTables s →
    chars.length = n.toNat →
    (serial.length = m.toNat →
      exec (.antDescSerial (b0 :: b1 :: b2 :: n :: (chars ++ setup :: m :: (serial ++ rest)))) s =
        .next (returned (.fields
          ([(.stationId, .scalar (.uint (b1.toNat % 16 * 256 + b2.toNat))),
            (.antennaDescriptorLength, .scalar (.uint n.toNat)), (.antennaDescriptor, .scalar (.str chars)),
            (.antennaSetupId, .scalar (.uint setup.toNat)), (.antennaSerialNumberLength, .scalar (.uint m.toNat)),
            (.antennaSerialNumber, .scalar (.str serial))] ++ ending false (8 * rest.length))) s)) ∧
    (rest.length < m.toNat →
      exec (.antDescSerial (b0 :: b1 :: b2 :: n :: (chars ++ setup :: m :: rest))) s =
        .next (returned (.fields
          ([(.stationId, .scalar (.uint (b1.toNat % 16 * 256 + b2.toNat))),
            (.antennaDescriptorLength, .scalar (.uint n.toNat)), (.antennaDescriptor, .scalar (.str chars)),
            (.antennaSetupId, .scalar (.uint setup.toNat)), (.antennaSerialNumberLength, .scalar (.uint m.toNat)),
            (.antennaSerialNumber, .scalar .absent)] ++ ending true (8 * rest.length))) s)) ∧
    exec (.antDescSerial (b0 :: b1 :: b2 :: n :: (chars ++ [setup]))) s =
      .next (returned (.fields
        ([(.stationId, .scalar (.uint (b1.toNat % 16 * 256 + b2.toNat))),
          (.antennaDescriptorLength, .scalar (.uint n.toNat)), (.antennaDescriptor, .scalar (.str chars)),
          (.antennaSetupId, .scalar (.uint setup.toNat)), (.antennaSerialNumberLength, .scalar .absent),
          (.antennaSerialNumber, .scalar .absent)] ++ ending true 0)) s) ∧
    (∀ (p : Bytes) (record : Fields) (left : Nat),
      exec (.antDesc p) s = .next (returned (.fields (record ++ ending true left)) s) →
      exec (.antDescSerial p) s = .next (returned (.fields
        (record ++ [(.antennaSerialNumberLength, .scalar .absent), (.antennaSerialNumber, .scalar .absent)] ++
          ending true left)) s))

/-- Message 1230: the first mask bit governs L1 C/A, then L1 P, L2 C/A, L2 P; a set bit takes 16 bits of the message,
a clear one none; a bias that does not fit ends the reading; a payload under four bytes has no bias (43_mux_fixed.md
R192, 30_encoding.md R95; the layout is the spec's default, log entry 4). -/
def Obligations.GloBiasReadsTheMaskedBiases : Prop :=
  ∀ (b0 b1 b2 b3 : Byte) (tail : Bytes) (s : State), DefaultTables s →
    (∃ (row : Row) (left : Bytes) (cut : Bool),
      biasRow [(b3.getLsbD 3, .l1CaCodePhaseBias), (b3.getLsbD 2, .l1PCodePhaseBias), (b3.getLsbD 1, .l2CaCodePhaseBias),
        (b3.getLsbD 0, .l2PCodePhaseBias)] tail = (row, left, cut) ∧
      exec (.gloBias (b0 :: b1 :: b2 :: b3 :: tail)) s = .next (returned (.fields
        ([(.stationId, .scalar (.uint (b1.toNat % 16 * 256 + b2.toNat))),
          (.codePhaseBiasIndicator, .scalar (.bool (b3.getLsbD 7))),
          (.fdmaSignalsMask, .scalar (.uint (b3.toNat % 16)))] ++ scalars row ++ ending cut (8 * left.length))) s)) ∧
    exec (.gloBias [b0, b1, b2]) s = .next (returned (.fields
      ([(.stationId, .scalar (.uint (b1.toNat % 16 * 256 + b2.toNat))), (.codePhaseBiasIndicator, .scalar .absent),
        (.fdmaSignalsMask, .scalar .absent), (.l1CaCodePhaseBias, .scalar .absent), (.l1PCodePhaseBias, .scalar .absent),
        (.l2CaCodePhaseBias, .scalar .absent), (.l2PCodePhaseBias, .scalar .absent)] ++ ending true 0)) s) ∧
    (tail.length < 3 → exec (.gloBias tail) s = .next (returned (.fields
      ([(.stationId, .scalar .absent), (.codePhaseBiasIndicator, .scalar .absent), (.fdmaSignalsMask, .scalar .absent),
        (.l1CaCodePhaseBias, .scalar .absent), (.l1PCodePhaseBias, .scalar .absent),
        (.l2CaCodePhaseBias, .scalar .absent), (.l2PCodePhaseBias, .scalar .absent)] ++
        ending true (if tail.length = 2 then 4 else 8 * tail.length))) s))

/-- The eight legacy observable messages, for every payload: the header fields from their stream bits, then of the
`satelliteCount` rows announced as many as fit whole, each field at its place; `truncated` when a row or a header
field does not fit (43_mux_fixed.md R193 to R200, R185; 30_encoding.md R96 to R99; the layout is the spec's default,
log entry 4). -/
def Obligations.LegacyObservablesReadWholeRows : Prop :=
  ∀ e ∈ obsTable, ∀ (p : Bytes) (s : State), DefaultTables s →
    exec (e.2.1 p) s = .next (returned (.fields (obsRecord e.2.2.1 e.2.2.2.1 e.2.2.2.2 p)) s)

/-- The 28 multi-signal messages, for every payload: header and masks from their stream bits, then of the satellite
rows and of the cell rows as many as fit whole, each field at its place, absent where the type has no such field
(44_msm.md R231 to R237, R239 to R241, R243, R250 to R277). The row-major order of the data is the parameter
`MSM_ORDER` at its default (log entry 5), the numbers and the layout are those of `REGISTERED` and `LAYOUT` (log entry
4). -/
def Obligations.MsmReadsWholeRowsInRowMajorOrder : Prop :=
  ∀ e ∈ msmTable, ∀ (p : Bytes) (s : State), DefaultTables s → s.params.msmOrder = .rowMajor →
    exec (e.2 p) s = .next (returned (.fields (msmRowMajor (e.1 % 10) p)) s)

/-- The 28 multi-signal messages on a block built with `MSM_ORDER = FieldMajor`, for every payload, and the decoder of
any type in that order: every value of one field before the first of the next, in `satelliteIds` order and then in
`activeCells` order. Both lists have their full length once the cell mask was read; a value that does not fit is
absent with all that follow, the cell values too after a truncated satellite block, and `bitsRemaining` counts from
the last value read (44_msm.md R238, R240, R242, R243). The order is the spec's decision D14, the alternative of the
open parameter `MSM_ORDER` (log entry 5); the places and widths are the default `LAYOUT`, a choice of the model (log
entry 4). -/
def Obligations.MsmFieldMajorPlacesValuesByField : Prop :=
  (∀ e ∈ msmTable, ∀ (p : Bytes) (s : State), DefaultTables s → s.params.msmOrder = .fieldMajor →
    exec (e.2 p) s = .next (returned (.fields (msmFieldMajor (e.1 % 10) p)) s)) ∧
  (∀ (type : Nat) (p : Bytes), decodeMsm .fieldMajor msmLayout type p = msmFieldMajor (type % 10) p)

/-- On a complete message with at most one satellite and at most one active cell the two orders of the data read the
same record (44_msm.md R238, the spec's decision D14; the layout is the spec's default, log entry 4). -/
def Obligations.MsmOrdersAgreeOnOneCell : Prop :=
  ∀ (type : Nat) (p : Bytes), 1 ≤ type % 10 → type % 10 ≤ 7 → 169 ≤ 8 * p.length →
    msmTotal (type % 10) p ≤ 8 * p.length → (satIds p).length ≤ 1 → (activeCells p).length ≤ 1 →
      decodeMsm .rowMajor msmLayout type p = decodeMsm .fieldMajor msmLayout type p

/-- A field of width 0 for the message's type is absent in every row of the record, complete or truncated, in either
order (44_msm.md R239; the widths are the spec's default, log entry 4). -/
def Obligations.MsmWidthZeroIsAbsent : Prop :=
  ∀ (order : MsmOrder) (type : Nat) (p : Bytes) (rows : List Row) (row : Row) (f : MsmField) (v : Scalar),
    ((Key.satellites, Value.list rows) ∈ decodeMsm order msmLayout type p ∧ f ∈ msmSatellite ∨
     (Key.cells, Value.list rows) ∈ decodeMsm order msmLayout type p ∧ f ∈ msmCell) →
    msmWidth f (type % 10) = 0 → row ∈ rows → (f.key, v) ∈ row → v = .absent

/-- A number whose last digit is 0, 8 or 9, where `REGISTERED` routes it to the MSM decoder, has no data bits in
either order, for every payload: header and masks are decoded as far as they fit, every satellite and cell row is
there with every field absent once the cell mask was read, nothing more is consumed (44_msm.md R242, the spec's
decision D33; R240). Header and masks lie where the default `LAYOUT` puts them, a choice of the model (log entry 4).
-/
def Obligations.MsmTypeOutside1To7ReadsNoData : Prop :=
  (∀ (n : MsgNum) (p : Bytes) (s : State), n.toNat % 10 = 0 ∨ 8 ≤ n.toNat % 10 →
    s.params.registered.lookup n.toNat = some .msm → s.params.msm = msmLayout →
      exec (.decDecode n p) s = .next (returned (.fields (msmNoData (n.toNat % 10) p)) s)) ∧
  (∀ (order : MsmOrder) (type : Nat) (p : Bytes), type % 10 = 0 ∨ 8 ≤ type % 10 →
    decodeMsm order msmLayout type p = msmNoData (type % 10) p)

/-- The source's test case: satellite mask bit 3 and signal mask bit 2 alone set, and the one cell bit, give
`satelliteIds = [3]`, `signalIds = [2]`, the one active cell (3,2), one satellite row and one cell row; the totals are
195, 207, 222, 236, 269, 253 and 286 bits (44_msm.md R244; the totals are the spec's inference from the default
widths, log entry 4). -/
def Obligations.MsmSingleCellTestCase : Prop :=
  ∀ (order : MsmOrder) (type : Nat) (p : Bytes), 1 ≤ type % 10 → type % 10 ≤ 7 →
    [195, 207, 222, 236, 269, 253, 286].getD (type % 10 - 1) 0 ≤ 8 * p.length →
    bitSum p 73 64 = 0x2000000000000000 → bitSum p 137 32 = 0x40000000 → sbit p 169 = true →
    ∃ (sat cell : Row),
      (Key.satelliteIds, Value.ulist [3]) ∈ decodeMsm order msmLayout type p ∧
      (Key.signalIds, Value.ulist [2]) ∈ decodeMsm order msmLayout type p ∧
      (Key.activeCells, Value.list [[(.satelliteId, .uint 3), (.signalId, .uint 2)]]) ∈
        decodeMsm order msmLayout type p ∧
      (Key.satellites, Value.list [(.satelliteId, .uint 3) :: sat]) ∈ decodeMsm order msmLayout type p ∧
      (Key.cells, Value.list [(.satelliteId, .uint 3) :: (.signalId, .uint 2) :: cell]) ∈
        decodeMsm order msmLayout type p ∧
      (Key.truncated, Value.scalar (.bool false)) ∈ decodeMsm order msmLayout type p ∧
      (Key.bitsRemaining, Value.scalar (.uint
        (8 * p.length - [195, 207, 222, 236, 269, 253, 286].getD (type % 10 - 1) 0))) ∈
          decodeMsm order msmLayout type p

/-- The constellation changes nothing in the decoding: two MSM numbers with the same last digit give the same record
of the same payload (44_msm.md R230; the numbers are those of the default `REGISTERED`, log entry 4). -/
def Obligations.MsmConstellationIsNotDecoded : Prop :=
  ∀ e ∈ msmTable, ∀ g ∈ msmTable, e.1 % 10 = g.1 % 10 →
    ∀ (p : Bytes) (s : State), DefaultTables s → exec (e.2 p) s = exec (g.2 p) s
end

