-- ==== Sys2Proof/Laws/State.lean ====
section
/-! SUPPORT. One lemma per field of the state for each update, so that no proof unfolds a record update. -/

namespace Sys2Proof.Machine

/-! ### `answer` -/

@[simp] theorem answer_fsAcc (out : Output) (s : State) : (answer out s).fsAcc = s.fsAcc := rfl
@[simp] theorem answer_br (out : Output) (s : State) : (answer out s).br = s.br := rfl
@[simp] theorem answer_params (out : Output) (s : State) : (answer out s).params = s.params := rfl
@[simp] theorem answer_issued (out : Output) (s : State) : (answer out s).issued = s.issued := rfl
@[simp] theorem answer_reply (out : Output) (s : State) : (answer out s).reply = some (.ok out) := rfl

/-! ### `raise` -/

@[simp] theorem raise_fsAcc (e : Err) (s : State) : (raise e s).fsAcc = s.fsAcc := rfl
@[simp] theorem raise_br (e : Err) (s : State) : (raise e s).br = s.br := rfl
@[simp] theorem raise_params (e : Err) (s : State) : (raise e s).params = s.params := rfl
@[simp] theorem raise_issued (e : Err) (s : State) : (raise e s).issued = s.issued := rfl
@[simp] theorem raise_reply (e : Err) (s : State) : (raise e s).reply = some (.raised e) := rfl

/-! ### `pushBytes` -/

@[simp] theorem pushBytes_fsAcc (bytes : Bytes) (s : State) :
    (pushBytes bytes s).fsAcc = (fsScan (s.fsAcc ++ bytes)).2 := rfl
@[simp] theorem pushBytes_br (bytes : Bytes) (s : State) : (pushBytes bytes s).br = s.br := rfl
@[simp] theorem pushBytes_params (bytes : Bytes) (s : State) : (pushBytes bytes s).params = s.params := rfl
@[simp] theorem pushBytes_issued (bytes : Bytes) (s : State) : (pushBytes bytes s).issued = s.issued := rfl
@[simp] theorem pushBytes_reply (bytes : Bytes) (s : State) :
    (pushBytes bytes s).reply = some (.ok (.frames (fsScan (s.fsAcc ++ bytes)).1)) := rfl

/-! ### `State.withFetchWord` -/

@[simp] theorem withFetchWord_fsAcc (s : State) (nbits w : Nat) : (s.withFetchWord nbits w).fsAcc = s.fsAcc := rfl
@[simp] theorem withFetchWord_br (s : State) (nbits w : Nat) : (s.withFetchWord nbits w).br = s.br := rfl
@[simp] theorem withFetchWord_params (s : State) (nbits w : Nat) : (s.withFetchWord nbits w).params = s.params := rfl
@[simp] theorem withFetchWord_issued (s : State) (nbits w : Nat) :
    (s.withFetchWord nbits w).issued = tableWord nbits w :: s.issued := rfl
@[simp] theorem withFetchWord_reply (s : State) (nbits w : Nat) : (s.withFetchWord nbits w).reply = s.reply := rfl

/-! ### `State.reset` -/

@[simp] theorem reset_fsAcc : State.reset.fsAcc = [] := rfl
@[simp] theorem reset_br : State.reset.br = Reader.load [] := rfl
@[simp] theorem reset_params : State.reset.params = defaultParams := rfl
@[simp] theorem reset_issued : State.reset.issued = [] := rfl
@[simp] theorem reset_reply : State.reset.reply = none := rfl

/-! ### `State.resetWith` -/

@[simp] theorem resetWith_fsAcc (P : Params) : (State.resetWith P).fsAcc = [] := rfl
@[simp] theorem resetWith_br (P : Params) : (State.resetWith P).br = Reader.load [] := rfl
@[simp] theorem resetWith_params (P : Params) : (State.resetWith P).params = P := rfl
@[simp] theorem resetWith_issued (P : Params) : (State.resetWith P).issued = [] := rfl
@[simp] theorem resetWith_reply (P : Params) : (State.resetWith P).reply = none := rfl

/-! ### The reader -/

@[simp] theorem Reader.load_buf (buf : Bytes) : (Reader.load buf).buf = buf := rfl
@[simp] theorem Reader.load_pos (buf : Bytes) : (Reader.load buf).pos = 0 := rfl
@[simp] theorem Reader.take_value (r : Reader) (n : Nat) : (r.take n).1 = bitRead r.buf r.pos n := rfl
@[simp] theorem Reader.take_buf (r : Reader) (n : Nat) : (r.take n).2.buf = r.buf := rfl
@[simp] theorem Reader.take_pos (r : Reader) (n : Nat) : (r.take n).2.pos = r.pos + n := rfl

/-! ### The step -/

/-- Everything a step that goes on can do: nothing, with nothing issued, or the decoded next word. -/
theorem step_cases {s t : State} (h : step s = .next t) :
    (s.issued = [] ∧ t = s) ∨
    ∃ w rest i, s.issued = w :: rest ∧ decode s.params w = .ok i ∧ exec i { s with issued := rest } = .next t := by
  unfold step at h
  split at h
  · next hs => cases h; exact .inl ⟨hs, rfl⟩
  · next w rest hs =>
    split at h
    · cases h
    · next i hd => exact .inr ⟨w, rest, i, hs, hd, h⟩

end Sys2Proof.Machine
end

