-- ==== Sys2Proof/Laws/Reader.lean ====
section
/-! SUPPORT. The stream primitives and the bit reader: what a read gives, and everything that a guarded read can do. -/

namespace Sys2Proof

/-! ### `bitRead` -/

@[simp] theorem bitRead_zero (B : Bytes) (k : Nat) : bitRead B k 0 = 0 := rfl

theorem bitRead_succ (B : Bytes) (k n : Nat) :
    bitRead B k (n + 1) = 2 * bitRead B k n + (sbit B (k + n)).toNat := rfl

@[simp] theorem bitRead_one (B : Bytes) (k : Nat) : bitRead B k 1 = (sbit B k).toNat := by
  simp [bitRead_succ]

theorem bitRead_lt (B : Bytes) (k n : Nat) : bitRead B k n < 2 ^ n := by
  induction n with
  | zero => simp
  | succ n ih =>
    have hb := Bool.toNat_le (sbit B (k + n))
    rw [bitRead_succ, pow_succ]
    omega

/-- The bits of a read are those of its first part followed by those of its second. -/
theorem bitRead_add (B : Bytes) (k m n : Nat) :
    bitRead B k (m + n) = bitRead B k m * 2 ^ n + bitRead B (k + m) n := by
  induction n with
  | zero => simp
  | succ n ih =>
    rw [← Nat.add_assoc, bitRead_succ, bitRead_succ, ih, pow_succ, Nat.add_assoc k m n]
    ring

theorem sbit_cons_add (b : Byte) (B : Bytes) (k : Nat) : sbit (b :: B) (8 + k) = sbit B k := by
  have h1 : (8 + k) / 8 = k / 8 + 1 := by omega
  have h2 : (8 + k) % 8 = k % 8 := by omega
  simp [sbit, h1, h2]

/-- Reading past the first byte is reading the rest. -/
theorem bitRead_cons_add (b : Byte) (B : Bytes) (k n : Nat) : bitRead (b :: B) (8 + k) n = bitRead B k n := by
  induction n with
  | zero => rfl
  | succ n ih => rw [bitRead_succ, bitRead_succ, ih, Nat.add_assoc, sbit_cons_add]

theorem bitRead_eight_first (b : Byte) (B : Bytes) : bitRead (b :: B) 0 8 = b.toNat := by
  have h : ∀ b : Byte, bitRead [b] 0 8 = b.toNat := by decide +kernel
  rw [← h b]
  simp [bitRead_succ, sbit]

/-- Eight bits from a byte boundary are the byte there (20_memory.md R52, R53). -/
theorem bitRead_eight (B : Bytes) (a : Nat) : bitRead B (8 * a) 8 = (B.getD a 0).toNat := by
  induction B generalizing a with
  | nil => simp [bitRead_succ, sbit]
  | cons b B ih =>
    cases a with
    | zero => simpa using bitRead_eight_first b B
    | succ a =>
      rw [show 8 * (a + 1) = 8 + 8 * a by ring, bitRead_cons_add, ih]
      simp

/-! ### `sext` -/

theorem sext_of_lt {n v : Nat} (h : v < 2 ^ (n - 1)) : sext n v = v := if_pos h

theorem sext_of_le {n v : Nat} (h : 2 ^ (n - 1) ≤ v) : sext n v = (v : Int) - 2 ^ n := if_neg (by omega)

/-- A value below `2^n` is its two's-complement reading modulo `2^n` (40_bitreader.md R125). -/
theorem sext_emod {n v : Nat} (h : v < 2 ^ n) : sext n v % 2 ^ n = v := by
  have hv : ((v : Int)) % 2 ^ n = v := Int.emod_eq_of_lt (by positivity) (by exact_mod_cast h)
  rcases Nat.lt_or_ge v (2 ^ (n - 1)) with h1 | h1
  · rw [sext_of_lt h1, hv]
  · rw [sext_of_le h1, Int.sub_emod_right, hv]

end Sys2Proof

namespace Sys2Proof.Machine

/-! ### The reader -/

@[simp] theorem Reader.rem_load (buf : Bytes) : (Reader.load buf).rem = 8 * buf.length := rfl

@[simp] theorem Reader.rem_take (r : Reader) (n : Nat) : (r.take n).2.rem = r.rem - n := by
  simp [Reader.rem]
  omega

/-- Everything `RDU n` can do (40_bitreader.md R121, R127, R128). -/
theorem Reader.rdu_cases (r : Reader) (n : Nat) :
    ((n < 1 ∨ 64 < n) ∧ r.rdu n = .error (.eArg n)) ∨
    (1 ≤ n ∧ n ≤ 64 ∧ r.rem < n ∧ r.rdu n = .error (.eRange n)) ∨
    (1 ≤ n ∧ n ≤ 64 ∧ n ≤ r.rem ∧
      r.rdu n = .ok (bitRead r.buf r.pos n, { r with pos := r.pos + n })) := by
  by_cases h : n < 1 ∨ 64 < n
  · exact .inl ⟨h, if_pos h⟩
  · by_cases h2 : r.rem < n
    · exact .inr (.inl ⟨by omega, by omega, h2, (if_neg h).trans (if_pos h2)⟩)
    · exact .inr (.inr ⟨by omega, by omega, by omega, (if_neg h).trans (if_neg h2)⟩)

/-- Everything `RDS n` can do (40_bitreader.md R122). -/
theorem Reader.rds_cases (r : Reader) (n : Nat) :
    ((n < 1 ∨ 64 < n) ∧ r.rds n = .error (.eArg n)) ∨
    (1 ≤ n ∧ n ≤ 64 ∧ r.rem < n ∧ r.rds n = .error (.eRange n)) ∨
    (1 ≤ n ∧ n ≤ 64 ∧ n ≤ r.rem ∧
      r.rds n = .ok (sext n (bitRead r.buf r.pos n), { r with pos := r.pos + n })) := by
  obtain ⟨h, e⟩ | ⟨h1, h2, h3, e⟩ | ⟨h1, h2, h3, e⟩ := r.rdu_cases n
  · exact .inl ⟨h, by simp [Reader.rds, e]⟩
  · exact .inr (.inl ⟨h1, h2, h3, by simp [Reader.rds, e]⟩)
  · exact .inr (.inr ⟨h1, h2, h3, by simp [Reader.rds, e]⟩)

/-- `r'` is `r` after some reads: the same buffer, the cursor no less, and still within the buffer if it was. -/
def Reader.Reaches (r r' : Reader) : Prop :=
  r'.buf = r.buf ∧ r.pos ≤ r'.pos ∧ (r.pos ≤ 8 * r.buf.length → r'.pos ≤ 8 * r.buf.length)

theorem Reader.Reaches.refl (r : Reader) : r.Reaches r := ⟨rfl, le_refl _, id⟩

theorem Reader.Reaches.trans {r s t : Reader} (h : r.Reaches s) (k : s.Reaches t) : r.Reaches t := by
  obtain ⟨h1, h2, h3⟩ := h
  obtain ⟨k1, k2, k3⟩ := k
  rw [h1] at k1 k3
  exact ⟨k1, h2.trans k2, fun hr => k3 (h3 hr)⟩

theorem Reader.reaches_take {r : Reader} {n : Nat} (h : n ≤ r.rem) : r.Reaches (r.take n).2 := by
  refine ⟨rfl, Nat.le_add_right _ _, fun hr => ?_⟩
  simp only [Reader.rem, Reader.take_pos] at *
  omega

/-- Everything `CRC.CALC` can do (41_crc24q.md R143, R144). -/
theorem crcCalc_cases (buf : Bytes) (off len : Nat) :
    (buf.length < off + len ∧ crcCalc buf off len = .error (.eBounds off len)) ∨
    (off + len ≤ buf.length ∧ crcCalc buf off len = .ok (crcOf ((buf.drop off).take len))) := by
  by_cases h : buf.length < off + len
  · exact .inl ⟨h, by simp [crcCalc, h]⟩
  · exact .inr ⟨by omega, by simp [crcCalc, h]⟩

end Sys2Proof.Machine
end

