-- ==== Sys2Proof/Laws/Crc.lean ====
section
/-! SUPPORT. The CRC-24Q generator: the fold over the bytes, and the bit step as a 24-bit shift. -/

namespace Sys2Proof.Machine

@[simp] theorem crcBytes_nil (a : Crc) : crcBytes a [] = a := rfl
@[simp] theorem crcBytes_cons (a : Crc) (b : Byte) (bs : Bytes) :
    crcBytes a (b :: bs) = crcBytes (crcByte a b) bs := rfl

theorem crcBytes_append (a : Crc) (M N : Bytes) : crcBytes a (M ++ N) = crcBytes (crcBytes a M) N :=
  List.foldl_append

/-- The bit step without its 25th bit (90_conflicts.md C4): shift, and the low 24 bits of the polynomial when the bit
shifted out was set. -/
theorem crcBit_eq (a : Crc) : crcBit a = (a <<< 1) ^^^ (if a.getLsbD 23 then 0x864CFB else 0) := by
  have hb : (a.setWidth 25 <<< 1).getLsbD 24 = a.getLsbD 23 := by simp
  have hs : ((a.setWidth 25 <<< 1).setWidth 24 : Crc) = a <<< 1 := by
    ext i hi
    simp
  have hp : (crcPoly.setWidth 24 : Crc) = 0x864CFB := rfl
  have hm : ((0xFFFFFF : BitVec 25).setWidth 24 : Crc) = BitVec.allOnes 24 := rfl
  simp only [crcBit, hb]
  cases a.getLsbD 23 <;> simp only [BitVec.setWidth_and, hm, BitVec.and_allOnes, if_true, if_false,
    Bool.false_eq_true, BitVec.setWidth_xor, hs, hp]
  simp

/-- The bit step is linear (41_crc24q.md R147). -/
theorem crcBit_xor (a b : Crc) : crcBit (a ^^^ b) = crcBit a ^^^ crcBit b := by
  rw [crcBit_eq, crcBit_eq, crcBit_eq, BitVec.shiftLeft_xor_distrib, BitVec.getLsbD_xor]
  have hp (x y p : Crc) : x ^^^ p ^^^ (y ^^^ p) = x ^^^ y := by
    rw [BitVec.xor_assoc, BitVec.xor_comm y p, ← BitVec.xor_assoc p, BitVec.xor_self, BitVec.zero_xor]
  cases a.getLsbD 23 <;> cases b.getLsbD 23
  · simp
  · simp [BitVec.xor_assoc]
  · simp [BitVec.xor_assoc, BitVec.xor_comm (b <<< 1)]
  · simp [hp]

theorem crcBits_xor (k : Nat) (a b : Crc) : crcBits k (a ^^^ b) = crcBits k a ^^^ crcBits k b := by
  induction k generalizing a b with
  | zero => rfl
  | succ k ih => rw [crcBits, crcBit_xor, ih]; rfl

end Sys2Proof.Machine
end

