-- ==== Sys2Proof/Laws/FrameSync.lean ====
section
/-! SUPPORT. The frame header, and everything that the synchronizer's loop can do. -/

namespace Sys2Proof

/-- The header length as the two low bits of byte 1 above byte 2 (30_encoding.md R81). -/
theorem headerLength_eq (b1 b2 : Byte) : headerLength b1 b2 = b1.toNat % 4 * 256 + b2.toNat := by
  have h1 : (b1 &&& 0x03).toNat = b1.toNat % 4 := by
    simpa using Nat.and_two_pow_sub_one_eq_mod b1.toNat 2
  have h2 : b2.toNat < 2 ^ 8 := b2.isLt
  rw [headerLength, h1, ← Nat.shiftLeft_add_eq_or_of_lt h2, Nat.shiftLeft_eq]

theorem headerLength_le (b1 b2 : Byte) : headerLength b1 b2 ≤ 1023 := by
  have h2 : b2.toNat < 2 ^ 8 := b2.isLt
  rw [headerLength_eq]
  omega

/-- A buffer has no preamble, or splits before its first. -/
theorem preamble_split (acc : Bytes) :
    (∀ b ∈ acc, b ≠ preamble) ∨ ∃ pre rest, (∀ b ∈ pre, b ≠ preamble) ∧ acc = pre ++ preamble :: rest := by
  induction acc with
  | nil => exact .inl (by simp)
  | cons b acc ih =>
    by_cases hb : b = preamble
    · exact .inr ⟨[], acc, by simp, by simp [hb]⟩
    · obtain h | ⟨pre, rest, hp, rfl⟩ := ih
      · exact .inl (by simpa [hb] using h)
      · exact .inr ⟨b :: pre, rest, by simpa [hb] using hp, rfl⟩

theorem dropWhile_noise {pre : Bytes} (h : ∀ b ∈ pre, b ≠ preamble) (rest : Bytes) :
    (pre ++ rest).dropWhile (· != preamble) = rest.dropWhile (· != preamble) := by
  induction pre with
  | nil => rfl
  | cons b pre ih =>
    simp only [List.mem_cons, forall_eq_or_imp] at h
    simp [h.1, ih h.2]

end Sys2Proof

namespace Sys2Proof.Machine

/-! ### One iteration of the loop -/

theorem fsLoop_noise {pre : Bytes} (h : ∀ b ∈ pre, b ≠ preamble) (fuel : Nat) (rest : Bytes) :
    fsLoop fuel.succ (pre ++ rest) = fsLoop fuel.succ rest := by
  simp only [fsLoop, dropWhile_noise h]

theorem fsLoop_nil (fuel : Nat) : fsLoop fuel [] = ([], []) := by cases fuel <;> rfl

/-- Step 4 (42_framesync.md R164). -/
theorem fsLoop_header {rest : Bytes} (h : rest.length < 2) (fuel : Nat) :
    fsLoop fuel.succ (preamble :: rest) = ([], preamble :: rest) := by
  have h' : rest.length + 1 < 3 := by omega
  simp [fsLoop, h']

/-- Step 6 (42_framesync.md R166). -/
theorem fsLoop_wait {b1 b2 : Byte} {rest : Bytes} (h : rest.length < headerLength b1 b2 + 3) (fuel : Nat) :
    fsLoop fuel.succ (preamble :: b1 :: b2 :: rest) = ([], preamble :: b1 :: b2 :: rest) := by
  have h' : rest.length + 1 + 1 + 1 < headerLength b1 b2 + 6 := by omega
  simp [fsLoop, h']

/-- Steps 7 and 8 (42_framesync.md R167, R168). -/
theorem fsLoop_emit {b1 b2 : Byte} {body : Bytes} (h : body.length = headerLength b1 b2 + 3) (rest : Bytes)
    (fuel : Nat) :
    fsLoop fuel.succ (preamble :: b1 :: b2 :: (body ++ rest)) =
      (extractFrame (preamble :: b1 :: b2 :: body) (headerLength b1 b2) :: (fsLoop fuel rest).1,
        (fsLoop fuel rest).2) := by
  have h1 : (preamble :: b1 :: b2 :: (body ++ rest)).take (headerLength b1 b2 + 6) = preamble :: b1 :: b2 :: body := by
    simp [← h]
  have h2 : (preamble :: b1 :: b2 :: (body ++ rest)).drop (headerLength b1 b2 + 6) = rest := by
    simp [← h]
  have h3 : ¬ (body ++ rest).length + 1 + 1 + 1 < headerLength b1 b2 + 6 := by
    simp only [List.length_append]
    omega
  have h4 : ¬ (body ++ rest).length + 1 + 1 + 1 < 3 := by omega
  have hd : (preamble :: b1 :: b2 :: (body ++ rest)).dropWhile (· != preamble) =
      preamble :: b1 :: b2 :: (body ++ rest) := by simp
  simp only [fsLoop, hd, List.length_cons, h4, if_false, List.getD_cons_succ, List.getD_cons_zero, h3, h1, h2]

/-- Everything that an accumulator can be at the head of an iteration (42_framesync.md R162 to R168). -/
theorem acc_cases (acc : Bytes) :
    (∀ b ∈ acc, b ≠ preamble) ∨
    ∃ pre rest, (∀ b ∈ pre, b ≠ preamble) ∧ acc = pre ++ preamble :: rest ∧
      (rest.length < 2 ∨
       ∃ b1 b2 body, rest = b1 :: b2 :: body ∧
        (body.length < headerLength b1 b2 + 3 ∨
         ∃ frame left, body = frame ++ left ∧ frame.length = headerLength b1 b2 + 3)) := by
  obtain h | ⟨pre, rest, hp, rfl⟩ := preamble_split acc
  · exact .inl h
  · refine .inr ⟨pre, rest, hp, rfl, ?_⟩
    match rest with
    | [] => exact .inl (by simp)
    | [_] => exact .inl (by simp)
    | b1 :: b2 :: body =>
      refine .inr ⟨b1, b2, body, rfl, ?_⟩
      by_cases hb : body.length < headerLength b1 b2 + 3
      · exact .inl hb
      · refine .inr ⟨body.take (headerLength b1 b2 + 3), body.drop (headerLength b1 b2 + 3), by simp, ?_⟩
        simp only [List.length_take]
        omega

/-! ### The loop on a whole accumulator -/

/-- Every fuel above the accumulator's length gives the same result (42_framesync.md R170). -/
theorem fsLoop_fuel (n fuel : Nat) (acc : Bytes) (hn : acc.length ≤ n) (hf : n < fuel) :
    fsLoop fuel acc = fsScan acc := by
  induction n using Nat.strong_induction_on generalizing acc fuel with
  | _ n ih =>
    obtain ⟨fuel, rfl⟩ : ∃ f, fuel = Nat.succ f := ⟨fuel - 1, by omega⟩
    unfold fsScan
    obtain h | ⟨pre, rest, hp, rfl, hr⟩ := acc_cases acc
    · rw [show acc = acc ++ [] by simp, fsLoop_noise h, fsLoop_noise h, fsLoop_nil, fsLoop_nil]
    · rw [fsLoop_noise hp, fsLoop_noise hp]
      obtain h | ⟨b1, b2, body, rfl, h | ⟨frame, left, rfl, h⟩⟩ := hr
      · rw [fsLoop_header h, fsLoop_header h]
      · rw [fsLoop_wait h, fsLoop_wait h]
      · simp only [List.length_append, List.length_cons] at hn
        rw [fsLoop_emit h, fsLoop_emit h, ih left.length (by omega) fuel left le_rfl (by omega),
          ih left.length (by omega) _ left le_rfl (by simp only [List.length_append, List.length_cons]; omega)]

@[simp] theorem fsScan_nil : fsScan [] = ([], []) := rfl

theorem fsScan_noise {pre : Bytes} (h : ∀ b ∈ pre, b ≠ preamble) (rest : Bytes) :
    fsScan (pre ++ rest) = fsScan rest := by
  rw [← fsLoop_fuel _ ((pre ++ rest).length).succ rest le_rfl (by simp), ← fsLoop_noise h]
  rfl

theorem fsScan_discard {acc : Bytes} (h : ∀ b ∈ acc, b ≠ preamble) : fsScan acc = ([], []) := by
  simpa using fsScan_noise h []

theorem fsScan_header {rest : Bytes} (h : rest.length < 2) : fsScan (preamble :: rest) = ([], preamble :: rest) :=
  fsLoop_header h _

theorem fsScan_wait {b1 b2 : Byte} {rest : Bytes} (h : rest.length < headerLength b1 b2 + 3) :
    fsScan (preamble :: b1 :: b2 :: rest) = ([], preamble :: b1 :: b2 :: rest) :=
  fsLoop_wait h _

theorem fsScan_emit {b1 b2 : Byte} {body : Bytes} (h : body.length = headerLength b1 b2 + 3) (rest : Bytes) :
    fsScan (preamble :: b1 :: b2 :: (body ++ rest)) =
      (extractFrame (preamble :: b1 :: b2 :: body) (headerLength b1 b2) :: (fsScan rest).1, (fsScan rest).2) := by
  rw [← fsLoop_fuel rest.length (preamble :: b1 :: b2 :: (body ++ rest)).length rest le_rfl
    (by simp only [List.length_append, List.length_cons]; omega)]
  exact fsLoop_emit h rest _

end Sys2Proof.Machine
end

