-- ==== Sys2Proof/Laws/Decode.lean ====
section
/-! SUPPORT. The parts of a word: a number operand, the length field of a header, the trailer, a message number. -/

namespace Sys2Proof

/-- Reading the continuation groups of `n` before `tail` is reading `tail` with `n` accumulated. -/
theorem natFrom_natHigh (fuel n : Nat) (tail rest : Bytes) (h : n ≤ fuel) :
    natFrom 0 (natHigh fuel n tail ++ rest) = natFrom n (tail ++ rest) := by
  induction fuel generalizing n tail with
  | zero => simp [natHigh, show n = 0 by omega]
  | succ fuel ih =>
    by_cases hn : n = 0
    · simp [natHigh, hn]
    · have hb : (BitVec.ofNat 8 (128 + n % 128)).toNat = 128 + n % 128 := by
        rw [BitVec.toNat_ofNat]
        omega
      have hv : n / 128 * 128 + (128 + n % 128 - 128) = n := by omega
      simp only [natHigh, if_neg hn]
      rw [ih _ _ (by omega), List.cons_append]
      simp only [natFrom, hb, if_neg (show ¬ 128 + n % 128 < 128 by omega), hv]

/-- A number operand reads back as the number, and what follows it is left (log entry 1). -/
theorem natFrom_natBytes (n : Nat) (rest : Bytes) : natFrom 0 (natBytes n ++ rest) = some (n, rest) := by
  have hb : (BitVec.ofNat 8 (n % 128)).toNat = n % 128 := by
    rw [BitVec.toNat_ofNat]
    omega
  have hv : n / 128 * 128 + n % 128 = n := by omega
  rw [natBytes, natFrom_natHigh _ _ _ _ (by omega), List.singleton_append]
  simp only [natFrom, hb, if_pos (show n % 128 < 128 by omega), hv]

/-- The header's two length bytes hold a length of up to ten bits, whatever the reserved bits (30_encoding.md R81,
R82). -/
theorem headerLength_headerBytes (reserved : BitVec 6) {len : Nat} (h : len ≤ 1023) :
    headerLength (BitVec.ofNat 8 (reserved.toNat * 4 + len / 256 % 4)) (BitVec.ofNat 8 len) = len := by
  have := reserved.isLt
  rw [headerLength_eq, BitVec.toNat_ofNat, BitVec.toNat_ofNat]
  omega

/-- The three trailer bytes read back as the check value (30_encoding.md R84). -/
theorem memRead_trailerBytes (pre : Bytes) (crc : Crc) :
    BitVec.ofNat 24 (memRead (pre ++ trailerBytes crc) pre.length 3) = crc := by
  have h0 : (pre ++ trailerBytes crc).getD pre.length 0 = crc.extractLsb' 16 8 := by
    simp [trailerBytes, List.getD_eq_getElem?_getD]
  have h1 : (pre ++ trailerBytes crc).getD (pre.length + 1) 0 = crc.extractLsb' 8 8 := by
    simp [trailerBytes, List.getD_eq_getElem?_getD]
  have h2 : (pre ++ trailerBytes crc).getD (pre.length + 2) 0 = crc.extractLsb' 0 8 := by
    simp [trailerBytes, List.getD_eq_getElem?_getD]
  have := crc.isLt
  apply BitVec.eq_of_toNat_eq
  simp only [memRead, Nat.add_zero, h0, h1, h2, BitVec.toNat_ofNat, BitVec.extractLsb'_toNat, Nat.shiftRight_eq_div_pow]
  omega

/-- Everything a payload can decode to (30_encoding.md R89, R91, R92). -/
theorem decodePayload_cases (P : Params) (crcValid : Bool) (p : Bytes) :
    (p.length < 2 ∧ decodePayload P crcValid p = .runt p crcValid) ∨
    (2 ≤ p.length ∧ isRegistered P (msgnum p) = false ∧ decodePayload P crcValid p = .unsupported p) ∨
    (2 ≤ p.length ∧ isRegistered P (msgnum p) = true ∧
      ((∃ mk, messageInstr (msgnum p) = some mk ∧ decodePayload P crcValid p = mk p) ∨
       (messageInstr (msgnum p) = none ∧
         decodePayload P crcValid p = .decDecode (BitVec.ofNat 12 (msgnum p)) p))) := by
  by_cases hl : p.length < 2
  · exact .inl ⟨hl, if_pos hl⟩
  · cases hr : isRegistered P (msgnum p) with
    | false => exact .inr (.inl ⟨by omega, rfl, by simp [decodePayload, hl, hr]⟩)
    | true =>
      refine .inr (.inr ⟨by omega, rfl, ?_⟩)
      cases hm : messageInstr (msgnum p) with
      | some mk => exact .inl ⟨mk, rfl, by simp [decodePayload, hl, hr, hm]⟩
      | none => exact .inr ⟨rfl, by simp [decodePayload, hl, hr, hm]⟩

/-- A payload of a registered number decodes to that number's instruction (30_encoding.md R89). -/
theorem decode_numbered {P : Params} {n : Nat} {p : Bytes} {mk : Bytes → Instr} (hn : messageInstr n = some mk)
    (hp : numbered P n p = true) (crcValid : Bool) : decode P (.payload crcValid p) = .ok (mk p) := by
  simp only [numbered, Bool.and_eq_true, decide_eq_true_eq, beq_iff_eq] at hp
  obtain ⟨⟨h2, rfl⟩, hr⟩ := hp
  have hl : ¬ p.length < 2 := by omega
  simp only [decode, decodePayload, hl, if_false, hr, if_true, hn]

end Sys2Proof
end

