-- ==== Sys2Proof/Laws/Decoders.lean ====
section
/-! SUPPORT. The decoders' procedures: each only moves the reader forward within its buffer, and records the same names
whatever the payload. -/

namespace Sys2Proof.Machine

@[simp] theorem layoutKeys_nil : layoutKeys [] = [] := rfl
@[simp] theorem layoutKeys_cons (f : FieldSpec) (fs : List FieldSpec) :
    layoutKeys (f :: fs) = fieldKeys f ++ layoutKeys fs := rfl
@[simp] theorem absentRow_keys (keys : List Key) : (absentRow keys).map Prod.fst = keys := by
  simp [absentRow, Function.comp_def]
@[simp] theorem rowFields_keys (row : Row) : (rowFields row).map Prod.fst = row.map Prod.fst := by
  simp [rowFields, Function.comp_def]
@[simp] theorem epilogue_keys (p : Partial Fields) :
    (epilogue p).map Prod.fst = p.out.map Prod.fst ++ [.truncated, .bitsRemaining] := by
  simp [epilogue]

/-! ### One field -/

/-- Everything a numeric field can do (43_mux_fixed.md R184). -/
theorem readField_num (kind : NumKind) (key : Key) (width : Nat) (r : Reader) :
    (r.rem < width ∧ readField (.num kind key width) r = ⟨[(key, .absent)], r, true⟩) ∨
    (width ≤ r.rem ∧ readField (.num kind key width) r =
      ⟨[(key, numValue kind width (bitRead r.buf r.pos width))], (r.take width).2, false⟩) := by
  by_cases h : r.rem < width
  · exact .inl ⟨h, if_pos h⟩
  · exact .inr ⟨by omega, if_neg h⟩

/-- Everything a skipped field can do (30_encoding.md R102). -/
theorem readField_skip (width : Nat) (r : Reader) :
    (r.rem < width ∧ readField (.skip width) r = ⟨[], r, true⟩) ∨
    (width ≤ r.rem ∧ readField (.skip width) r = ⟨[], (r.take width).2, false⟩) := by
  by_cases h : r.rem < width
  · exact .inl ⟨h, if_pos h⟩
  · exact .inr ⟨by omega, if_neg h⟩

theorem readChars_reaches (count : Nat) (r : Reader) (h : 8 * count ≤ r.rem) : r.Reaches (readChars count r).2 := by
  induction count generalizing r with
  | zero => exact .refl r
  | succ count ih =>
    exact (Reader.reaches_take (by omega)).trans (ih _ (by rw [Reader.rem_take]; omega))

theorem readChars_rem (count : Nat) (r : Reader) : (readChars count r).2.rem = r.rem - 8 * count := by
  induction count generalizing r with
  | zero => rfl
  | succ count ih =>
    simp only [readChars, ih, Reader.rem_take]
    omega

theorem readChars_length (count : Nat) (r : Reader) : (readChars count r).1.length = count := by
  induction count generalizing r with
  | zero => rfl
  | succ count ih => simp [readChars, ih]

/-- Everything a string can do: its count does not fit, its characters do not fit, or both are read
(30_encoding.md R88, 92_eei_decisions.md D15). -/
theorem readField_str (lenKey key : Key) (r : Reader) :
    (r.rem < 8 ∧ readField (.str lenKey key) r = ⟨[(lenKey, .absent), (key, .absent)], r, true⟩) ∨
    (8 ≤ r.rem ∧ r.rem - 8 < 8 * bitRead r.buf r.pos 8 ∧ readField (.str lenKey key) r =
      ⟨[(lenKey, .uint (bitRead r.buf r.pos 8)), (key, .absent)], (r.take 8).2, true⟩) ∨
    (8 ≤ r.rem ∧ 8 * bitRead r.buf r.pos 8 ≤ r.rem - 8 ∧ readField (.str lenKey key) r =
      ⟨[(lenKey, .uint (bitRead r.buf r.pos 8)), (key, .str (readChars (bitRead r.buf r.pos 8) (r.take 8).2).1)],
        (readChars (bitRead r.buf r.pos 8) (r.take 8).2).2, false⟩) := by
  by_cases h : r.rem < 8
  · exact .inl ⟨h, if_pos h⟩
  · by_cases h2 : (r.take 8).2.rem < 8 * (r.take 8).1
    · exact .inr (.inl ⟨by omega, by simpa using h2, (if_neg h).trans (if_pos h2)⟩)
    · exact .inr (.inr ⟨by omega, by simpa using h2, (if_neg h).trans (if_neg h2)⟩)

theorem readField_reaches (f : FieldSpec) (r : Reader) : r.Reaches (readField f r).reader := by
  cases f with
  | num kind key width =>
    obtain ⟨_, e⟩ | ⟨h, e⟩ := readField_num kind key width r
    · rw [e]; exact .refl r
    · rw [e]; exact Reader.reaches_take h
  | skip width =>
    obtain ⟨_, e⟩ | ⟨h, e⟩ := readField_skip width r
    · rw [e]; exact .refl r
    · rw [e]; exact Reader.reaches_take h
  | str lenKey key =>
    obtain ⟨_, e⟩ | ⟨h, _, e⟩ | ⟨h, h2, e⟩ := readField_str lenKey key r
    · rw [e]; exact .refl r
    · rw [e]; exact Reader.reaches_take h
    · rw [e]; exact (Reader.reaches_take h).trans (readChars_reaches _ _ (by simpa using h2))

theorem readField_keys (f : FieldSpec) (r : Reader) : (readField f r).out.map Prod.fst = fieldKeys f := by
  cases f with
  | num kind key width => obtain ⟨_, e⟩ | ⟨_, e⟩ := readField_num kind key width r <;> simp [e, fieldKeys]
  | skip width => obtain ⟨_, e⟩ | ⟨_, e⟩ := readField_skip width r <;> simp [e, fieldKeys]
  | str lenKey key =>
    obtain ⟨_, e⟩ | ⟨_, _, e⟩ | ⟨_, _, e⟩ := readField_str lenKey key r <;> simp [e, fieldKeys]

/-! ### Sequences and rows -/

theorem decodeSeq_nil (r : Reader) : decodeSeq [] r = ⟨[], r, false⟩ := rfl

/-- Everything the first field of a sequence can do to the rest (43_mux_fixed.md R184). -/
theorem decodeSeq_cons (f : FieldSpec) (fs : List FieldSpec) (r : Reader) :
    ((readField f r).truncated = true ∧
      decodeSeq (f :: fs) r = ⟨(readField f r).out ++ absentRow (layoutKeys fs), (readField f r).reader, true⟩) ∨
    ((readField f r).truncated = false ∧
      decodeSeq (f :: fs) r =
        ⟨(readField f r).out ++ (decodeSeq fs (readField f r).reader).out, (decodeSeq fs (readField f r).reader).reader,
          (decodeSeq fs (readField f r).reader).truncated⟩) := by
  cases h : (readField f r).truncated with
  | true => exact .inl ⟨rfl, by simp [decodeSeq, h]⟩
  | false => exact .inr ⟨rfl, by simp [decodeSeq, h]⟩

theorem decodeSeq_reaches (fs : List FieldSpec) (r : Reader) : r.Reaches (decodeSeq fs r).reader := by
  induction fs generalizing r with
  | nil => exact .refl r
  | cons f fs ih =>
    obtain ⟨_, e⟩ | ⟨_, e⟩ := decodeSeq_cons f fs r
    · rw [e]; exact readField_reaches f r
    · rw [e]; exact (readField_reaches f r).trans (ih _)

theorem decodeSeq_keys (fs : List FieldSpec) (r : Reader) : (decodeSeq fs r).out.map Prod.fst = layoutKeys fs := by
  induction fs generalizing r with
  | nil => rfl
  | cons f fs ih =>
    obtain ⟨_, e⟩ | ⟨_, e⟩ := decodeSeq_cons f fs r
    · simp [e, readField_keys]
    · simp [e, readField_keys, ih]

/-- Everything the head of a repeating block can do: the row does not fit, or it is read and the block goes on
(43_mux_fixed.md R185). -/
theorem decodeRows_succ (layout : List FieldSpec) (count : Nat) (r : Reader) :
    (r.rem < layoutWidth layout ∧ decodeRows layout (count + 1) r = ⟨[], r, true⟩) ∨
    (layoutWidth layout ≤ r.rem ∧
      decodeRows layout (count + 1) r =
        ⟨(decodeSeq layout r).out :: (decodeRows layout count (decodeSeq layout r).reader).out,
          (decodeRows layout count (decodeSeq layout r).reader).reader,
          (decodeRows layout count (decodeSeq layout r).reader).truncated⟩) := by
  by_cases h : r.rem < layoutWidth layout
  · exact .inl ⟨h, if_pos h⟩
  · exact .inr ⟨by omega, if_neg h⟩

theorem decodeRows_reaches (layout : List FieldSpec) (count : Nat) (r : Reader) :
    r.Reaches (decodeRows layout count r).reader := by
  induction count generalizing r with
  | zero => exact .refl r
  | succ count ih =>
    obtain ⟨_, e⟩ | ⟨_, e⟩ := decodeRows_succ layout count r
    · rw [e]; exact .refl r
    · rw [e]; exact (decodeSeq_reaches layout r).trans (ih _)

/-- A block keeps at most the rows its count announces. -/
theorem decodeRows_length (layout : List FieldSpec) (count : Nat) (r : Reader) :
    (decodeRows layout count r).out.length ≤ count := by
  induction count generalizing r with
  | zero => exact le_refl _
  | succ count ih =>
    obtain ⟨_, e⟩ | ⟨_, e⟩ := decodeRows_succ layout count r
    · simp [e]
    · simpa [e] using ih _

/-- Everything the start of a decoder can do (43_mux_fixed.md R184, R188). -/
theorem startSeq_cases (layout : List FieldSpec) (payload : Bytes) :
    (8 * payload.length < 12 ∧
      startSeq layout payload = ⟨absentRow (layoutKeys layout), Reader.load payload, true⟩) ∨
    (12 ≤ 8 * payload.length ∧ startSeq layout payload = decodeSeq layout ⟨payload, 12⟩) := by
  by_cases h : (Reader.load payload).rem < 12
  · exact .inl ⟨h, by simp only [startSeq, prologue, h, if_true]⟩
  · refine .inr ⟨by simpa using h, ?_⟩
    simp only [startSeq, prologue, h, if_false, Bool.false_eq_true]
    rfl

theorem startSeq_reaches (layout : List FieldSpec) (payload : Bytes) :
    (Reader.load payload).Reaches (startSeq layout payload).reader := by
  obtain ⟨_, e⟩ | ⟨h, e⟩ := startSeq_cases layout payload
  · rw [e]; exact .refl _
  · rw [e]
    refine Reader.Reaches.trans (s := ⟨payload, 12⟩) ?_ (decodeSeq_reaches _ _)
    exact Reader.reaches_take (r := Reader.load payload) (n := 12) h

theorem startSeq_keys (layout : List FieldSpec) (payload : Bytes) :
    (startSeq layout payload).out.map Prod.fst = layoutKeys layout := by
  obtain ⟨_, e⟩ | ⟨_, e⟩ := startSeq_cases layout payload
  · rw [e]; simp
  · rw [e]; exact decodeSeq_keys _ _

/-! ### Biases -/

/-- Everything the first field of a mask can do to the rest: its bit is clear, it does not fit, or it is read
(43_mux_fixed.md R192). -/
theorem readBiases_cons (mask k : Nat) (f : FieldSpec) (rest : List (Nat × FieldSpec)) (r : Reader) :
    (mask.testBit k = false ∧ readBiases mask ((k, f) :: rest) r =
      ⟨absentRow (fieldKeys f) ++ (readBiases mask rest r).out, (readBiases mask rest r).reader,
        (readBiases mask rest r).truncated⟩) ∨
    (mask.testBit k = true ∧ (readField f r).truncated = true ∧ readBiases mask ((k, f) :: rest) r =
      ⟨(readField f r).out ++ absentRow (layoutKeys (rest.map Prod.snd)), (readField f r).reader, true⟩) ∨
    (mask.testBit k = true ∧ (readField f r).truncated = false ∧ readBiases mask ((k, f) :: rest) r =
      ⟨(readField f r).out ++ (readBiases mask rest (readField f r).reader).out,
        (readBiases mask rest (readField f r).reader).reader,
        (readBiases mask rest (readField f r).reader).truncated⟩) := by
  cases hk : mask.testBit k with
  | false => exact .inl ⟨rfl, by simp [readBiases, hk]⟩
  | true =>
    cases ht : (readField f r).truncated with
    | true => exact .inr (.inl ⟨rfl, rfl, by simp [readBiases, hk, ht]⟩)
    | false => exact .inr (.inr ⟨rfl, rfl, by simp [readBiases, hk, ht]⟩)

theorem readBiases_keys (mask : Nat) (biases : List (Nat × FieldSpec)) (r : Reader) :
    (readBiases mask biases r).out.map Prod.fst = layoutKeys (biases.map Prod.snd) := by
  induction biases generalizing r with
  | nil => rfl
  | cons b biases ih =>
    obtain ⟨_, e⟩ | ⟨_, _, e⟩ | ⟨_, _, e⟩ := readBiases_cons mask b.1 b.2 biases r <;>
      simp [e, ih, readField_keys]

theorem readBiases_reaches (mask : Nat) (biases : List (Nat × FieldSpec)) (r : Reader) :
    r.Reaches (readBiases mask biases r).reader := by
  induction biases generalizing r with
  | nil => exact .refl r
  | cons b biases ih =>
    obtain ⟨_, e⟩ | ⟨_, _, e⟩ | ⟨_, _, e⟩ := readBiases_cons mask b.1 b.2 biases r <;> rw [e]
    · exact ih r
    · exact readField_reaches b.2 r
    · exact (readField_reaches b.2 r).trans (ih _)

/-! ### Masks -/

/-- Everything a mask can do (44_msm.md R232, R233). -/
theorem readMask_cases (width : Nat) (r : Reader) :
    (r.rem < width ∧ readMask width r = ⟨none, r, true⟩) ∨
    (width ≤ r.rem ∧ readMask width r =
      ⟨some (maskIds width (bitRead r.buf r.pos width)), (r.take width).2, false⟩) := by
  by_cases h : r.rem < width
  · exact .inl ⟨h, if_pos h⟩
  · exact .inr ⟨by omega, if_neg h⟩

theorem readMask_reaches (width : Nat) (r : Reader) : r.Reaches (readMask width r).reader := by
  obtain ⟨_, e⟩ | ⟨h, e⟩ := readMask_cases width r
  · rw [e]; exact .refl r
  · rw [e]; exact Reader.reaches_take h

/-- The identifiers of a mask lie in 1..width and rise strictly (44_msm.md R232). -/
theorem maskIds_mem {width m i : Nat} (h : i ∈ maskIds width m) : 1 ≤ i ∧ i ≤ width := by
  simp only [maskIds, List.mem_filter, List.mem_range'_1] at h
  omega

theorem maskIds_sorted (width m : Nat) : (maskIds width m).Pairwise (· < ·) :=
  (List.pairwise_lt_range').filter _

@[simp] theorem cellPairs_length (sats sigs : List Nat) :
    (cellPairs sats sigs).length = sats.length * sigs.length := by
  simp [cellPairs]

theorem readActive_pos (pairs : List (Nat × Nat)) (r : Reader) :
    (readActive pairs r).2 = { r with pos := r.pos + pairs.length } := by
  induction pairs generalizing r with
  | nil => rfl
  | cons pair pairs ih => simp [readActive, ih, Reader.take, Nat.add_assoc, Nat.add_comm 1]

/-- Everything a cell mask can do (44_msm.md R234). -/
theorem readCellMask_cases (sats sigs : List Nat) (r : Reader) :
    (r.rem < sats.length * sigs.length ∧ readCellMask sats sigs r = ⟨none, r, true⟩) ∨
    (sats.length * sigs.length ≤ r.rem ∧ readCellMask sats sigs r =
      ⟨some (readActive (cellPairs sats sigs) r).1, { r with pos := r.pos + sats.length * sigs.length }, false⟩) := by
  by_cases h : r.rem < sats.length * sigs.length
  · exact .inl ⟨h, if_pos h⟩
  · exact .inr ⟨by omega, by
      have e := readActive_pos (cellPairs sats sigs) r
      rw [cellPairs_length] at e
      rw [readCellMask, if_neg h, ← e]⟩

theorem readCellMask_reaches (sats sigs : List Nat) (r : Reader) : r.Reaches (readCellMask sats sigs r).reader := by
  obtain ⟨_, e⟩ | ⟨h, e⟩ := readCellMask_cases sats sigs r
  · rw [e]; exact .refl r
  · rw [e]; exact Reader.reaches_take h

theorem readMasks_reaches (r : Reader) : r.Reaches (readMasks r).reader := by
  unfold readMasks
  dsimp only
  split
  · exact readMask_reaches 64 r
  · split
    · exact (readMask_reaches 64 r).trans (readMask_reaches 32 _)
    · exact ((readMask_reaches 64 r).trans (readMask_reaches 32 _)).trans (readCellMask_reaches _ _ _)

/-! ### MSM data -/

@[simp] theorem rowWidth_nil (k : Nat) : rowWidth [] k = 0 := rfl
@[simp] theorem rowWidth_cons (f : MsmField) (fs : List MsmField) (k : Nat) :
    rowWidth (f :: fs) k = msmWidth f k + rowWidth fs k := by
  simp [rowWidth]

theorem msmWidth_outside (f : MsmField) {k : Nat} (h : ¬ (1 ≤ k ∧ k ≤ 7)) : msmWidth f k = 0 := if_neg h

/-- A data row moves the cursor by the row's width (44_msm.md R235, R236). -/
theorem readMsmRow_reader (k : Nat) (fields : List MsmField) (r : Reader) :
    (readMsmRow k fields r).2 = { r with pos := r.pos + rowWidth fields k } := by
  induction fields generalizing r with
  | nil => rfl
  | cons f fs ih =>
    unfold readMsmRow
    split
    · next h => simp [ih, h]
    · simp [ih, readNum, Reader.take, Nat.add_assoc]

theorem readMsmRow_keys (k : Nat) (fields : List MsmField) (r : Reader) :
    (readMsmRow k fields r).1.map Prod.fst = fields.map MsmField.key := by
  induction fields generalizing r with
  | nil => rfl
  | cons f fs ih =>
    unfold readMsmRow
    split <;> simp [ih]

/-- Everything the head of a row-major block can do (44_msm.md R236). -/
theorem readMsmRows_cons (k : Nat) (fields : List MsmField) (id : Row) (ids : List Row) (r : Reader) :
    (r.rem < rowWidth fields k ∧ readMsmRows k fields (id :: ids) r = ⟨[], r, true⟩) ∨
    (rowWidth fields k ≤ r.rem ∧ readMsmRows k fields (id :: ids) r =
      ⟨(id ++ (readMsmRow k fields r).1) ::
          (readMsmRows k fields ids { r with pos := r.pos + rowWidth fields k }).out,
        (readMsmRows k fields ids { r with pos := r.pos + rowWidth fields k }).reader,
        (readMsmRows k fields ids { r with pos := r.pos + rowWidth fields k }).truncated⟩) := by
  by_cases h : r.rem < rowWidth fields k
  · exact .inl ⟨h, if_pos h⟩
  · exact .inr ⟨by omega, by
      rw [readMsmRows, if_neg h, ← readMsmRow_reader k fields r]⟩

theorem readMsmRows_reaches (k : Nat) (fields : List MsmField) (ids : List Row) (r : Reader) :
    r.Reaches (readMsmRows k fields ids r).reader := by
  induction ids generalizing r with
  | nil => exact .refl r
  | cons id ids ih =>
    obtain ⟨_, e⟩ | ⟨h, e⟩ := readMsmRows_cons k fields id ids r
    · rw [e]; exact .refl r
    · rw [e]; exact (Reader.reaches_take h).trans (ih _)

/-- Everything the head of a column can do (44_msm.md R238). -/
theorem readColumn_succ (kind : NumKind) (width count : Nat) (r : Reader) :
    (r.rem < width ∧ readColumn kind width (count + 1) r = ⟨List.replicate (count + 1) .absent, r, true⟩) ∨
    (width ≤ r.rem ∧ readColumn kind width (count + 1) r =
      ⟨numValue kind width (bitRead r.buf r.pos width) :: (readColumn kind width count (r.take width).2).out,
        (readColumn kind width count (r.take width).2).reader,
        (readColumn kind width count (r.take width).2).truncated⟩) := by
  by_cases h : r.rem < width
  · exact .inl ⟨h, if_pos h⟩
  · exact .inr ⟨by omega, if_neg h⟩

theorem readColumn_reaches (kind : NumKind) (width count : Nat) (r : Reader) :
    r.Reaches (readColumn kind width count r).reader := by
  induction count generalizing r with
  | zero => exact .refl r
  | succ count ih =>
    obtain ⟨_, e⟩ | ⟨h, e⟩ := readColumn_succ kind width count r
    · rw [e]; exact .refl r
    · rw [e]; exact (Reader.reaches_take h).trans (ih _)

theorem readColumn_length (kind : NumKind) (width count : Nat) (r : Reader) :
    (readColumn kind width count r).out.length = count := by
  induction count generalizing r with
  | zero => rfl
  | succ count ih =>
    obtain ⟨_, e⟩ | ⟨_, e⟩ := readColumn_succ kind width count r
    · simp [e]
    · simp [e, ih]

/-- Everything a column of values of non-zero width can do: the values that fit are read, the others are absent, and
it is truncated when not all fit (44_msm.md R238). -/
theorem readColumn_eq (kind : NumKind) {width : Nat} (hw : 0 < width) (count : Nat) (r : Reader) :
    readColumn kind width count r =
      ⟨(List.range count).map fun a =>
          if (a + 1) * width ≤ r.rem then numValue kind width (bitRead r.buf (r.pos + a * width) width) else .absent,
        { r with pos := r.pos + min count (r.rem / width) * width }, decide (r.rem < count * width)⟩ := by
  induction count generalizing r with
  | zero => simp [readColumn]
  | succ count ih =>
    obtain ⟨h, e⟩ | ⟨h, e⟩ := readColumn_succ kind width count r
    · rw [e, Nat.div_eq_of_lt h]
      have ha : ∀ a, r.rem < (a + 1) * width := fun a => by rw [Nat.succ_mul]; omega
      simp [ha, List.map_const', Nat.not_le.2 (ha _)]
    · have hrem : (r.take width).2.rem = r.rem - width := Reader.rem_take r width
      have hdiv : r.rem / width = (r.rem - width) / width + 1 := by
        rw [← Nat.sub_add_cancel h, Nat.add_div_right _ hw, Nat.add_sub_cancel]
      have hfit : ∀ a, (a + 1) * width ≤ r.rem - width ↔ (a + 1 + 1) * width ≤ r.rem := fun a => by
        rw [Nat.succ_mul (a + 1)]; omega
      rw [e, ih, hrem, hdiv, Nat.add_min_add_right]
      simp only [Partial.mk.injEq]
      refine ⟨?_, ?_, ?_⟩
      · rw [List.range_succ_eq_map, List.map_cons, List.map_map]
        congr 1
        · simp [h]
        · refine List.map_congr_left fun a _ => ?_
          simp only [Function.comp_apply, Nat.succ_eq_add_one, ← hfit, Reader.take]
          rw [show r.pos + width + a * width = r.pos + (a + 1) * width by rw [Nat.succ_mul]; omega]
      · simp only [Reader.take, Nat.succ_mul, Nat.add_assoc, Nat.add_comm width]
      · rw [decide_eq_decide, Nat.succ_mul]; omega

/-- Everything the first field of a field-major block can do to the rest: it has no bits, its column is truncated and
nothing more is read, or the block goes on after it (44_msm.md R238, R239). -/
theorem readColumns_cons (k count : Nat) (f : MsmField) (fs : List MsmField) (r : Reader) :
    (msmWidth f k = 0 ∧ readColumns k count (f :: fs) r =
      ⟨(f.key, List.replicate count .absent) :: (readColumns k count fs r).out, (readColumns k count fs r).reader,
        (readColumns k count fs r).truncated⟩) ∨
    (0 < msmWidth f k ∧ (readColumn f.kind (msmWidth f k) count r).truncated = true ∧
      readColumns k count (f :: fs) r =
        ⟨(f.key, (readColumn f.kind (msmWidth f k) count r).out) ::
            fs.map (fun g => (g.key, List.replicate count .absent)),
          (readColumn f.kind (msmWidth f k) count r).reader, true⟩) ∨
    (0 < msmWidth f k ∧ (readColumn f.kind (msmWidth f k) count r).truncated = false ∧
      readColumns k count (f :: fs) r =
        ⟨(f.key, (readColumn f.kind (msmWidth f k) count r).out) ::
            (readColumns k count fs (readColumn f.kind (msmWidth f k) count r).reader).out,
          (readColumns k count fs (readColumn f.kind (msmWidth f k) count r).reader).reader,
          (readColumns k count fs (readColumn f.kind (msmWidth f k) count r).reader).truncated⟩) := by
  rcases Nat.eq_zero_or_pos (msmWidth f k) with h | h
  · exact .inl ⟨h, by simp [readColumns, h]⟩
  · cases ht : (readColumn f.kind (msmWidth f k) count r).truncated with
    | true => exact .inr (.inl ⟨h, rfl, by simp [readColumns, h.ne', ht]⟩)
    | false => exact .inr (.inr ⟨h, rfl, by simp [readColumns, h.ne', ht]⟩)

theorem readColumns_reaches (k count : Nat) (fields : List MsmField) (r : Reader) :
    r.Reaches (readColumns k count fields r).reader := by
  induction fields generalizing r with
  | nil => exact .refl r
  | cons f fs ih =>
    unfold readColumns
    dsimp only
    split
    · exact ih r
    · split
      · exact readColumn_reaches _ _ _ r
      · exact (readColumn_reaches _ _ _ r).trans (ih _)

theorem readColumns_keys (k count : Nat) (fields : List MsmField) (r : Reader) :
    (readColumns k count fields r).out.map Prod.fst = fields.map MsmField.key := by
  induction fields generalizing r with
  | nil => rfl
  | cons f fs ih =>
    unfold readColumns
    dsimp only
    split <;> split <;> simp [ih]

theorem readBlock_reaches (order : MsmOrder) (k : Nat) (fields : List MsmField) (ids : List Row) (r : Reader) :
    r.Reaches (readBlock order k fields ids r).reader := by
  cases order with
  | rowMajor => exact readMsmRows_reaches k fields ids r
  | fieldMajor => exact readColumns_reaches k ids.length fields r

theorem readData_reaches (order : MsmOrder) (L : MsmLayout) (k : Nat) (sats : List Nat) (active : List (Nat × Nat))
    (r : Reader) : r.Reaches (readData order L k sats active r).reader := by
  unfold readData
  dsimp only
  split
  · exact readBlock_reaches _ _ _ _ _
  · exact (readBlock_reaches _ _ _ _ _).trans (readBlock_reaches _ _ _ _ _)

/-! ### The names of a record -/

theorem decodeFixed_keys (layout : List FieldSpec) (payload : Bytes) :
    (decodeFixed layout payload).map Prod.fst = layoutKeys layout ++ [.truncated, .bitsRemaining] := by
  simp [decodeFixed, startSeq_keys]

theorem decodeBias_keys (header : List FieldSpec) (mask : Key) (biases : List (Nat × FieldSpec)) (payload : Bytes) :
    (decodeBias header mask biases payload).map Prod.fst =
      layoutKeys header ++ layoutKeys (biases.map Prod.snd) ++ [.truncated, .bitsRemaining] := by
  simp only [decodeBias, epilogue_keys, rowFields_keys, List.map_append, startSeq_keys]
  split <;> simp [readBiases_keys]

theorem decodeLegacyObs_keys (header : List FieldSpec) (count rows : Key) (row : List FieldSpec) (payload : Bytes) :
    (decodeLegacyObs header count rows row payload).map Prod.fst =
      layoutKeys header ++ [rows, .truncated, .bitsRemaining] := by
  simp [decodeLegacyObs, startSeq_keys]

theorem decodeMsm_keys (order : MsmOrder) (L : MsmLayout) (type : Nat) (payload : Bytes) :
    (decodeMsm order L type payload).map Prod.fst =
      .msmType :: layoutKeys L.header ++
        [.satelliteIds, .signalIds, .activeCells, .satellites, .cells, .truncated, .bitsRemaining] := by
  simp [decodeMsm, startSeq_keys]

/-! ### Dispatch -/

/-- A number has a decoder when it stands in `REGISTERED` (00_scope.md R8). -/
theorem isRegistered_iff (P : Params) (n : Nat) : isRegistered P n = true ↔ ∃ e ∈ P.registered, e.1 = n := by
  rw [isRegistered, List.lookup_isSome_iff]
  exact exists_congr fun e => and_congr_right fun _ => beq_iff_eq.trans eq_comm

/-- The decoder that `REGISTERED` gives a number stands there under that number. -/
theorem lookup_registered {P : Params} {n : Nat} {d : Decoder} (h : P.registered.lookup n = some d) :
    (n, d) ∈ P.registered := by
  obtain ⟨l, r, e, -⟩ := List.lookup_eq_some_iff.1 h
  simp [e]

/-- A decoder of a block's parameters is one the decoders' procedures can run (00_scope.md R8). -/
theorem wellFormed_decoder {P : Params} {n : Nat} {d : Decoder} (hP : P.wellFormed = true)
    (h : P.registered.lookup n = some d) : n < 4096 ∧ d.wellFormed = true := by
  simp only [Params.wellFormed, Bool.and_eq_true, List.all_eq_true, decide_eq_true_eq] at hP
  exact hP.1.2 _ (lookup_registered h)

/-- The names that a layout records are none of the names that records, fallback and runt use themselves. -/
theorem namesDistinct_ne {layout : List FieldSpec} {extra : List Key} (h : namesDistinct layout extra = true) {k : Key}
    (hk : k ∈ layoutKeys layout ++ extra) :
    k ∉ [Key.truncated, .bitsRemaining, .unsupported, .rawPayloadHex, .runt] := by
  simp only [namesDistinct, distinct, decide_eq_true_eq] at h
  have h := List.nodup_append.1 h.of_map
  exact fun hk' => h.2.2 k hk k hk' rfl

/-- Everything `DEC.DECODE` can do (43_mux_fixed.md R183). -/
theorem decodeMessage_cases (P : Params) (type : Nat) (payload : Bytes) :
    (∃ d, P.registered.lookup type = some d ∧ decodeMessage P type payload = runDecoder P type payload d) ∨
    (P.registered.lookup type = none ∧ decodeMessage P type payload = unsupportedRecord payload) := by
  cases h : P.registered.lookup type with
  | some d => exact .inl ⟨d, rfl, by simp [decodeMessage, h]⟩
  | none => exact .inr ⟨rfl, by simp [decodeMessage, h]⟩

/-- Everything `MUX.ROUTE` can do (43_mux_fixed.md R180 to R182). -/
theorem routeFrame_cases (P : Params) (f : RawFrame) :
    (f.payload.length < 2 ∧ routeFrame P f = runtMessage f.payload f.crcValid) ∨
    (2 ≤ f.payload.length ∧ routeFrame P f =
      { messageType := some (BitVec.ofNat 12 (msgnum f.payload)), crcValid := f.crcValid,
        payloadLength := f.payload.length, fields := decodeMessage P (msgnum f.payload) f.payload }) := by
  by_cases h : 8 * f.payload.length < 12
  · exact .inl ⟨by omega, if_pos h⟩
  · exact .inr ⟨by omega, if_neg h⟩

/-- The message number is a value of 12 bits (30_encoding.md R85). -/
theorem msgnum_lt (p : Bytes) : msgnum p < 4096 := bitRead_lt p 0 12

end Sys2Proof.Machine
end

