-- ==== Sys2Proof/Laws/Exec.lean ====
section
/-! SUPPORT. Everything that an instruction can do to the state. -/

namespace Sys2Proof.Machine

theorem execBrRdu_cases {n : Nat} {s t : State} (h : execBrRdu n s = .next t) :
    (∃ e, t = raise e s ∧
      (e = .eArg n ∧ (n < 1 ∨ 64 < n) ∨ e = .eRange n ∧ 1 ≤ n ∧ n ≤ 64 ∧ s.br.rem < n)) ∨
    (1 ≤ n ∧ n ≤ 64 ∧ n ≤ s.br.rem ∧
      t = answer (.nat (bitRead s.br.buf s.br.pos n)) { s with br := { s.br with pos := s.br.pos + n } }) := by
  obtain ⟨h1, e⟩ | ⟨h1, h2, h3, e⟩ | ⟨h1, h2, h3, e⟩ := s.br.rdu_cases n <;> simp only [execBrRdu, e] at h <;> cases h
  · exact .inl ⟨_, rfl, .inl ⟨rfl, h1⟩⟩
  · exact .inl ⟨_, rfl, .inr ⟨rfl, h1, h2, h3⟩⟩
  · exact .inr ⟨h1, h2, h3, rfl⟩

theorem execBrRds_cases {n : Nat} {s t : State} (h : execBrRds n s = .next t) :
    (∃ e, t = raise e s ∧
      (e = .eArg n ∧ (n < 1 ∨ 64 < n) ∨ e = .eRange n ∧ 1 ≤ n ∧ n ≤ 64 ∧ s.br.rem < n)) ∨
    (1 ≤ n ∧ n ≤ 64 ∧ n ≤ s.br.rem ∧
      t = answer (.int (sext n (bitRead s.br.buf s.br.pos n)))
        { s with br := { s.br with pos := s.br.pos + n } }) := by
  obtain ⟨h1, e⟩ | ⟨h1, h2, h3, e⟩ | ⟨h1, h2, h3, e⟩ := s.br.rds_cases n <;> simp only [execBrRds, e] at h <;> cases h
  · exact .inl ⟨_, rfl, .inl ⟨rfl, h1⟩⟩
  · exact .inl ⟨_, rfl, .inr ⟨rfl, h1, h2, h3⟩⟩
  · exact .inr ⟨h1, h2, h3, rfl⟩

theorem execCrcCalc_cases {buf : Bytes} {off len : Nat} {s t : State} (h : execCrcCalc buf off len s = .next t) :
    (buf.length < off + len ∧ t = raise (.eBounds off len) s) ∨
    (off + len ≤ buf.length ∧ t = answer (.crc (crcOf ((buf.drop off).take len))) s) := by
  obtain ⟨h1, e⟩ | ⟨h1, e⟩ := crcCalc_cases buf off len <;> simp only [execCrcCalc, e] at h <;> cases h
  · exact .inl ⟨h1, rfl⟩
  · exact .inr ⟨h1, rfl⟩

/-- Everything an instruction that goes on can do: the seven that touch the state or raise, and the rest, which only
return a result. -/
theorem exec_cases {i : Instr} {s t : State} (h : exec i s = .next t) :
    (∃ buf, i = .brLoad buf ∧ t = answer .unit { s with br := Reader.load buf }) ∨
    (∃ n, i = .brRdu n ∧ execBrRdu n s = .next t) ∨
    (∃ n, i = .brRds n ∧ execBrRds n s = .next t) ∨
    (∃ buf off len, i = .crcCalc buf off len ∧ execCrcCalc buf off len s = .next t) ∨
    (i = .fsReset ∧ t = answer .unit { s with fsAcc := [] }) ∨
    (∃ bytes, i = .fsPush bytes ∧ t = pushBytes bytes s) ∨
    (∃ reserved payload crc, i = .frame reserved payload crc ∧ t = pushBytes (frameBytes reserved payload crc) s) ∨
    (∃ out, t = answer out s) := by
  cases i
  case brLoad => cases h; exact .inl ⟨_, rfl, rfl⟩
  case brRdu => exact .inr (.inl ⟨_, rfl, h⟩)
  case brRds => exact .inr (.inr (.inl ⟨_, rfl, h⟩))
  case crcCalc => exact .inr (.inr (.inr (.inl ⟨_, _, _, rfl, h⟩)))
  case fsReset => cases h; exact .inr (.inr (.inr (.inr (.inl ⟨rfl, rfl⟩))))
  case fsPush => cases h; exact .inr (.inr (.inr (.inr (.inr (.inl ⟨_, rfl, rfl⟩)))))
  case frame => cases h; exact .inr (.inr (.inr (.inr (.inr (.inr (.inl ⟨_, _, _, rfl, rfl⟩))))))
  all_goals cases h; exact .inr (.inr (.inr (.inr (.inr (.inr (.inr ⟨_, rfl⟩))))))

end Sys2Proof.Machine
end

