-- ==== Sys2Proof/Laws/PerInstr.lean ====
section
/-! SUPPORT. Every instruction's word begins with the bits of its row of spec/opcode_table.json: one lemma a
constructor. -/

namespace Sys2Proof.Laws

/-- The bytes of a word. -/
def wordBytes : InputWord → Bytes
  | .op bs => bs
  | .frame bs => bs
  | .payload _ bs => bs

/-- The width in whole bytes, the mask and the match of an instruction's row of spec/opcode_table.json. -/
def tableRow : Instr → Nat × Nat × Nat
  | .brLoad _ => (8, 0xF, 0x0)
  | .brRdu _ => (8, 0xF, 0x1)
  | .brRds _ => (8, 0xF, 0x2)
  | .brRem => (8, 0xF, 0x3)
  | .crcCalc _ _ _ => (8, 0xF, 0x4)
  | .fsReset => (8, 0xF, 0x5)
  | .fsPush _ => (8, 0xF, 0x6)
  | .decDecode _ _ => (8, 0xF, 0x7)
  | .muxRoute _ => (8, 0xF, 0x8)
  | .frame _ _ _ => (24, 0xFF0000, 0xD30000)
  | .gpsL1Obs _ => (16, 0xFFF0, 0x3E90)
  | .gpsL1ObsExt _ => (16, 0xFFF0, 0x3EA0)
  | .gpsL1L2Obs _ => (16, 0xFFF0, 0x3EB0)
  | .gpsL1L2ObsExt _ => (16, 0xFFF0, 0x3EC0)
  | .stationArp _ => (16, 0xFFF0, 0x3ED0)
  | .stationArpHgt _ => (16, 0xFFF0, 0x3EE0)
  | .antDesc _ => (16, 0xFFF0, 0x3EF0)
  | .antDescSerial _ => (16, 0xFFF0, 0x3F00)
  | .gloL1Obs _ => (16, 0xFFF0, 0x3F10)
  | .gloL1ObsExt _ => (16, 0xFFF0, 0x3F20)
  | .gloL1L2Obs _ => (16, 0xFFF0, 0x3F30)
  | .gloL1L2ObsExt _ => (16, 0xFFF0, 0x3F40)
  | .gloBias _ => (16, 0xFFF0, 0x4CE0)
  | .msm1Gps _ => (16, 0xFFF0, 0x42F0)
  | .msm2Gps _ => (16, 0xFFF0, 0x4300)
  | .msm3Gps _ => (16, 0xFFF0, 0x4310)
  | .msm4Gps _ => (16, 0xFFF0, 0x4320)
  | .msm5Gps _ => (16, 0xFFF0, 0x4330)
  | .msm6Gps _ => (16, 0xFFF0, 0x4340)
  | .msm7Gps _ => (16, 0xFFF0, 0x4350)
  | .msm1Glo _ => (16, 0xFFF0, 0x4390)
  | .msm2Glo _ => (16, 0xFFF0, 0x43A0)
  | .msm3Glo _ => (16, 0xFFF0, 0x43B0)
  | .msm4Glo _ => (16, 0xFFF0, 0x43C0)
  | .msm5Glo _ => (16, 0xFFF0, 0x43D0)
  | .msm6Glo _ => (16, 0xFFF0, 0x43E0)
  | .msm7Glo _ => (16, 0xFFF0, 0x43F0)
  | .msm1Gal _ => (16, 0xFFF0, 0x4430)
  | .msm2Gal _ => (16, 0xFFF0, 0x4440)
  | .msm3Gal _ => (16, 0xFFF0, 0x4450)
  | .msm4Gal _ => (16, 0xFFF0, 0x4460)
  | .msm5Gal _ => (16, 0xFFF0, 0x4470)
  | .msm6Gal _ => (16, 0xFFF0, 0x4480)
  | .msm7Gal _ => (16, 0xFFF0, 0x4490)
  | .msm1Bds _ => (16, 0xFFF0, 0x4610)
  | .msm2Bds _ => (16, 0xFFF0, 0x4620)
  | .msm3Bds _ => (16, 0xFFF0, 0x4630)
  | .msm4Bds _ => (16, 0xFFF0, 0x4640)
  | .msm5Bds _ => (16, 0xFFF0, 0x4650)
  | .msm6Bds _ => (16, 0xFFF0, 0x4660)
  | .msm7Bds _ => (16, 0xFFF0, 0x4670)
  | .unsupported _ => (16, 0x0000, 0x0000)
  | .runt _ _ => (0, 0x0000, 0x0000)

/-- A number of which `x` are the low `k` bits, under a mask of the `j` bits above them. -/
theorem and_high_mask {m x j k : Nat} (hx : x < 2 ^ k) (hm : m < 2 ^ j) :
    (m * 2 ^ k + x) &&& ((2 ^ j - 1) <<< k) = m <<< k := by
  rw [← Nat.shiftLeft_eq, Nat.shiftLeft_add_eq_or_of_lt hx]
  apply Nat.eq_of_testBit_eq
  intro i
  rw [Nat.testBit_and, Nat.testBit_or, Nat.testBit_shiftLeft, Nat.testBit_shiftLeft, Nat.testBit_two_pow_sub_one]
  by_cases hi : k ≤ i
  · have h1 : x.testBit i = false := Nat.testBit_lt_two_pow (hx.trans_le (Nat.pow_le_pow_right (by omega) hi))
    by_cases hj : i - k < j
    · simp [hi, h1, hj]
    · have h2 : m.testBit (i - k) = false :=
        Nat.testBit_lt_two_pow (hm.trans_le (Nat.pow_le_pow_right (by omega) (by omega)))
      simp [hi, h1, hj, h2]
  · simp [hi]

/-- A payload that begins with message number `n` has the match bits `n << 4` under the mask `0xFFF0`
(30_encoding.md R89). -/
theorem numbered_row {P : Params} {n : Nat} {p : Bytes} (h : numbered P n p = true) :
    bitRead p 0 16 &&& 0xFFF0 = n * 16 := by
  simp only [numbered, Bool.and_eq_true, beq_iff_eq] at h
  have h12 : bitRead p 0 12 = n := h.1.2
  have e := and_high_mask (j := 12) (bitRead_lt p 12 4) (bitRead_lt p 0 12)
  rw [show bitRead p 0 16 = bitRead p 0 12 * 2 ^ 4 + bitRead p 12 4 from bitRead_add p 0 12 4, h12]
  rw [h12] at e
  exact e.trans (Nat.shiftLeft_eq n 4)

/-- A word that begins with the preamble has the match bits `0xD30000` under the mask `0xFF0000`
(30_encoding.md R80). -/
theorem preamble_row (bs : Bytes) : bitRead (preamble :: bs) 0 24 &&& 0xFF0000 = 0xD30000 := by
  have hp := bitRead_eight_first preamble bs
  have e := and_high_mask (j := 8) (bitRead_lt (preamble :: bs) 8 16) (bitRead_lt (preamble :: bs) 0 8)
  rw [show bitRead (preamble :: bs) 0 24 = bitRead (preamble :: bs) 0 8 * 2 ^ 16 + bitRead (preamble :: bs) 8 16 from
    bitRead_add _ 0 8 16, hp]
  rw [hp] at e
  exact e

end Sys2Proof.Laws

namespace Sys2Proof.Laws.TableRow

/-- The word of an instruction that is well-formed under some parameters begins with its row's match bits under its
row's mask. -/
def Statement (i : Instr) : Prop :=
  ∀ P : Params, i.wellFormed P = true →
    bitRead (wordBytes (encode i)) 0 (tableRow i).1 &&& (tableRow i).2.1 = (tableRow i).2.2

/-- A port operation's first byte is its select code. -/
theorem of_select_code {i : Instr} {b : Byte} {bs : Bytes} {code : Nat} (hw : encode i = .op (b :: bs))
    (hr : tableRow i = (8, 0xF, code)) (hb : b.toNat &&& 0xF = code) : Statement i := by
  intro _ _
  rw [hw, hr]
  simpa [wordBytes, bitRead_eight_first] using hb

/-- A message's word is its payload. -/
theorem of_payload {i : Instr} {p : Bytes} {n : Nat} (hw : encode i = .payload true p)
    (hr : tableRow i = (16, 0xFFF0, n * 16)) (hf : ∀ P, i.wellFormed P = numbered P n p) : Statement i := by
  intro P h
  rw [hw, hr]
  exact numbered_row (hf P ▸ h)

theorem brLoad (buf : Bytes) : Statement (.brLoad buf) := of_select_code rfl rfl rfl
theorem brRdu (n : Nat) : Statement (.brRdu n) := of_select_code rfl rfl rfl
theorem brRds (n : Nat) : Statement (.brRds n) := of_select_code rfl rfl rfl
theorem brRem : Statement (.brRem) := of_select_code rfl rfl rfl
theorem crcCalc (buf : Bytes) (off len : Nat) : Statement (.crcCalc buf off len) := of_select_code rfl rfl rfl
theorem fsReset : Statement (.fsReset) := of_select_code rfl rfl rfl
theorem fsPush (bytes : Bytes) : Statement (.fsPush bytes) := of_select_code rfl rfl rfl
theorem decDecode (type : MsgNum) (payload : Bytes) : Statement (.decDecode type payload) := of_select_code rfl rfl rfl
theorem muxRoute (f : RawFrame) : Statement (.muxRoute f) := of_select_code rfl rfl rfl
theorem frame (reserved : BitVec 6) (payload : Bytes) (crc : Crc) : Statement (.frame reserved payload crc) :=
  fun _ _ => preamble_row _
theorem gpsL1Obs (payload : Bytes) : Statement (.gpsL1Obs payload) := of_payload (n := 1001) rfl rfl fun _ => rfl
theorem gpsL1ObsExt (payload : Bytes) : Statement (.gpsL1ObsExt payload) := of_payload (n := 1002) rfl rfl fun _ => rfl
theorem gpsL1L2Obs (payload : Bytes) : Statement (.gpsL1L2Obs payload) := of_payload (n := 1003) rfl rfl fun _ => rfl
theorem gpsL1L2ObsExt (payload : Bytes) : Statement (.gpsL1L2ObsExt payload) := of_payload (n := 1004) rfl rfl fun _ => rfl
theorem stationArp (payload : Bytes) : Statement (.stationArp payload) := of_payload (n := 1005) rfl rfl fun _ => rfl
theorem stationArpHgt (payload : Bytes) : Statement (.stationArpHgt payload) := of_payload (n := 1006) rfl rfl fun _ => rfl
theorem antDesc (payload : Bytes) : Statement (.antDesc payload) := of_payload (n := 1007) rfl rfl fun _ => rfl
theorem antDescSerial (payload : Bytes) : Statement (.antDescSerial payload) := of_payload (n := 1008) rfl rfl fun _ => rfl
theorem gloL1Obs (payload : Bytes) : Statement (.gloL1Obs payload) := of_payload (n := 1009) rfl rfl fun _ => rfl
theorem gloL1ObsExt (payload : Bytes) : Statement (.gloL1ObsExt payload) := of_payload (n := 1010) rfl rfl fun _ => rfl
theorem gloL1L2Obs (payload : Bytes) : Statement (.gloL1L2Obs payload) := of_payload (n := 1011) rfl rfl fun _ => rfl
theorem gloL1L2ObsExt (payload : Bytes) : Statement (.gloL1L2ObsExt payload) := of_payload (n := 1012) rfl rfl fun _ => rfl
theorem gloBias (payload : Bytes) : Statement (.gloBias payload) := of_payload (n := 1230) rfl rfl fun _ => rfl
theorem msm1Gps (payload : Bytes) : Statement (.msm1Gps payload) := of_payload (n := 1071) rfl rfl fun _ => rfl
theorem msm2Gps (payload : Bytes) : Statement (.msm2Gps payload) := of_payload (n := 1072) rfl rfl fun _ => rfl
theorem msm3Gps (payload : Bytes) : Statement (.msm3Gps payload) := of_payload (n := 1073) rfl rfl fun _ => rfl
theorem msm4Gps (payload : Bytes) : Statement (.msm4Gps payload) := of_payload (n := 1074) rfl rfl fun _ => rfl
theorem msm5Gps (payload : Bytes) : Statement (.msm5Gps payload) := of_payload (n := 1075) rfl rfl fun _ => rfl
theorem msm6Gps (payload : Bytes) : Statement (.msm6Gps payload) := of_payload (n := 1076) rfl rfl fun _ => rfl
theorem msm7Gps (payload : Bytes) : Statement (.msm7Gps payload) := of_payload (n := 1077) rfl rfl fun _ => rfl
theorem msm1Glo (payload : Bytes) : Statement (.msm1Glo payload) := of_payload (n := 1081) rfl rfl fun _ => rfl
theorem msm2Glo (payload : Bytes) : Statement (.msm2Glo payload) := of_payload (n := 1082) rfl rfl fun _ => rfl
theorem msm3Glo (payload : Bytes) : Statement (.msm3Glo payload) := of_payload (n := 1083) rfl rfl fun _ => rfl
theorem msm4Glo (payload : Bytes) : Statement (.msm4Glo payload) := of_payload (n := 1084) rfl rfl fun _ => rfl
theorem msm5Glo (payload : Bytes) : Statement (.msm5Glo payload) := of_payload (n := 1085) rfl rfl fun _ => rfl
theorem msm6Glo (payload : Bytes) : Statement (.msm6Glo payload) := of_payload (n := 1086) rfl rfl fun _ => rfl
theorem msm7Glo (payload : Bytes) : Statement (.msm7Glo payload) := of_payload (n := 1087) rfl rfl fun _ => rfl
theorem msm1Gal (payload : Bytes) : Statement (.msm1Gal payload) := of_payload (n := 1091) rfl rfl fun _ => rfl
theorem msm2Gal (payload : Bytes) : Statement (.msm2Gal payload) := of_payload (n := 1092) rfl rfl fun _ => rfl
theorem msm3Gal (payload : Bytes) : Statement (.msm3Gal payload) := of_payload (n := 1093) rfl rfl fun _ => rfl
theorem msm4Gal (payload : Bytes) : Statement (.msm4Gal payload) := of_payload (n := 1094) rfl rfl fun _ => rfl
theorem msm5Gal (payload : Bytes) : Statement (.msm5Gal payload) := of_payload (n := 1095) rfl rfl fun _ => rfl
theorem msm6Gal (payload : Bytes) : Statement (.msm6Gal payload) := of_payload (n := 1096) rfl rfl fun _ => rfl
theorem msm7Gal (payload : Bytes) : Statement (.msm7Gal payload) := of_payload (n := 1097) rfl rfl fun _ => rfl
theorem msm1Bds (payload : Bytes) : Statement (.msm1Bds payload) := of_payload (n := 1121) rfl rfl fun _ => rfl
theorem msm2Bds (payload : Bytes) : Statement (.msm2Bds payload) := of_payload (n := 1122) rfl rfl fun _ => rfl
theorem msm3Bds (payload : Bytes) : Statement (.msm3Bds payload) := of_payload (n := 1123) rfl rfl fun _ => rfl
theorem msm4Bds (payload : Bytes) : Statement (.msm4Bds payload) := of_payload (n := 1124) rfl rfl fun _ => rfl
theorem msm5Bds (payload : Bytes) : Statement (.msm5Bds payload) := of_payload (n := 1125) rfl rfl fun _ => rfl
theorem msm6Bds (payload : Bytes) : Statement (.msm6Bds payload) := of_payload (n := 1126) rfl rfl fun _ => rfl
theorem msm7Bds (payload : Bytes) : Statement (.msm7Bds payload) := of_payload (n := 1127) rfl rfl fun _ => rfl
theorem unsupported (payload : Bytes) : Statement (.unsupported payload) := fun _ _ => Nat.and_zero _
theorem runt (payload : Bytes) (crcValid : Bool) : Statement (.runt payload crcValid) := fun _ _ => Nat.and_zero _

end Sys2Proof.Laws.TableRow
end

