-- ==== Sys2Proof/Tests/Slice0.lean ====
section
/-! SUPPORT. Tests: ill-formed terms that WellFormed refuses, words written out from the spec's encodings, one step on
small states with results from 95_test_vectors.md (named in each docstring), and for each obligation with hypotheses a
state and operands that meet them. -/

namespace Sys2Proof.Tests

/- One test after the other: each waits for the kernel, and waiting side by side takes a thread for each. -/
set_option Elab.async false

open Sys2Proof Sys2Proof.Machine Sys2Proof.Reference

/-! ### Helpers -/

/-- The reply of one instruction. -/
def replyOf (i : Instr) (s : State) : Option Reply :=
  match exec i s with
  | .next t => t.reply
  | _ => none

/-- The record one message instruction returns after reset. -/
def record (i : Instr) : Fields :=
  match replyOf i State.reset with
  | some (.ok (.fields m)) => m
  | _ => []

/-- A field of a record. -/
def field (i : Instr) (key : Key) : Option Value := (record i).lookup key

/-- A field of a row of a block of a record. -/
def rowField (i : Instr) (block : Key) (row : Nat) (key : Key) : Option Scalar :=
  match field i block with
  | some (.list rows) => (rows.getD row []).lookup key
  | _ => none

/-- The number of rows of a block of a record. -/
def rowCount (i : Instr) (block : Key) : Option Nat :=
  match field i block with
  | some (.list rows) => some rows.length
  | _ => none

/-- A state whose reader holds `buf` at bit `pos`. -/
def reading (buf : Bytes) (pos : Nat) : State := { State.reset with br := { buf := buf, pos := pos } }

/-- A state whose accumulator holds `acc`. -/
def holding (acc : Bytes) : State := { State.reset with fsAcc := acc }

/-- The accumulator and the frames after `FS.PUSH bytes` on an accumulator. -/
def pushed (acc bytes : Bytes) : Bytes × List RawFrame :=
  match exec (.fsPush bytes) (holding acc) with
  | .next t => (t.fsAcc, match t.reply with
    | some (.ok (.frames fs)) => fs
    | _ => [])
  | _ => ([], [])

/-- An unsigned value. -/
def uintValue (n : Nat) : Option Value := some (.scalar (.uint n))

/-! ### WellFormed refuses an ill-formed term for each of its checks -/

theorem test_wf_frame_too_long : (Instr.frame 0 (List.replicate 1024 0) 0).wellFormed defaultParams = false := by decide +kernel
theorem test_wf_route_no_preamble :
    (Instr.muxRoute ⟨[0xD2, 0, 0, 0, 0, 0], [], true⟩).wellFormed defaultParams = false := by decide
theorem test_wf_route_wrong_length :
    (Instr.muxRoute ⟨[0xD3, 0, 0, 0, 0, 0, 0], [], true⟩).wellFormed defaultParams = false := by decide
theorem test_wf_route_wrong_payload :
    (Instr.muxRoute ⟨[0xD3, 0, 1, 0x3E, 0, 0, 0], [0x3F], true⟩).wellFormed defaultParams = false := by decide
theorem test_wf_unsupported_short : (Instr.unsupported [0x3F]).wellFormed defaultParams = false := by decide
theorem test_wf_unsupported_registered : (Instr.unsupported [0x3E, 0xD0]).wellFormed defaultParams = false := by decide
theorem test_wf_runt_too_long : (Instr.runt [0x3E, 0xD0] true).wellFormed defaultParams = false := by decide

/-- A payload that begins with no message number of the list is no message of it, nor is one of a single byte. -/
theorem test_wf_message_numbers :
    (messageTable.all fun e => (e.2 [0x3F, 0xB1]).wellFormed defaultParams == false && (e.2 [0x3E]).wellFormed defaultParams == false) = true := by
  decide

/-- The default parameters are parameters of a block. -/
theorem test_wf_default_params : defaultParams.wellFormed = true := by decide +kernel

/-- `defaultParams` with one decoder registered instead of the 41. -/
def oneDecoder (n : Nat) (d : Decoder) : Params := { defaultParams with registered := [(n, d)] }

theorem test_wf_params_number_twice :
    { defaultParams with registered := [(1005, .msm), (1005, .msm)] }.wellFormed = false := by decide
theorem test_wf_params_number_range : (oneDecoder 4096 .msm).wellFormed = false := by decide
theorem test_wf_params_widths :
    (oneDecoder 1 (.fixed [.u .stationId 65])).wellFormed = false ∧
    (oneDecoder 1 (.fixed [.s .stationId 0])).wellFormed = false ∧
    (oneDecoder 1 (.fixed [.num .b .stationId 2])).wellFormed = false ∧
    (oneDecoder 1 (.fixed [.skip 0])).wellFormed = false := by decide
theorem test_wf_params_names :
    (oneDecoder 1 (.fixed [.u .stationId 1, .u .stationId 1])).wellFormed = false ∧
    (oneDecoder 1 (.fixed [.u .truncated 1])).wellFormed = false := by decide
theorem test_wf_params_bias :
    (oneDecoder 1 (.bias [.b .fdmaSignalsMask] .fdmaSignalsMask [])).wellFormed = false ∧
    (oneDecoder 1 (.bias [.u .iods 4] .iods [(0, .s .cnr 65)])).wellFormed = false ∧
    (oneDecoder 1 (.bias [.u .fdmaSignalsMask 4] .fdmaSignalsMask [(0, .s .fdmaSignalsMask 16)])).wellFormed =
      false := by decide
theorem test_wf_params_rows :
    (oneDecoder 1 (.legacyObs [.u .stationId 12] .satelliteCount .satellites [.u .satelliteId 6])).wellFormed = false ∧
    (oneDecoder 1 (.legacyObs [.u .satelliteCount 5] .satelliteCount .satellites
      [.str .antennaDescriptorLength .antennaDescriptor])).wellFormed = false ∧
    (oneDecoder 1 (.legacyObs [.u .satelliteCount 5] .satelliteCount .satellites
      [.u .cnr 6, .u .cnr 6])).wellFormed = false ∧
    (oneDecoder 1 (.legacyObs [.u .satelliteCount 5] .satelliteCount .satelliteCount
      [.u .cnr 6])).wellFormed = false := by decide
/-- Names are compared as they are spelled, and a string's count is named after it (30_encoding.md R88). -/
theorem test_wf_params_spelling :
    (oneDecoder 1 (.fixed [.u .cnr 1, .u (.other "cnr") 1])).wellFormed = false ∧
    (oneDecoder 1 (.fixed [.str .cnr .antennaDescriptor])).wellFormed = false ∧
    (oneDecoder 1 (.fixed [.str (.other "labelLength") (.other "label")])).wellFormed = true := by decide
theorem test_wf_params_msm :
    { oneDecoder 1 .msm with msm := { msmLayout with satellite := [⟨.cnr, .u, [1]⟩] } }.wellFormed = false ∧
    { oneDecoder 1 .msm with msm := { msmLayout with cell := [⟨.cnr, .b, [0, 0, 0, 0, 0, 0, 2]⟩] } }.wellFormed = false ∧
    { oneDecoder 1 .msm with msm := { msmLayout with cell := [⟨.signalId, .u, [0, 0, 0, 0, 0, 0, 0]⟩] } }.wellFormed =
      false ∧
    { oneDecoder 1 .msm with msm := { msmLayout with header := [.u .cells 1] } }.wellFormed = false := by decide

/-! ### Decoding: words written from the encodings of 30_encoding.md -/

/-- 30_encoding.md R104: OPSEL in the low four bits of the first byte, whatever the four bits above; operands log entry
1. -/
theorem test_decode_ports :
    decode defaultParams (.op [0x00]) = .ok (.brLoad []) ∧
    decode defaultParams (.op [0xF0, 0x12]) = .ok (.brLoad [0x12]) ∧
    decode defaultParams (.op [0x01, 0x81, 0x00]) = .ok (.brRdu 128) ∧
    decode defaultParams (.op [0x02, 0x05]) = .ok (.brRds 5) ∧
    decode defaultParams (.op [0x03]) = .ok .brRem ∧
    decode defaultParams (.op [0x04, 0x00, 0x03, 0xD3, 0x00, 0x00]) = .ok (.crcCalc [0xD3, 0x00, 0x00] 0 3) ∧
    decode defaultParams (.op [0x05]) = .ok .fsReset ∧
    decode defaultParams (.op [0x06, 0xD3, 0x00]) = .ok (.fsPush [0xD3, 0x00]) ∧
    decode defaultParams (.op [0x07, 0x03, 0xED, 0x3E]) = .ok (.decDecode 1005 [0x3E]) ∧
    decode defaultParams (.op [0x08, 0x01, 0x07, 0xD3, 0x00, 0x01, 0x3E, 0x7B, 0x35, 0x38, 0x3E]) =
      .ok (.muxRoute ⟨[0xD3, 0x00, 0x01, 0x3E, 0x7B, 0x35, 0x38], [0x3E], true⟩) := by decide

/-- 30_encoding.md R104: no operation has OPSEL 1001 or 1111. -/
theorem test_decode_unassigned :
    decode defaultParams (.op [0x09]) = .error (.unassignedOpsel 9) ∧ decode defaultParams (.op [0x0F]) = .error (.unassignedOpsel 15) := by decide

/-- 30_encoding.md R80 to R84 and 95_test_vectors.md F6b: preamble, six reserved bits `010101`, `L = 4`. -/
theorem test_decode_frame :
    decode defaultParams (.frame [0xD3, 0x54, 0x04, 0x3F, 0xB1, 0x23, 0x45, 0x29, 0x1E, 0x93]) =
      .ok (.frame 0b010101 [0x3F, 0xB1, 0x23, 0x45] 0x291E93) := by decide

/-- 30_encoding.md R80: the frame word begins with the preamble and is `L + 6` bytes long. -/
theorem test_decode_frame_refused :
    decode defaultParams (.frame [0xD2, 0, 0, 0, 0, 0]) = .error .noPreamble ∧
    decode defaultParams (.frame [0xD3, 0, 1, 0, 0, 0]) = .error .frameLength := by decide

/-- 30_encoding.md R91, R92: under 12 bits a runt; a number outside the list is unsupported. -/
theorem test_decode_fallbacks :
    decode defaultParams (.payload false [0x3E]) = .ok (.runt [0x3E] false) ∧
    decode defaultParams (.payload true []) = .ok (.runt [] true) ∧
    decode defaultParams (.payload true [0x42, 0xE0]) = .ok (.unsupported [0x42, 0xE0]) ∧
    decode defaultParams (.payload true [0x43, 0x60]) = .ok (.unsupported [0x43, 0x60]) := by decide

/-- 30_encoding.md R85, R89: the number in the first 12 bits, the four bits after it any. -/
theorem test_decode_fixed :
    decode defaultParams (.payload true [0x3E, 0x93]) = .ok (.gpsL1Obs [0x3E, 0x93]) ∧
    decode defaultParams (.payload true [0x3E, 0xA8]) = .ok (.gpsL1ObsExt [0x3E, 0xA8]) ∧
    decode defaultParams (.payload true [0x3E, 0xBD]) = .ok (.gpsL1L2Obs [0x3E, 0xBD]) ∧
    decode defaultParams (.payload true [0x3E, 0xC2]) = .ok (.gpsL1L2ObsExt [0x3E, 0xC2]) ∧
    decode defaultParams (.payload true [0x3E, 0xD7]) = .ok (.stationArp [0x3E, 0xD7]) ∧
    decode defaultParams (.payload true [0x3E, 0xEC]) = .ok (.stationArpHgt [0x3E, 0xEC]) ∧
    decode defaultParams (.payload true [0x3E, 0xF1]) = .ok (.antDesc [0x3E, 0xF1]) ∧
    decode defaultParams (.payload true [0x3F, 0x06]) = .ok (.antDescSerial [0x3F, 0x06]) ∧
    decode defaultParams (.payload true [0x3F, 0x1B]) = .ok (.gloL1Obs [0x3F, 0x1B]) ∧
    decode defaultParams (.payload true [0x3F, 0x20]) = .ok (.gloL1ObsExt [0x3F, 0x20]) ∧
    decode defaultParams (.payload true [0x3F, 0x35]) = .ok (.gloL1L2Obs [0x3F, 0x35]) ∧
    decode defaultParams (.payload true [0x3F, 0x4A]) = .ok (.gloL1L2ObsExt [0x3F, 0x4A]) ∧
    decode defaultParams (.payload true [0x4C, 0xEF]) = .ok (.gloBias [0x4C, 0xEF]) := by decide

/-- 30_encoding.md R85, R89: the number in the first 12 bits, the four bits after it any. -/
theorem test_decode_msm_gps :
    decode defaultParams (.payload true [0x42, 0xF3]) = .ok (.msm1Gps [0x42, 0xF3]) ∧
    decode defaultParams (.payload true [0x43, 0x08]) = .ok (.msm2Gps [0x43, 0x08]) ∧
    decode defaultParams (.payload true [0x43, 0x1D]) = .ok (.msm3Gps [0x43, 0x1D]) ∧
    decode defaultParams (.payload true [0x43, 0x22]) = .ok (.msm4Gps [0x43, 0x22]) ∧
    decode defaultParams (.payload true [0x43, 0x37]) = .ok (.msm5Gps [0x43, 0x37]) ∧
    decode defaultParams (.payload true [0x43, 0x4C]) = .ok (.msm6Gps [0x43, 0x4C]) ∧
    decode defaultParams (.payload true [0x43, 0x51]) = .ok (.msm7Gps [0x43, 0x51]) := by decide

/-- 30_encoding.md R85, R89: the number in the first 12 bits, the four bits after it any. -/
theorem test_decode_msm_glo :
    decode defaultParams (.payload true [0x43, 0x93]) = .ok (.msm1Glo [0x43, 0x93]) ∧
    decode defaultParams (.payload true [0x43, 0xA8]) = .ok (.msm2Glo [0x43, 0xA8]) ∧
    decode defaultParams (.payload true [0x43, 0xBD]) = .ok (.msm3Glo [0x43, 0xBD]) ∧
    decode defaultParams (.payload true [0x43, 0xC2]) = .ok (.msm4Glo [0x43, 0xC2]) ∧
    decode defaultParams (.payload true [0x43, 0xD7]) = .ok (.msm5Glo [0x43, 0xD7]) ∧
    decode defaultParams (.payload true [0x43, 0xEC]) = .ok (.msm6Glo [0x43, 0xEC]) ∧
    decode defaultParams (.payload true [0x43, 0xF1]) = .ok (.msm7Glo [0x43, 0xF1]) := by decide

/-- 30_encoding.md R85, R89: the number in the first 12 bits, the four bits after it any. -/
theorem test_decode_msm_gal :
    decode defaultParams (.payload true [0x44, 0x33]) = .ok (.msm1Gal [0x44, 0x33]) ∧
    decode defaultParams (.payload true [0x44, 0x48]) = .ok (.msm2Gal [0x44, 0x48]) ∧
    decode defaultParams (.payload true [0x44, 0x5D]) = .ok (.msm3Gal [0x44, 0x5D]) ∧
    decode defaultParams (.payload true [0x44, 0x62]) = .ok (.msm4Gal [0x44, 0x62]) ∧
    decode defaultParams (.payload true [0x44, 0x77]) = .ok (.msm5Gal [0x44, 0x77]) ∧
    decode defaultParams (.payload true [0x44, 0x8C]) = .ok (.msm6Gal [0x44, 0x8C]) ∧
    decode defaultParams (.payload true [0x44, 0x91]) = .ok (.msm7Gal [0x44, 0x91]) := by decide

/-- 30_encoding.md R85, R89: the number in the first 12 bits, the four bits after it any. -/
theorem test_decode_msm_bds :
    decode defaultParams (.payload true [0x46, 0x13]) = .ok (.msm1Bds [0x46, 0x13]) ∧
    decode defaultParams (.payload true [0x46, 0x28]) = .ok (.msm2Bds [0x46, 0x28]) ∧
    decode defaultParams (.payload true [0x46, 0x3D]) = .ok (.msm3Bds [0x46, 0x3D]) ∧
    decode defaultParams (.payload true [0x46, 0x42]) = .ok (.msm4Bds [0x46, 0x42]) ∧
    decode defaultParams (.payload true [0x46, 0x57]) = .ok (.msm5Bds [0x46, 0x57]) ∧
    decode defaultParams (.payload true [0x46, 0x6C]) = .ok (.msm6Bds [0x46, 0x6C]) ∧
    decode defaultParams (.payload true [0x46, 0x71]) = .ok (.msm7Bds [0x46, 0x71]) := by decide

/-! ### The opcode table's words -/

/-- Every row's match word, at its width in whole bytes, is read as the row's instruction and run by the first step. -/
theorem test_table_word_ports :
    decodeTableWord 8 0x0 = some (.brLoad []) ∧ decodeTableWord 8 0x1 = some (.brRdu 0) ∧
    decodeTableWord 8 0x2 = some (.brRds 0) ∧ decodeTableWord 8 0x3 = some .brRem ∧
    decodeTableWord 8 0x4 = some (.crcCalc [] 0 0) ∧ decodeTableWord 8 0x5 = some .fsReset ∧
    decodeTableWord 8 0x6 = some (.fsPush []) ∧ decodeTableWord 8 0x7 = some (.decDecode 0 []) ∧
    decodeTableWord 8 0x8 = some (.muxRoute ⟨[], [], false⟩) ∧ decodeTableWord 8 0x9 = none := by decide
theorem test_table_word_frame :
    decodeTableWord 24 0xD30000 = some (.frame 0 [] 0) ∧
    decodeTableWord 24 0xD3FC02 = some (.frame 63 [0, 0] 0) := by decide
theorem test_table_word_messages :
    (messageTable.all fun e => decodeTableWord 16 (e.1 * 16) ==
      some (e.2 (BitVec.ofNat 8 (e.1 / 16) :: BitVec.ofNat 8 (e.1 * 16) :: List.replicate 20 0))) = true := by
  decide
theorem test_table_word_fallbacks :
    decodeTableWord 16 0 = some (.unsupported (List.replicate 22 0)) ∧
    decodeTableWord 0 0 = some (.runt [] false) := by decide
theorem test_fetch_word_runs :
    (match step (State.reset.withFetchWord 24 0xD30000) with
      | .next t => t.reply == some (.ok (.frames [⟨[0xD3, 0, 0, 0, 0, 0], [], false⟩])) && t.issued == []
      | _ => false) = true ∧
    (match step (State.reset.withFetchWord 16 0x42F0) with
      | .next t => t.reply.isSome && t.issued == []
      | _ => false) = true := by decide +kernel

/-! ### Codes of errors and conditions (60_exceptions.md R298) -/

theorem test_codes :
    errCode (.eRange 1) = 1 ∧ errCode (.eArg 0) = 2 ∧ errCode (.eBounds 0 1) = 3 ∧
    (frameConditions ⟨[], [], false⟩).map conditionCode = [16] ∧
    (recordConditions (record (.stationArp []))).map conditionCode = [17] ∧
    (recordConditions (record (.unsupported [0, 0]))).map conditionCode = [18] ∧
    (recordConditions (runtFields [0x3E])).map conditionCode = [19] := by decide +kernel

/-! ### One step of each instruction -/

/-- 40_bitreader.md R120. -/
theorem test_brLoad :
    exec (.brLoad [0xA5, 0xC3]) (reading [0x00] 5) =
      .next { reading [0xA5, 0xC3] 0 with reply := some (.ok .unit) } := rfl
/-- 95_test_vectors.md 2.2, sequence D: a 64-bit read over nine bytes. -/
theorem test_brRdu :
    replyOf (.brRdu 64) (reading [0xA5, 0xC3, 0xFF, 0x00, 0x12, 0x34, 0x56, 0x78, 0x9A] 3) =
      some (.ok (.nat 3323647731349763012)) := by decide
/-- 95_test_vectors.md 2.2, signed corners: five of eight bits read, four do not fit. -/
theorem test_brRdu_range : replyOf (.brRdu 4) (reading [0xA5] 5) = some (.raised (.eRange 4)) := by decide
/-- 95_test_vectors.md 2.2, signed corners: the smallest 64-bit number. -/
theorem test_brRds :
    replyOf (.brRds 64) (reading [0x80, 0, 0, 0, 0, 0, 0, 0] 0) =
      some (.ok (.int (-9223372036854775808))) := by decide +kernel
/-- 95_test_vectors.md 2.2, argument errors: the width is checked first, on the empty buffer too. -/
theorem test_brRds_width : replyOf (.brRds 65) State.reset = some (.raised (.eArg 65)) := by decide
/-- 95_test_vectors.md 2.2, sequence A. -/
theorem test_brRem :
    replyOf .brRem (reading [0xA5, 0xC3, 0xFF, 0x00, 0x12, 0x34, 0x56, 0x78, 0x9A] 4) = some (.ok (.nat 68)) := by
  decide
/-- 95_test_vectors.md 2.1: the check value of `123456789`, inside a longer buffer. -/
theorem test_crcCalc :
    replyOf (.crcCalc [0xAA, 0xBB, 0x31, 0x32, 0x33, 0x34, 0x35, 0x36, 0x37, 0x38, 0x39, 0xCC] 2 9) State.reset =
      some (.ok (.crc 0xCDE703)) := by decide +kernel
/-- 95_test_vectors.md 2.1: an empty range past the end is out of bounds. -/
theorem test_crcCalc_bounds :
    replyOf (.crcCalc [0xAA, 0xBB] 3 0) State.reset = some (.raised (.eBounds 3 0)) := by decide
/-- 42_framesync.md R160. -/
theorem test_fsReset :
    exec .fsReset (holding [0xD3, 0x00]) = .next { State.reset with reply := some (.ok .unit) } := rfl
/-- 95_test_vectors.md E2, step 4, and F4c: the held bytes and the chunk make a frame, the rest is dropped. -/
theorem test_fsPush :
    pushed [0xD3, 0x00, 0x00, 0x47, 0xEA] [0x4B, 0x55] = ([], [⟨[0xD3, 0x00, 0x00, 0x47, 0xEA, 0x4B], [], true⟩]) ∧
    pushed [0xD3, 0x00, 0x02, 0xAB] [0xCD, 0x5C, 0x1E, 0xC3] =
      ([], [⟨[0xD3, 0x00, 0x02, 0xAB, 0xCD, 0x5C, 0x1E, 0xC3], [0xAB, 0xCD], true⟩]) := by decide +kernel
/-- 95_test_vectors.md F5 and F8: a bad trailer is reported, not dropped; a long length makes the block wait. -/
theorem test_fsPush_invalid_and_waiting :
    pushed [] [0xD3, 0x00, 0x04, 0x3F, 0xB1, 0x23, 0x45, 0x9E, 0x7C, 0x23] =
      ([], [⟨[0xD3, 0x00, 0x04, 0x3F, 0xB1, 0x23, 0x45, 0x9E, 0x7C, 0x23], [0x3F, 0xB1, 0x23, 0x45], false⟩]) ∧
    pushed [] [0xD3, 0xD3, 0xD3, 0xD3, 0xD3, 0xD3] = ([0xD3, 0xD3, 0xD3, 0xD3, 0xD3, 0xD3], []) := by decide +kernel
/-- 95_test_vectors.md F6a: the reserved bits do not count for the length, and take part in the CRC. -/
theorem test_frame :
    replyOf (.frame 63 [] 0x32C24F) State.reset =
      some (.ok (.frames [⟨[0xD3, 0xFC, 0x00, 0x32, 0xC2, 0x4F], [], true⟩])) := by decide +kernel
/-- The payload of frame S1 (95_test_vectors.md section 1). -/
def s1 : Bytes :=
  [0x3E, 0xD7, 0xD3, 0x02, 0x02, 0x98, 0x0E, 0xDE, 0xEF, 0x34, 0xB4, 0xBD, 0x62, 0xAC, 0x09, 0x41, 0x98, 0x6F, 0x33]
/-- 95_test_vectors.md 2.4: the type operand selects, not the payload's own number. -/
theorem test_decDecode :
    field (.decDecode 1230 s1) .l2CaCodePhaseBias = some (.scalar (.sint 664)) ∧
    field (.decDecode 1007 s1) .antennaDescriptor = some (.scalar (.str [0x02, 0x98])) := by decide
/-- 95_test_vectors.md 2.4: `MUX.ROUTE` of the unsupported number 1019. -/
theorem test_muxRoute :
    replyOf (.muxRoute ⟨[0xD3, 0, 4, 0x3F, 0xB1, 0x23, 0x45, 0x9E, 0x7C, 0x22], [0x3F, 0xB1, 0x23, 0x45], true⟩)
      State.reset = some (.ok (.message ⟨some 1019, true, 4,
        [(.unsupported, .scalar (.bool true)),
          (.rawPayloadHex, .scalar (.str [0x33, 0x46, 0x42, 0x31, 0x32, 0x33, 0x34, 0x35]))]⟩)) := by decide
/-- 95_test_vectors.md 2.4: number 1078 is not registered. -/
theorem test_unsupported :
    record (.unsupported [0x43, 0x60, 0x01]) = [(.unsupported, .scalar (.bool true)),
      (.rawPayloadHex, .scalar (.str [0x34, 0x33, 0x36, 0x30, 0x30, 0x31]))] := by decide
/-- 95_test_vectors.md 2.4: a one-byte payload. -/
theorem test_runt :
    replyOf (.runt [0x3E] true) State.reset = some (.ok (.message ⟨none, true, 1,
      [(.runt, .scalar (.bool true)), (.rawPayloadHex, .scalar (.str [0x33, 0x45]))]⟩)) := by
  decide
/-- 95_test_vectors.md section 1, S1. -/
theorem test_stationArp :
    field (.stationArp s1) .ecefX = some (.scalar (.sint 11141045999)) ∧
    field (.stationArp s1) .ecefY = some (.scalar (.sint (-48507297108))) ∧
    field (.stationArp s1) .ecefZ = some (.scalar (.sint 39755214643)) := by decide
/-- 95_test_vectors.md 2.5: cut to ten bytes, the reserved bit is consumed. -/
theorem test_stationArp_cut :
    field (.stationArp (s1.take 10)) .singleReceiverOscillator = some (.scalar (.bool false)) ∧
    field (.stationArp (s1.take 10)) .ecefY = some (.scalar .absent) ∧
    field (.stationArp (s1.take 10)) .bitsRemaining = uintValue 6 := by decide
/-- 95_test_vectors.md 2.5. -/
theorem test_stationArpHgt :
    field (.stationArpHgt [0x3E, 0xE4, 0xD2, 0x03, 0x3F, 0xFF, 0xFF, 0xFF, 0xFF, 0xA0, 0x00, 0x00, 0x00, 0x00, 0x9F, 0xFF,
      0xFF, 0xFF, 0xFF, 0x3A, 0x98]) .antennaHeight = uintValue 15000 ∧
    field (.stationArpHgt [0x3E, 0xE4, 0xD2, 0x03, 0x3F, 0xFF, 0xFF, 0xFF, 0xFF, 0xA0, 0x00, 0x00, 0x00, 0x00, 0x9F, 0xFF,
      0xFF, 0xFF, 0xFF, 0x3A, 0x98]) .ecefY = some (.scalar (.sint (-137438953472))) := by decide
/-- 95_test_vectors.md 2.6: a string that does not fit leaves its count recorded and nothing of it consumed. -/
theorem test_antDesc :
    field (.antDesc [0x3E, 0xF0, 0x07, 0x0E, 0x41, 0x44, 0x56]) .antennaDescriptorLength = uintValue 14 ∧
    field (.antDesc [0x3E, 0xF0, 0x07, 0x0E, 0x41, 0x44, 0x56]) .bitsRemaining = uintValue 24 ∧
    field (.antDesc [0x3E, 0xFF, 0xFF, 0x03, 0xFF, 0x00, 0x20, 0xFF]) .antennaDescriptor =
      some (.scalar (.str [0xFF, 0x00, 0x20])) := by decide
/-- 95_test_vectors.md 2.6. -/
theorem test_antDescSerial :
    field (.antDescSerial [0x3F, 0x00, 0x07, 0x01, 0x41, 0x00, 0x00]) .antennaDescriptor = some (.scalar (.str [0x41])) ∧
    field (.antDescSerial [0x3F, 0x00, 0x07, 0x01, 0x41, 0x00, 0x00]) .antennaSerialNumber =
      some (.scalar (.str [])) := by decide
/-- 95_test_vectors.md 2.7: mask 0101. -/
theorem test_gloBias :
    field (.gloBias [0x4C, 0xE0, 0x63, 0x85, 0x00, 0x07, 0xFF, 0xF9]) .l1PCodePhaseBias = some (.scalar (.sint 7)) ∧
    field (.gloBias [0x4C, 0xE0, 0x63, 0x85, 0x00, 0x07, 0xFF, 0xF9]) .l2PCodePhaseBias =
      some (.scalar (.sint (-7))) ∧
    field (.gloBias [0x4C, 0xE0, 0x63, 0x85, 0x00, 0x07, 0xFF, 0xF9]) .l2CaCodePhaseBias =
      some (.scalar .absent) := by decide
/-- 95_test_vectors.md 2.8: a count of 31 with bits for one row. -/
theorem test_gpsL1Obs :
    rowCount (.gpsL1Obs [0x3E, 0x90, 0x64, 0x52, 0x65, 0xC0, 0x01, 0xFB, 0x0D, 0x4F, 0xB1, 0x81, 0xFF, 0x65, 0xDF, 0xC0])
      .satellites = some 1 ∧
    field (.gpsL1Obs [0x3E, 0x90, 0x64, 0x52, 0x65, 0xC0, 0x01, 0xFB, 0x0D, 0x4F, 0xB1, 0x81, 0xFF, 0x65, 0xDF, 0xC0])
      .bitsRemaining = uintValue 6 := by decide
/-- V-1002 (95_test_vectors.md 2.8). -/
def v1002 : Bytes :=
  [0x3E, 0xA0, 0x64, 0x52, 0x65, 0xC0, 0x00, 0x2B, 0x0D, 0x4F, 0xB1, 0x81, 0xFF, 0x65, 0xDF, 0xD1, 0xAD, 0x20, 0xFF, 0xFF,
   0xFF, 0xBF, 0xFF, 0xF8, 0x0F, 0xF0, 0x00]
/-- 95_test_vectors.md 2.8, V-1002. -/
theorem test_gpsL1ObsExt :
    rowField (.gpsL1ObsExt v1002) .satellites 0 .l1PhaseRangeMinusPseudorange = some (.sint (-1234)) ∧
    rowField (.gpsL1ObsExt v1002) .satellites 1 .l1PseudorangeAmbiguity = some (.uint 255) := by decide
/-- 95_test_vectors.md 2.8: 26 bytes of V-1002 hold one row. -/
theorem test_gpsL1ObsExt_cut :
    rowCount (.gpsL1ObsExt (v1002.take 26)) .satellites = some 1 ∧
    field (.gpsL1ObsExt (v1002.take 26)) .truncated = some (.scalar (.bool true)) ∧
    field (.gpsL1ObsExt (v1002.take 26)) .bitsRemaining = uintValue 70 := by decide
/-- The example of 43_mux_fixed.md R195. -/
theorem test_gpsL1L2Obs :
    rowField (.gpsL1L2Obs [0x3E, 0xB0, 0x01, 0x00, 0x00, 0x00, 0x00, 0x10, 0x04, 0x00, 0x00, 0x02, 0x00, 0x00, 0x20, 0x50,
      0x00, 0x40, 0x00, 0x04, 0x08]) .satellites 0 .l2LockTimeIndicator = some (.uint 1) := by decide
/-- The example of 43_mux_fixed.md R196. -/
theorem test_gpsL1L2ObsExt :
    rowField (.gpsL1L2ObsExt [0x3E, 0xC0, 0x05, 0x00, 0x00, 0x0F, 0xA2, 0x10, 0x38, 0x98, 0x96, 0x81, 0x00, 0x00, 0x10, 0x14,
      0x72, 0x38, 0x00, 0x3F, 0xFF, 0xFC, 0x0D, 0x00]) .satellites 0 .l2MinusL1Pseudorange = some (.sint (-8192)) ∧
    rowField (.gpsL1L2ObsExt [0x3E, 0xC0, 0x05, 0x00, 0x00, 0x0F, 0xA2, 0x10, 0x38, 0x98, 0x96, 0x81, 0x00, 0x00, 0x10, 0x14,
      0x72, 0x38, 0x00, 0x3F, 0xFF, 0xFC, 0x0D, 0x00]) .satellites 0 .l2Cnr = some (.uint 160) := by decide
/-- The example of 43_mux_fixed.md R197. -/
theorem test_gloL1Obs :
    rowField (.gloL1Obs [0x3F, 0x10, 0x01, 0x00, 0x00, 0x00, 0x00, 0x80, 0x20, 0x80, 0x00, 0x00, 0x40, 0x00, 0x04, 0x08])
      .satellites 0 .frequencyChannelNumber = some (.uint 1) := by decide
/-- 95_test_vectors.md 2.8, message 1010. -/
theorem test_gloL1ObsExt :
    rowField (.gloL1ObsExt [0x3F, 0x20, 0x64, 0xA4, 0xCB, 0x7F, 0xF1, 0x38, 0x20, 0x00, 0x00, 0x00, 0x20, 0x00, 0x03, 0xF8,
      0x0F, 0xF6, 0x34, 0xE4, 0xE1, 0xBF, 0x80, 0x00, 0x00, 0x1D, 0xC0, 0x20]) .satellites 1 .l1Pseudorange =
      some (.uint 29999999) := by decide
/-- The example of 43_mux_fixed.md R199. -/
theorem test_gloL1L2Obs :
    rowField (.gloL1L2Obs [0x3F, 0x30, 0x01, 0x00, 0x00, 0x00, 0x00, 0x80, 0x20, 0x80, 0x00, 0x00, 0x40, 0x00, 0x04, 0x0A,
      0x00, 0x08, 0x00, 0x00, 0x81]) .satellites 0 .l2LockTimeIndicator = some (.uint 1) := by decide
/-- The example of 43_mux_fixed.md R200. -/
theorem test_gloL1L2ObsExt :
    rowField (.gloL1L2ObsExt [0x3F, 0x40, 0x06, 0x52, 0x65, 0xC0, 0x00, 0x80, 0xF6, 0x7F, 0xFF, 0xFF, 0xC0, 0x01, 0x90, 0x2F,
      0xF2, 0xC1, 0xFF, 0xFF, 0xFF, 0x9C, 0x0C, 0x50]) .satellites 0 .l2PhaseRangeMinusL1Pseudorange =
      some (.sint (-100)) := by decide

/-- The payload of 95_test_vectors.md E4 for `msmType = k`, after its first two bytes. -/
def msmBody : Nat → Bytes
  | 1 => [0x41, 0x1D, 0x6F, 0x34, 0x57, 0x40, 0x4E, 0x10, 0x00, 0x00, 0x00, 0x00, 0x00, 0x00, 0x00, 0x20, 0x00, 0x00,
      0x00, 0x60, 0x0F, 0xF3, 0x80]
  | 2 => [0x41, 0x1D, 0x6F, 0x34, 0x57, 0x40, 0x4E, 0x10, 0x00, 0x00, 0x00, 0x00, 0x00, 0x00, 0x00, 0x20, 0x00, 0x00,
      0x00, 0x60, 0x00, 0x01, 0xF4, 0x26]
  | 3 => [0x41, 0x1D, 0x6F, 0x34, 0x57, 0x40, 0x4E, 0x10, 0x00, 0x00, 0x00, 0x00, 0x00, 0x00, 0x00, 0x20, 0x00, 0x00,
      0x00, 0x60, 0x0F, 0xF3, 0x80, 0x03, 0xE8, 0x4C]
  | 4 => [0x41, 0x1D, 0x6F, 0x34, 0x57, 0x40, 0x4E, 0x10, 0x00, 0x00, 0x00, 0x00, 0x00, 0x00, 0x00, 0x20, 0x00, 0x00,
      0x00, 0x52, 0xE0, 0x0F, 0xF3, 0x80, 0x03, 0xE8, 0x4E, 0xD0]
  | 5 => [0x41, 0x1D, 0x6F, 0x34, 0x57, 0x40, 0x4E, 0x10, 0x00, 0x00, 0x00, 0x00, 0x00, 0x00, 0x00, 0x20, 0x00, 0x00,
      0x00, 0x52, 0xE6, 0x00, 0xFB, 0x53, 0xFC, 0xE0, 0x00, 0xFA, 0x13, 0xB7, 0xFF, 0xC8]
  | 6 => [0x41, 0x1D, 0x6F, 0x34, 0x57, 0x40, 0x4E, 0x10, 0x00, 0x00, 0x00, 0x00, 0x00, 0x00, 0x00, 0x20, 0x00, 0x00,
      0x00, 0x52, 0xE0, 0x0F, 0xFF, 0x9C, 0x00, 0x07, 0xD0, 0x02, 0x61, 0x68]
  | 7 => [0x41, 0x1D, 0x6F, 0x34, 0x57, 0x40, 0x4E, 0x10, 0x00, 0x00, 0x00, 0x00, 0x00, 0x00, 0x00, 0x20, 0x00, 0x00,
      0x00, 0x52, 0xE6, 0x00, 0xFB, 0x53, 0xFF, 0xE7, 0x00, 0x01, 0xF4, 0x00, 0x98, 0x5B, 0xFF, 0xE4]
  | _ => []

/-- 95_test_vectors.md E4: the value of one cell field, `bitsRemaining` and `msmType` of a message. -/
def msmTest (i : Instr) (key : Key) (value : Scalar) (k remaining : Nat) : Bool :=
  rowField i .cells 0 key == some value && field i .bitsRemaining == uintValue remaining &&
    field i .msmType == uintValue k && field i .satelliteIds == some (.ulist [3])

theorem test_msmGps :
    msmTest (.msm1Gps (0x42 :: 0xF1 :: msmBody 1)) .finePseudorange (.sint (-100)) 1 5 = true ∧
    msmTest (.msm2Gps (0x43 :: 0x01 :: msmBody 2)) .finePhaseRange (.sint 2000) 2 1 = true ∧
    msmTest (.msm3Gps (0x43 :: 0x11 :: msmBody 3)) .lockTimeIndicator (.uint 9) 3 2 = true ∧
    msmTest (.msm4Gps (0x43 :: 0x21 :: msmBody 4)) .cnr (.uint 45) 4 4 = true ∧
    msmTest (.msm5Gps (0x43 :: 0x31 :: msmBody 5)) .finePhaseRangeRate (.sint (-7)) 5 3 = true ∧
    msmTest (.msm6Gps (0x43 :: 0x41 :: msmBody 6)) .cnr (.uint 45) 6 3 = true ∧
    msmTest (.msm7Gps (0x43 :: 0x51 :: msmBody 7)) .finePhaseRangeRate (.sint (-7)) 7 2 = true := by decide +kernel
theorem test_msmGlo :
    msmTest (.msm1Glo (0x43 :: 0x91 :: msmBody 1)) .finePseudorange (.sint (-100)) 1 5 = true ∧
    msmTest (.msm2Glo (0x43 :: 0xA1 :: msmBody 2)) .finePhaseRange (.sint 2000) 2 1 = true ∧
    msmTest (.msm3Glo (0x43 :: 0xB1 :: msmBody 3)) .lockTimeIndicator (.uint 9) 3 2 = true ∧
    msmTest (.msm4Glo (0x43 :: 0xC1 :: msmBody 4)) .cnr (.uint 45) 4 4 = true ∧
    msmTest (.msm5Glo (0x43 :: 0xD1 :: msmBody 5)) .finePhaseRangeRate (.sint (-7)) 5 3 = true ∧
    msmTest (.msm6Glo (0x43 :: 0xE1 :: msmBody 6)) .cnr (.uint 45) 6 3 = true ∧
    msmTest (.msm7Glo (0x43 :: 0xF1 :: msmBody 7)) .finePhaseRangeRate (.sint (-7)) 7 2 = true := by decide +kernel
theorem test_msmGal :
    msmTest (.msm1Gal (0x44 :: 0x31 :: msmBody 1)) .finePseudorange (.sint (-100)) 1 5 = true ∧
    msmTest (.msm2Gal (0x44 :: 0x41 :: msmBody 2)) .finePhaseRange (.sint 2000) 2 1 = true ∧
    msmTest (.msm3Gal (0x44 :: 0x51 :: msmBody 3)) .lockTimeIndicator (.uint 9) 3 2 = true ∧
    msmTest (.msm4Gal (0x44 :: 0x61 :: msmBody 4)) .cnr (.uint 45) 4 4 = true ∧
    msmTest (.msm5Gal (0x44 :: 0x71 :: msmBody 5)) .finePhaseRangeRate (.sint (-7)) 5 3 = true ∧
    msmTest (.msm6Gal (0x44 :: 0x81 :: msmBody 6)) .cnr (.uint 45) 6 3 = true ∧
    msmTest (.msm7Gal (0x44 :: 0x91 :: msmBody 7)) .finePhaseRangeRate (.sint (-7)) 7 2 = true := by decide +kernel
theorem test_msmBds :
    msmTest (.msm1Bds (0x46 :: 0x11 :: msmBody 1)) .finePseudorange (.sint (-100)) 1 5 = true ∧
    msmTest (.msm2Bds (0x46 :: 0x21 :: msmBody 2)) .finePhaseRange (.sint 2000) 2 1 = true ∧
    msmTest (.msm3Bds (0x46 :: 0x31 :: msmBody 3)) .lockTimeIndicator (.uint 9) 3 2 = true ∧
    msmTest (.msm4Bds (0x46 :: 0x41 :: msmBody 4)) .cnr (.uint 45) 4 4 = true ∧
    msmTest (.msm5Bds (0x46 :: 0x51 :: msmBody 5)) .finePhaseRangeRate (.sint (-7)) 5 3 = true ∧
    msmTest (.msm6Bds (0x46 :: 0x61 :: msmBody 6)) .cnr (.uint 45) 6 3 = true ∧
    msmTest (.msm7Bds (0x46 :: 0x71 :: msmBody 7)) .finePhaseRangeRate (.sint (-7)) 7 2 = true := by decide +kernel

/-- V-MSM4 in row-major order (95_test_vectors.md 2.9). -/
def vMsm4 : Bytes :=
  [0x43, 0x21, 0x41, 0x1D, 0x6F, 0x34, 0x57, 0x40, 0x4E, 0x04, 0x08, 0x00, 0x00, 0x00, 0x00, 0x00, 0x00, 0x20, 0x01, 0x00,
   0x00, 0x6A, 0x30, 0xC8, 0xA1, 0xFF, 0xFF, 0xFF, 0x00, 0x00, 0x05, 0x54, 0x00, 0x00, 0xFF, 0xFF, 0xFF, 0xFF, 0xBF, 0xFF,
   0x80, 0x00, 0x00, 0x00, 0x00]
/-- 95_test_vectors.md 2.9: two satellites, three active cells. -/
theorem test_msm4_rows :
    rowField (.msm4Gps vMsm4) .satellites 1 .roughRangeModulo = some (.uint 1023) ∧
    rowField (.msm4Gps vMsm4) .cells 2 .finePhaseRange = some (.sint (-2097152)) ∧
    rowField (.msm4Gps vMsm4) .cells 1 .signalId = some (.uint 15) := by decide +kernel
/-- V-MSM4 in field-major order (95_test_vectors.md 2.9). -/
def vMsm4Columns : Bytes :=
  [0x43, 0x21, 0x41, 0x1D, 0x6F, 0x34, 0x57, 0x40, 0x4E, 0x04, 0x08, 0x00, 0x00, 0x00, 0x00, 0x00, 0x00, 0x20, 0x01, 0x00,
   0x00, 0x6A, 0x32, 0x80, 0xC9, 0xFF, 0xFF, 0xFF, 0x00, 0x00, 0xFF, 0xFC, 0x00, 0x00, 0x1F, 0xFF, 0xFF, 0xE0, 0x00, 0x00,
   0x5F, 0x05, 0x47, 0xE0, 0x00]
/-- 95_test_vectors.md 2.9: the two orders give the one record. -/
theorem test_msm4_columns :
    decodeMsm .fieldMajor msmLayout 1074 vMsm4Columns = decodeMsm .rowMajor msmLayout 1074 vMsm4 := by decide +kernel

/-- V-MSM4 in field-major order cut to `n` bytes, decoded in that order. -/
def columnsCut (n : Nat) : Fields := decodeMsm .fieldMajor msmLayout 1074 (vMsm4Columns.take n)

/-- The values of one field in the rows of a block of a record. -/
def column (record : Fields) (block key : Key) : List (Option Scalar) :=
  match record.lookup block with
  | some (.list rows) => rows.map fun row => row.lookup key
  | _ => []

/-- 95_test_vectors.md 2.9, the cuts of V-MSM4 under `FieldMajor`: `bitsRemaining` of every row of the table, and every
row but the first truncated. -/
theorem test_msm4_columns_cut_remaining :
    ([45, 44, 43, 42, 41, 40, 39, 37, 34, 31, 29, 27, 26, 24, 23, 22].map fun n =>
        (columnsCut n).lookup .bitsRemaining) =
      ([7, 5, 3, 1, 0, 0, 14, 20, 18, 9, 8, 7, 9, 3, 3, 3].map uintValue) ∧
    ([45, 44, 22, 21].map fun n => (columnsCut n).lookup .truncated) =
      [false, true, true, true].map fun b => some (.scalar (.bool b)) := by decide +kernel
/-- The same table, 43, 41 and 31 bytes: cell values read up to the cut. -/
theorem test_msm4_columns_cut_cells :
    column (columnsCut 43) .cells .cnr = [some (.uint 40), some .absent, some .absent] ∧
    column (columnsCut 41) .cells .lockTimeIndicator = [some (.uint 5), some (.uint 15), some .absent] ∧
    column (columnsCut 41) .cells .halfCycleAmbiguity = List.replicate 3 (some .absent) ∧
    column (columnsCut 31) .cells .finePseudorange = [some (.sint (-1)), some (.sint 0), some .absent] := by
  decide +kernel
/-- The same table, 26, 23, 22 and 21 bytes: the satellite block is truncated, every cell row is there without a value;
without the cell mask both lists are empty. -/
theorem test_msm4_columns_cut_satellites :
    column (columnsCut 26) .satellites .roughRangeMs = [some (.uint 70), some (.uint 80)] ∧
    column (columnsCut 26) .satellites .roughRangeModulo = [some (.uint 100), some .absent] ∧
    column (columnsCut 26) .cells .finePseudorange = List.replicate 3 (some .absent) ∧
    column (columnsCut 23) .satellites .roughRangeMs = [some (.uint 70), some .absent] ∧
    column (columnsCut 22) .satellites .roughRangeMs = List.replicate 2 (some .absent) ∧
    column (columnsCut 22) .cells .cnr = List.replicate 3 (some .absent) ∧
    column (columnsCut 21) .satellites .satelliteId = [] ∧ column (columnsCut 21) .cells .cnr = [] := by decide +kernel

/-! ### Other parameters than the defaults (00_scope.md R8) -/

/-- Field-major data through the instruction: a block built with `MSM_ORDER = FieldMajor` reads V-MSM4's other bytes
(95_test_vectors.md 2.9), and the row-major bytes otherwise. -/
theorem test_msm_order_parameter :
    replyOf (.msm4Gps vMsm4Columns) (State.resetWith { defaultParams with msmOrder := .fieldMajor }) =
      replyOf (.msm4Gps vMsm4) State.reset ∧
    replyOf (.muxRoute ⟨[], vMsm4Columns, true⟩) (State.resetWith { defaultParams with msmOrder := .fieldMajor }) =
      replyOf (.muxRoute ⟨[], vMsm4, true⟩) State.reset ∧
    column (match replyOf (.msm4Gps vMsm4) (State.resetWith { defaultParams with msmOrder := .fieldMajor }) with
      | some (.ok (.fields m)) => m
      | _ => []) .cells .finePseudorange = [some (.sint (-1)), some (.sint 0), some (.sint 341)] := by decide +kernel
/-- `REGISTERED` without 1005: its payload word is unsupported (30_encoding.md R91); with 1019: the step runs its
decoder. -/
theorem test_registered_parameter :
    decode (oneDecoder 1019 (.fixed [.u .stationId 12])) (.payload true [0x3E, 0xD7]) =
      .ok (.unsupported [0x3E, 0xD7]) ∧
    decode (oneDecoder 1019 (.fixed [.u .stationId 12])) (.payload true [0x3F, 0xB1, 0x23]) =
      .ok (.decDecode 1019 [0x3F, 0xB1, 0x23]) ∧
    (match step { State.resetWith (oneDecoder 1019 (.fixed [.u .stationId 12])) with
        issued := [.payload true [0x3F, 0xB1, 0x23]] } with
      | .next t => t.reply == some (.ok (.fields [(.stationId, .scalar (.uint 0x123)),
          (.truncated, .scalar (.bool false)), (.bitsRemaining, .scalar (.uint 0))]))
      | _ => false) = true := by decide +kernel
/-- `LAYOUT` with another layout for 1005: its instruction reads that one. -/
theorem test_layout_parameter :
    replyOf (.stationArp [0x3E, 0xD7, 0xFF]) (State.resetWith (oneDecoder 1005 (.fixed [.s .stationId 4, .skip 5]))) =
      some (.ok (.fields [(.stationId, .scalar (.sint 7)), (.truncated, .scalar (.bool false)),
        (.bitsRemaining, .scalar (.uint 3))])) := by decide

/-- `LAYOUT` with biases of other names, kinds and widths than 1230's, under another mask: mask 5 takes the first and
the third. -/
def otherBiases : Decoder :=
  .bias [.u .stationId 9, .u (.other "mask") 3] (.other "mask")
    [(2, .u (.other "first") 6), (1, .s .cnr 16), (0, .s (.other "third") 4)]
theorem test_layout_parameter_biases :
    (oneDecoder 1230 otherBiases).wellFormed = true ∧
    replyOf (.gloBias [0x4C, 0xE0, 0x0D, 0x27, 0xC0]) (State.resetWith (oneDecoder 1230 otherBiases)) =
      some (.ok (.fields [(.stationId, .scalar (.uint 1)), (.other "mask", .scalar (.uint 5)),
        (.other "first", .scalar (.uint 9)), (.cnr, .scalar .absent), (.other "third", .scalar (.sint (-1))),
        (.truncated, .scalar (.bool false)), (.bitsRemaining, .scalar (.uint 6))])) ∧
    replyOf (.gloBias [0x4C, 0xE0, 0x0D, 0x27]) (State.resetWith (oneDecoder 1230 otherBiases)) =
      some (.ok (.fields [(.stationId, .scalar (.uint 1)), (.other "mask", .scalar (.uint 5)),
        (.other "first", .scalar (.uint 9)), (.cnr, .scalar .absent), (.other "third", .scalar .absent),
        (.truncated, .scalar (.bool true)), (.bitsRemaining, .scalar (.uint 2))])) := by decide

/-! ### Witnesses: states and operands that meet the hypotheses of each obligation -/

theorem witness_DecodeInvertsEncode :
    (Instr.frame 63 (List.replicate 1023 0xD3) 0xFFFFFF).wellFormed defaultParams = true ∧
    (Instr.muxRoute ⟨[0xD3, 0, 0, 0x47, 0xEA, 0x4B], [], true⟩).wellFormed defaultParams = true ∧
    (Instr.msm7Bds [0x46, 0x7F]).wellFormed defaultParams = true ∧ (Instr.unsupported [0x46, 0x80]).wellFormed defaultParams = true ∧
    (Instr.runt [0x3E] false).wellFormed defaultParams = true ∧ (Instr.brRdu 0).wellFormed defaultParams = true := by decide +kernel
theorem witness_StepRunsTheIssuedInstruction :
    decode defaultParams (.op [0x03]) = .ok .brRem ∧ decode defaultParams (.op [0x09]) = .error (.unassignedOpsel 9) ∧
    { State.reset with issued := [.op [0x03]] }.issued = [.op [0x03]] ∧ State.reset.issued = [] := by decide
theorem witness_MessageNumberSelectsTheInstruction :
    (∃ e ∈ messageTable, e.1 ∈ defaultParams.registered.map Prod.fst ∧
      ((0x42 : Nat) <<< 8 ||| 0xFF) &&& 0xFFF0 = e.1 <<< 4) ∧
    (1019 ∈ (oneDecoder 1019 .msm).registered.map Prod.fst ∧ (∀ e ∈ messageTable, e.1 ≠ 1019) ∧
      ((0x3F : Nat) <<< 8 ||| 0xBF) &&& 0xFFF0 = 1019 <<< 4) ∧
    (∀ n ∈ defaultParams.registered.map Prod.fst, ((0x42 : Nat) <<< 8 ||| 0xEF) &&& 0xFFF0 ≠ n <<< 4) ∧
    (∀ n ∈ defaultParams.registered.map Prod.fst, ((0x43 : Nat) <<< 8 ||| 0x60) &&& 0xFFF0 ≠ n <<< 4) := by decide
theorem witness_UnassignedSelectCodesAreRefused :
    { State.reset with issued := [.op [0x09], .op [0xFF, 0x00]] }.issued = .op (0x09 :: []) :: [.op [0xFF, 0x00]] ∧
    9 ≤ (0x09 : Byte).toNat % 16 ∧ 9 ≤ (0xFF : Byte).toNat % 16 := by decide
theorem witness_BrRduReturnsTheExactSum :
    (1 ≤ 64 ∧ 64 ≤ 64 ∧ (reading (List.replicate 9 0xFF) 8).br.pos + 64 ≤ 8 * (List.replicate 9 (0xFF : Byte)).length) ∧
    (1 ≤ 1 ∧ 1 ≤ 64 ∧ (reading [0x01] 7).br.pos + 1 ≤ 8 * (reading [0x01] 7).br.buf.length) := by decide
theorem witness_BrRdsIsTheTwosComplementReading :
    (1 ≤ 64 ∧ 64 ≤ 64 ∧ (reading (List.replicate 8 0x80) 0).br.pos + 64 ≤ 8 * (List.replicate 8 (0x80 : Byte)).length) ∧
    (1 ≤ 1 ∧ 1 ≤ 64 ∧ (reading [0x80] 0).br.pos + 1 ≤ 8 * (reading [0x80] 0).br.buf.length) := by decide
theorem witness_BrReadsSplit :
    (1 ≤ 1 ∧ 1 ≤ 63 ∧ 1 + 63 ≤ 64 ∧
      (reading (List.replicate 8 0xA5) 0).br.pos + (1 + 63) ≤ 8 * (List.replicate 8 (0xA5 : Byte)).length) ∧
    (1 ≤ 64 ∧ 64 ≤ 64 ∧
      (reading (List.replicate 8 0xA5) 0).br.pos + 64 ≤ 8 * (List.replicate 8 (0xA5 : Byte)).length) := by decide
theorem witness_BrFailingReadConsumesNothing :
    1 ≤ 4 ∧ 4 ≤ 64 ∧ (reading [0xA5] 5).br.pos ≤ 8 * (reading [0xA5] 5).br.buf.length ∧
    8 * (reading [0xA5] 5).br.buf.length < (reading [0xA5] 5).br.pos + 4 ∧
    (1 ≤ 3 ∧ 3 ≤ 64 ∧ (reading [0xA5] 5).br.pos + 3 ≤ 8 * (reading [0xA5] 5).br.buf.length) := by decide
theorem witness_BrWidthOutside1To64Raises : (0 < 1 ∨ 64 < 0) ∧ (65 < 1 ∨ 64 < 65) := by decide
theorem witness_BrRemCountsTheUnreadBits :
    (reading [0xA5] 8).br.pos ≤ 8 * (reading [0xA5] 8).br.buf.length ∧
    State.reset.br.pos ≤ 8 * State.reset.br.buf.length ∧ (0x03 : Byte).toNat % 16 = 3 ∧ (0xF3 : Byte).toNat % 16 = 3 := by
  decide
theorem witness_ResetLeavesTheEmptyBlock : (1 ≤ 1 ∧ 1 ≤ 64) ∧ (1 ≤ 64 ∧ 64 ≤ 64) := by decide
theorem witness_BrLoadStartsAFreshReader :
    ([] : Bytes) = [] ∧ (1 ≤ 1 ∧ 1 ≤ 64) ∧ (1 ≤ 64 ∧ 64 ≤ 64) ∧ (0x00 : Byte).toNat % 16 = 0 ∧
    (0xF0 : Byte).toNat % 16 = 0 := by decide
theorem witness_BrCursorOnlyAdvances :
    (∃ t, exec .brRem State.reset = .next t ∧ t.br = State.reset.br) ∧
    (∃ t, exec (.brLoad [0xA5]) (reading [0xC3] 5) = .next t ∧ t.br = ⟨[0xA5], 0⟩) ∧
    (∃ t out, exec (.brRdu 3) (reading [0xA5] 5) = .next t ∧ t.reply = some (.ok out) ∧ t.br = ⟨[0xA5], 8⟩) ∧
    (∃ t out, exec (.brRds 64) (reading (List.replicate 8 0) 0) = .next t ∧ t.reply = some (.ok out) ∧
      t.br.pos = 64) ∧
    (∃ t e, exec (.brRds 4) (reading [0xA5] 5) = .next t ∧ t.reply = some (.raised e) ∧ t.br = ⟨[0xA5], 5⟩) :=
  ⟨⟨_, rfl, rfl⟩, ⟨_, rfl, rfl⟩, ⟨_, _, rfl, rfl, rfl⟩, ⟨_, _, rfl, rfl, rfl⟩, ⟨_, _, rfl, rfl, rfl⟩⟩
theorem witness_FsResetClearsOnlyTheAccumulator :
    (0x05 : Byte).toNat % 16 = 5 ∧ (0xF5 : Byte).toNat % 16 = 5 ∧ (∀ b ∈ ([0x13, 0x3E] : Bytes), b ≠ 0xD3) ∧
    (∀ b ∈ ([] : Bytes), b ≠ 0xD3) := by decide
theorem witness_CrcCalcIsTheSerialRegister : 0 + 0 ≤ ([] : Bytes).length ∧ 1 + 2 ≤ ([1, 2, 3] : Bytes).length := by decide
theorem witness_CrcRangeOutsideTheBufferRaises :
    ([] : Bytes).length < 1 + 0 ∧ ([1, 2, 3] : Bytes).length < 2 + 2 := by decide
theorem witness_CrcIsLinear : ([0x12, 0x34, 0x56] : Bytes).length = ([0xAB, 0xCD, 0xEF] : Bytes).length := by decide
theorem witness_CrcDetectsEverySingleBitError :
    0 < 8 * ([0xA5] : Bytes).length ∧ 7 < 8 * ([0xA5] : Bytes).length := by decide
theorem witness_FsPushFollowsTheEightSteps :
    Scan ((holding []).fsAcc ++ [0x00]) [] [] ∧ Scan ((holding [0xD3]).fsAcc ++ [0x00]) [] [0xD3, 0x00] ∧
    Scan ((holding [0xD3]).fsAcc ++ [0x00, 0x00]) [] [0xD3, 0x00, 0x00] ∧
    Scan ((holding [0x41]).fsAcc ++ [0xD3, 0x00, 0x00, 0x47, 0xEA, 0x4B])
      [⟨[0xD3, 0x00, 0x00, 0x47, 0xEA, 0x4B], [], decide ((crcOf [0xD3, 0x00, 0x00]).toNat =
        (0x47 : Byte).toNat * 65536 + (0xEA : Byte).toNat * 256 + (0x4B : Byte).toNat)⟩] [] :=
  ⟨.discard [0x00] (by decide), .waitHeader [] [0xD3, 0x00] (by decide) rfl (by decide),
    .waitFrame [] 0x00 0x00 [] (by decide) (by decide),
    .emit [0x41] 0x00 0x00 [] 0x47 0xEA 0x4B [] [] [] (by decide) rfl (.discard [] (by decide))⟩
theorem witness_FsLoopShrinksAndTerminates :
    ([] : Bytes).length / 6 + 1 ≤ 1 ∧ ([0xD3, 0, 0, 0x47, 0xEA, 0x4B] : Bytes).length / 6 + 1 ≤ 2 := by decide
theorem witness_FsPushIsChunkingInvariant :
    FsInv (holding []).fsAcc ∧ FsInv (holding [0xD3, 0x00]).fsAcc ∧ FsInv (holding [0xD3, 0x00, 0x01]).fsAcc := by decide
theorem witness_FsPushSkipsNoise :
    ((∀ b ∈ ([0x00, 0xFF, 0x41, 0x7A] : Bytes), b ≠ 0xD3) ∧ (List.replicate 1023 (0 : Byte)).length ≤ 1023 ∧
      State.reset.fsAcc = []) ∧
    (∃ t fs f, exec (.fsPush [0xD3, 0x00, 0x00, 0x47, 0xEA, 0x4B]) State.reset = .next t ∧
      t.reply = some (.ok (.frames fs)) ∧ f ∈ fs) := by
  refine ⟨by decide +kernel, _, _, ⟨[0xD3, 0x00, 0x00, 0x47, 0xEA, 0x4B], [], true⟩, rfl, rfl, ?_⟩
  decide +kernel
theorem witness_FsPushChecksTheComputedFrame :
    ([] : Bytes).length ≤ 1023 ∧ State.reset.fsAcc = [] ∧ (24 ≤ 24 ∧ 24 < 8 * (([] : Bytes).length + 6)) ∧
    (24 ≤ 47 ∧ 47 < 8 * (([] : Bytes).length + 6)) := by decide
theorem witness_EmittedFramesAreWholeAndChecked :
    ∃ t fs f, exec (.fsPush [0xD3, 0x00, 0x00, 0x47, 0xEA, 0x4C]) State.reset = .next t ∧
      t.reply = some (.ok (.frames fs)) ∧ f ∈ fs := by
  refine ⟨_, _, ⟨[0xD3, 0x00, 0x00, 0x47, 0xEA, 0x4C], [], false⟩, rfl, rfl, ?_⟩
  decide +kernel
theorem witness_FrameWordIsDelivered :
    (List.replicate 1023 (0xD3 : Byte)).length ≤ 1023 ∧ (holding []).fsAcc = [] := by decide +kernel
theorem witness_FalsePreambleSwallowsTheRealFrame : State.reset.fsAcc = [] := rfl
theorem witness_BlockInvariantIsKept :
    ∃ t, Inv { holding [0xD3] with issued := [.op [0x06, 0x00]] } ∧
      step { holding [0xD3] with issued := [.op [0x06, 0x00]] } = .next t ∧ t.fsAcc = [0xD3, 0x00] :=
  ⟨_, by decide, rfl, rfl⟩
theorem witness_OnlyReadsAndCrcCalcRaise :
    (∃ t, exec (.brRdu 0) State.reset = .next t ∧ t.reply = some (.raised (.eArg 0))) ∧
    (∃ t, exec (.brRds 64) State.reset = .next t ∧ t.reply = some (.raised (.eRange 64))) ∧
    (∃ t, exec (.crcCalc [] 0 1) State.reset = .next t ∧ t.reply = some (.raised (.eBounds 0 1))) :=
  ⟨⟨_, rfl, rfl⟩, ⟨_, rfl, rfl⟩, ⟨_, rfl, rfl⟩⟩
theorem witness_OperationsTouchOnlyTheirUnit :
    (∃ t, exec .fsReset (holding [0xD3]) = .next t ∧ t.fsAcc ≠ (holding [0xD3]).fsAcc) ∧
    (∃ t, exec (.brRdu 1) (reading [0xA5] 0) = .next t ∧ t.br ≠ (reading [0xA5] 0).br) :=
  ⟨⟨_, rfl, by decide⟩, ⟨_, rfl, by decide⟩⟩
theorem witness_MuxRouteDispatchesOnTheFirst12Bits :
    2 ≤ (RawFrame.mk [] [0x3E, 0xD0] true).payload.length := by decide
theorem witness_RuntHasNoMessageNumber : ([] : Bytes).length < 2 ∧ ([0x3E] : Bytes).length < 2 := by decide
theorem witness_MuxRouteRecordsCarryOneMarker :
    State.reset.params.wellFormed = true ∧ ([0x3E] : Bytes).length < 2 ∧ 2 ≤ ([0x3E, 0xD0] : Bytes).length ∧
    (∀ e ∈ State.reset.params.registered, e.1 ≠ msgnum [0x3F, 0xB1]) ∧
    (∃ e ∈ State.reset.params.registered, e.1 = msgnum [0x3E, 0xD0]) := by
  decide +kernel
theorem witness_UnsupportedReturnsTheHexRecord :
    (∀ e ∈ State.reset.params.registered, e.1 ≠ (0 : MsgNum).toNat) ∧
    (∀ e ∈ State.reset.params.registered, e.1 ≠ (4095 : MsgNum).toNat) ∧
    (∀ e ∈ State.reset.params.registered, e.1 ≠ (1078 : MsgNum).toNat) ∧
    (∀ e ∈ (State.resetWith (oneDecoder 1019 .msm)).params.registered, e.1 ≠ (1005 : MsgNum).toNat) := by decide
/-- The tables that the statements run over are the spec's lists (30_encoding.md R89, R90). -/
theorem witness_tables :
    fixedTable.map Prod.fst = [1001, 1002, 1003, 1004, 1005, 1006, 1007, 1008, 1009, 1010, 1011, 1012, 1230] ∧
    msmTable.map Prod.fst = msmNumbers ∧ messageTable.length = 41 ∧
    obsTable.map Prod.fst = [1001, 1002, 1003, 1004, 1009, 1010, 1011, 1012] := by decide
/-- The spec's default tables under either order of the data: the premise of the message statements. -/
theorem witness_DefaultTables :
    (DefaultTables State.reset ∧ State.reset.params.msmOrder = .rowMajor) ∧
    (DefaultTables (State.resetWith { defaultParams with msmOrder := .fieldMajor }) ∧
      (State.resetWith { defaultParams with msmOrder := .fieldMajor }).params.msmOrder = .fieldMajor) :=
  ⟨⟨⟨rfl, rfl⟩, rfl⟩, ⟨⟨rfl, rfl⟩, rfl⟩⟩
theorem witness_DecodersRecordTheirFixedKeys :
    (∃ e ∈ State.reset.params.registered, e.1 = (1230 : MsgNum).toNat) ∧
    (∃ e ∈ (State.resetWith (oneDecoder 4095 .msm)).params.registered, e.1 = (4095 : MsgNum).toNat) := by decide
/-- A layout of three kinds at the number 4095, and one of no field. -/
theorem witness_AnyNumericLayoutIsReadFieldByField :
    (∀ f ∈ [(Key.stationId, NumKind.s, 64), (.iods, .b, 1), (.cnr, .u, 1)], f.2.1 = .b → f.2.2 = 1) ∧
    (oneDecoder 4095 (.fixed (numericLayout [(Key.stationId, NumKind.s, 64), (.iods, .b, 1), (.cnr, .u, 1)])
      )).registered.lookup (4095 : MsgNum).toNat =
        some (.fixed (numericLayout [(.stationId, .s, 64), (.iods, .b, 1), (.cnr, .u, 1)])) ∧
    (oneDecoder 0 (.fixed [])).registered.lookup (0 : MsgNum).toNat = some (.fixed (numericLayout [])) := by decide
theorem witness_AnyMaskedLayoutReadsItsSetFields :
    (∀ f ∈ [(Key.stationId, NumKind.u, 9), (.other "mask", .u, 3)] ++
      [(2, Key.cnr, NumKind.b, 1), (0, .other "third", .s, 4)].map Prod.snd, f.2.1 = .b → f.2.2 = 1) ∧
    (∀ m, (place 12 [(Key.stationId, NumKind.u, 9), (.other "mask", .u, 3)]).find? (fun f => f.key == .other "mask") =
      some m → m.kind = .u) ∧
    (oneDecoder 7 (.bias (numericLayout [(.stationId, .u, 9), (.other "mask", .u, 3)]) (.other "mask")
      [(2, .num .b .cnr 1), (0, .num .s (.other "third") 4)])).registered.lookup (7 : MsgNum).toNat =
        some (.bias (numericLayout [(.stationId, .u, 9), (.other "mask", .u, 3)]) (.other "mask")
          ([(2, Key.cnr, NumKind.b, 1), (0, .other "third", .s, 4)].map fun f => (f.1, .num f.2.2.1 f.2.1 f.2.2.2))) :=
  ⟨by decide, fun m h => by cases h; rfl, rfl⟩
theorem witness_AnyRowLayoutReadsWholeRows :
    (∀ f ∈ [(Key.satelliteCount, NumKind.u, 5)] ++ [(Key.cnr, NumKind.b, 1)], f.2.1 = .b → f.2.2 = 1) ∧
    0 < bitsOf [(Key.cnr, NumKind.b, 1)] ∧
    (∀ m, (place 12 [(Key.satelliteCount, NumKind.u, 5)]).find? (fun f => f.key == .satelliteCount) = some m →
      m.kind = .u) ∧
    (oneDecoder 7 (.legacyObs (numericLayout [(.satelliteCount, .u, 5)]) .satelliteCount (.other "rows")
      (numericLayout [(.cnr, .b, 1)]))).registered.lookup (7 : MsgNum).toNat =
        some (.legacyObs (numericLayout [(.satelliteCount, .u, 5)]) .satelliteCount (.other "rows")
          (numericLayout [(.cnr, .b, 1)])) :=
  ⟨by decide, by decide, fun m h => by cases h; rfl, rfl⟩
theorem witness_ParametersAreFixed :
    ∃ t, step { State.resetWith (oneDecoder 0 .msm) with issued := [.op [0x05]] } = .next t ∧
      t.params = oneDecoder 0 .msm := ⟨_, rfl, rfl⟩
theorem witness_AntennaDescriptorReadsItsString :
    ([] : Bytes).length = (0 : Byte).toNat ∧ (List.replicate 255 (0x41 : Byte)).length = (255 : Byte).toNat ∧
    (List.replicate 13 (0x41 : Byte)).length < (14 : Byte).toNat := by decide +kernel
theorem witness_AntennaSerialReadsBothStrings :
    ([0x41] : Bytes).length = (1 : Byte).toNat ∧ ([0x53, 0x4E] : Bytes).length = (2 : Byte).toNat ∧
    ([] : Bytes).length < (1 : Byte).toNat := by decide
/-- The clauses of the two statements above, and of 1230's, for payloads that end early. -/
theorem witness_short_payloads :
    ([0x3E, 0xF0] : Bytes).length < 3 ∧ ([] : Bytes).length < 3 ∧
    exec (.antDesc [0x3E, 0xF0, 0x07]) State.reset = .next (returned (.fields
      ([(.stationId, .scalar (.uint 7)), (.antennaDescriptorLength, .scalar .absent),
        (.antennaDescriptor, .scalar .absent), (.antennaSetupId, .scalar .absent)] ++ ending true 0)) State.reset) :=
  ⟨by decide, by decide, rfl⟩
/-- The statement on a truncated message: at 26 bytes of V-MSM4 the last satellite value and every cell value are
absent, and nine bits remain (95_test_vectors.md 2.9). -/
theorem witness_MsmFieldMajorPlacesValuesByField :
    msmFieldMajor 4 (vMsm4Columns.take 26) = columnsCut 26 ∧ msmFieldMajor 4 vMsm4Columns = columnsCut 45 := by
  decide +kernel
theorem witness_MsmOrdersAgreeOnOneCell :
    1 ≤ 1077 % 10 ∧ 1077 % 10 ≤ 7 ∧ 169 ≤ 8 * (0x43 :: 0x51 :: msmBody 7).length ∧
    msmTotal (1077 % 10) (0x43 :: 0x51 :: msmBody 7) ≤ 8 * (0x43 :: 0x51 :: msmBody 7).length ∧
    (satIds (0x43 :: 0x51 :: msmBody 7)).length = 1 ∧ (activeCells (0x43 :: 0x51 :: msmBody 7)).length = 1 := by
  decide
theorem witness_MsmWidthZeroIsAbsent :
    ((.satellites, .list [[(.satelliteId, .uint 3), (.roughRangeMs, .absent), (.extendedInfo, .absent),
        (.roughRangeModulo, .uint 512), (.roughPhaseRangeRate, .absent)]]) ∈
      decodeMsm .rowMajor msmLayout 1071 (0x42 :: 0xF1 :: msmBody 1) ∧
      (⟨.roughRangeMs, .u, [0, 0, 0, 8, 8, 8, 8]⟩ : MsmField) ∈ msmSatellite ∧
      msmWidth ⟨.roughRangeMs, .u, [0, 0, 0, 8, 8, 8, 8]⟩ (1071 % 10) = 0) ∧
    ((.cells, .list [[(.satelliteId, .uint 3), (.signalId, .uint 2), (.finePseudorange, .sint (-100)),
        (.finePhaseRange, .absent), (.lockTimeIndicator, .absent), (.halfCycleAmbiguity, .absent), (.cnr, .absent),
        (.finePhaseRangeRate, .absent)]]) ∈
      decodeMsm .fieldMajor msmLayout 1071 (0x42 :: 0xF1 :: msmBody 1) ∧
      (⟨.cnr, .u, [0, 0, 0, 6, 6, 10, 10]⟩ : MsmField) ∈ msmCell ∧
      msmWidth ⟨.cnr, .u, [0, 0, 0, 6, 6, 10, 10]⟩ (1071 % 10) = 0) := by decide +kernel
theorem witness_MsmTypeOutside1To7ReadsNoData :
    (1070 % 10 = 0 ∨ 8 ≤ 1070 % 10) ∧ (1078 % 10 = 0 ∨ 8 ≤ 1078 % 10) ∧
    ((1079 : MsgNum).toNat % 10 = 0 ∨ 8 ≤ (1079 : MsgNum).toNat % 10) ∧
    (State.resetWith (oneDecoder 1079 .msm)).params.registered.lookup (1079 : MsgNum).toNat = some .msm ∧
    (State.resetWith (oneDecoder 1079 .msm)).params.msm = msmLayout := by decide
theorem witness_MsmSingleCellTestCase :
    (1 ≤ 1071 % 10 ∧ 1071 % 10 ≤ 7 ∧
      [195, 207, 222, 236, 269, 253, 286].getD (1071 % 10 - 1) 0 ≤ 8 * (0x42 :: 0xF1 :: msmBody 1).length) ∧
    (1 ≤ 1077 % 10 ∧ 1077 % 10 ≤ 7 ∧
      [195, 207, 222, 236, 269, 253, 286].getD (1077 % 10 - 1) 0 ≤ 8 * (0x43 :: 0x51 :: msmBody 7).length) ∧
    bitSum (0x42 :: 0xF1 :: msmBody 1) 73 64 = 0x2000000000000000 ∧
    bitSum (0x42 :: 0xF1 :: msmBody 1) 137 32 = 0x40000000 ∧ sbit (0x42 :: 0xF1 :: msmBody 1) 169 = true ∧
    bitSum (0x43 :: 0x51 :: msmBody 7) 73 64 = 0x2000000000000000 ∧
    bitSum (0x43 :: 0x51 :: msmBody 7) 137 32 = 0x40000000 ∧ sbit (0x43 :: 0x51 :: msmBody 7) 169 = true := by
  decide
theorem witness_MsmConstellationIsNotDecoded :
    (1071, Instr.msm1Gps) ∈ msmTable ∧ (1081, Instr.msm1Glo) ∈ msmTable ∧ 1071 % 10 = 1081 % 10 := by
  simp [msmTable]

end Sys2Proof.Tests
end

/-! PROOF. Every frame that the synchronizer emits is a whole RawFrame whose `crcValid` is the check of its trailer
(30_encoding.md R81 to R84, 42_framesync.md R167). -/

namespace Sys2Proof.Machine

/-! ### Which frames the loop emits -/

/-- Every frame emitted is extracted, in step 7, from a preamble, a header and the whole body that the header asks for,
which stand in the accumulator (42_framesync.md R167). -/
theorem exists_extractFrame_of_mem_fsScan {f : RawFrame} (acc : Bytes) (hf : f ∈ (fsScan acc).1) :
    ∃ b1 b2 body, body.length = headerLength b1 b2 + 3 ∧ preamble :: b1 :: b2 :: body <:+: acc ∧
      f = extractFrame (preamble :: b1 :: b2 :: body) (headerLength b1 b2) := by
  induction hn : acc.length using Nat.strong_induction_on generalizing acc with
  | _ n ih =>
    obtain hpre | ⟨pre, rest, hpre, rfl, hrest⟩ := acc_cases acc
    · simp [fsScan_discard hpre] at hf
    · rw [fsScan_noise hpre] at hf
      obtain hshort | ⟨b1, b2, body, rfl, hwait | ⟨frame, left, rfl, hframe⟩⟩ := hrest
      · simp [fsScan_header hshort] at hf
      · simp [fsScan_wait hwait] at hf
      · rw [fsScan_emit hframe, List.mem_cons] at hf
        obtain rfl | hleft := hf
        · exact ⟨b1, b2, frame, hframe, ⟨pre, left, by simp⟩, rfl⟩
        · have hlt : left.length < n := by
            simp only [List.length_append, List.length_cons] at hn
            omega
          obtain ⟨c1, c2, body, hbody, hin, rfl⟩ := ih _ hlt left hleft rfl
          have hsuffix : left <:+ pre ++ preamble :: b1 :: b2 :: (frame ++ left) :=
            ⟨pre ++ preamble :: b1 :: b2 :: frame, by simp⟩
          exact ⟨c1, c2, body, hbody, hin.trans hsuffix.isInfix, rfl⟩

/-! ### What an extracted frame is -/

/-- Three bytes from `a` as one big-endian number, byte by byte (20_memory.md R52). -/
theorem memRead_three (B : Bytes) (a : Nat) :
    memRead B a 3 =
      (B.getD a 0).toNat * 65536 + (B.getD (a + 1) 0).toNat * 256 + (B.getD (a + 2) 0).toNat := by
  simp only [memRead, Nat.add_zero]
  omega

theorem extractFrame_crcValid_iff (raw : Bytes) (len : Nat) :
    (extractFrame raw len).crcValid = true ↔ (crcOf (raw.take (3 + len))).toNat = memRead raw (3 + len) 3 := by
  simp [extractFrame, crcValidFlag]

section
variable {b1 b2 : Byte} {body : Bytes} (hbody : body.length = headerLength b1 b2 + 3)
include hbody

theorem extractFrame_payload_length :
    (extractFrame (preamble :: b1 :: b2 :: body) (headerLength b1 b2)).payload.length = headerLength b1 b2 := by
  simp [extractFrame, hbody]

theorem extractFrame_wellFormed :
    (extractFrame (preamble :: b1 :: b2 :: body) (headerLength b1 b2)).wellFormed = true := by
  simp [RawFrame.wellFormed, extractFrame, hbody]

end

/-- `CRC.CALC` from the start of a buffer that holds the range (41_crc24q.md R143). -/
theorem crcCalc_prefix {buf : Bytes} {len : Nat} (h : len ≤ buf.length) :
    crcCalc buf 0 len = .ok (crcOf (buf.take len)) := by
  obtain ⟨hout, -⟩ | ⟨-, hok⟩ := crcCalc_cases buf 0 len
  · omega
  · simpa using hok

/-- Settles O29: `FS.PUSH` replies with the frames of the scan, and each of them is an extracted frame. -/
theorem emittedFramesAreWholeAndChecked : Obligations.EmittedFramesAreWholeAndChecked := by
  intro bytes s t fs f ht hfs hf
  obtain rfl : pushBytes bytes s = t := by
    cases ht
    rfl
  obtain rfl : (fsScan (s.fsAcc ++ bytes)).1 = fs := by simpa using hfs
  obtain ⟨b1, b2, body, hbody, -, rfl⟩ := exists_extractFrame_of_mem_fsScan _ hf
  have hlen : (preamble :: b1 :: b2 :: body).length = headerLength b1 b2 + 6 := by simp [hbody]
  have hmax := headerLength_le b1 b2
  rw [extractFrame_payload_length hbody]
  refine ⟨extractFrame_wellFormed hbody, hlen, hlen.trans_le (by omega), _, crcCalc_prefix (hlen.symm ▸ by omega), ?_⟩
  rw [extractFrame_crcValid_iff, memRead_three, Nat.add_right_comm 3 _ 1, Nat.add_right_comm 3 _ 2]
  rfl

end Sys2Proof.Machine

/-! PROOF. A read that fits returns the exact sum over its bits (40_bitreader.md R121, R124). -/

namespace Sys2Proof.Machine

open Sys2Proof.Reference

/-- One bit more doubles the weight of every bit before it (00_scope.md R13). -/
theorem bitSum_succ (B : Bytes) (k n : Nat) :
    bitSum B k (n + 1) = 2 * bitSum B k n + (sbit B (k + n)).toNat := by
  have hdouble : ∀ i ∈ Finset.range n,
      (sbit B (k + i)).toNat * 2 ^ (n - i) = 2 * ((sbit B (k + i)).toNat * 2 ^ (n - 1 - i)) := by
    intro i hi
    have hexp : n - i = n - 1 - i + 1 := by
      have := Finset.mem_range.mp hi
      omega
    rw [hexp, pow_succ]
    ring
  simp only [bitSum, Nat.add_sub_cancel]
  rw [Finset.sum_range_succ, Finset.sum_congr rfl hdouble, ← Finset.mul_sum, Nat.sub_self, pow_zero, Nat.mul_one]

/-- The bits that the reader shifts in one by one are the spec's weighted sum (40_bitreader.md R124). -/
theorem bitRead_eq_bitSum (B : Bytes) (k n : Nat) : bitRead B k n = bitSum B k n := by
  induction n with
  | zero => rfl
  | succ n ih => rw [bitRead_succ, bitSum_succ, ih]

/-- A read of 1 to 64 bits that the buffer still holds succeeds (40_bitreader.md R121). -/
theorem Reader.rdu_of_fits {r : Reader} {n : Nat} (h1 : 1 ≤ n) (h64 : n ≤ 64) (hfit : r.pos + n ≤ 8 * r.buf.length) :
    r.rdu n = .ok (bitRead r.buf r.pos n, { r with pos := r.pos + n }) := by
  have hrem : n ≤ r.rem := by
    unfold Reader.rem
    omega
  obtain ⟨hwidth, -⟩ | ⟨-, -, hrange, -⟩ | ⟨-, -, -, hok⟩ := r.rdu_cases n
  · omega
  · omega
  · exact hok

/-- The whole effect of `BR.RDU n` when it fits: the value is the reply and only the cursor moves. -/
theorem exec_brRdu_of_fits {n : Nat} {s : State} (h1 : 1 ≤ n) (h64 : n ≤ 64)
    (hfit : s.br.pos + n ≤ 8 * s.br.buf.length) :
    exec (.brRdu n) s =
      .next { s with br := { s.br with pos := s.br.pos + n },
                     reply := some (.ok (.nat (bitRead s.br.buf s.br.pos n))) } := by
  change execBrRdu n s = _
  rw [execBrRdu, Reader.rdu_of_fits h1 h64 hfit]
  rfl

/-- Settles O8: the read's value is `bitRead`, which is the sum, and a sum of `n` bits is below `2 ^ n`. -/
theorem brRduReturnsTheExactSum : Obligations.BrRduReturnsTheExactSum := by
  intro n s h1 h64 hfit
  rw [← bitRead_eq_bitSum]
  exact ⟨exec_brRdu_of_fits h1 h64 hfit, bitRead_lt _ _ _, Nat.pow_le_pow_right (by decide) h64⟩

end Sys2Proof.Machine

/-! PROOF. `FS.PUSH` follows its eight steps: the relation that the steps define has a run on every accumulator, and
every run has the scan's result (42_framesync.md R161 to R168). -/

namespace Sys2Proof.Machine

/-- The operation always answers (42_framesync.md R169). -/
theorem exec_fsPush (bytes : Bytes) (s : State) : exec (.fsPush bytes) s = .next (pushBytes bytes s) := by
  rfl

/-- A body of a payload length and three bytes more is a payload and its three trailer bytes. -/
theorem exists_payload_trailer {len : Nat} {body : Bytes} (h : body.length = len + 3) :
    ∃ payload t0 t1 t2, payload.length = len ∧ body = payload ++ [t0, t1, t2] := by
  have htrailer : (body.drop len).length = 3 := by simp [h]
  obtain ⟨t0, t1, t2, ht⟩ := List.length_eq_three.mp htrailer
  refine ⟨body.take len, t0, t1, t2, by simp [h], ?_⟩
  rw [← ht, List.take_append_drop]

/-- Step 7 on a frame written as header, payload and trailer (42_framesync.md R167). -/
theorem extractFrame_append_trailer {b1 b2 : Byte} {payload : Bytes} (t0 t1 t2 : Byte)
    (h : payload.length = headerLength b1 b2) :
    extractFrame (preamble :: b1 :: b2 :: (payload ++ [t0, t1, t2])) (headerLength b1 b2) =
      ⟨preamble :: b1 :: b2 :: (payload ++ [t0, t1, t2]), payload,
        decide ((crcOf (preamble :: b1 :: b2 :: payload)).toNat =
          t0.toNat * 65536 + t1.toNat * 256 + t2.toNat)⟩ := by
  have hpayload : (payload ++ [t0, t1, t2]).take (headerLength b1 b2) = payload := by simp [← h]
  have hchecked : (preamble :: b1 :: b2 :: (payload ++ [t0, t1, t2])).take (3 + headerLength b1 b2) =
      preamble :: b1 :: b2 :: payload := by
    rw [Nat.add_comm, List.take_succ_cons, List.take_succ_cons, List.take_succ_cons, hpayload]
  have htrailer : memRead (preamble :: b1 :: b2 :: (payload ++ [t0, t1, t2])) (3 + headerLength b1 b2) 3 =
      t0.toNat * 65536 + t1.toNat * 256 + t2.toNat := by
    simp [memRead_three, ← h, Nat.add_comm 3, Nat.add_right_comm _ 3, List.getD_eq_getElem?_getD]
  have hvalid := extractFrame_crcValid_iff (preamble :: b1 :: b2 :: (payload ++ [t0, t1, t2])) (headerLength b1 b2)
  rw [hchecked, htrailer] at hvalid
  rw [← Bool.eq_iff_iff.mpr (hvalid.trans decide_eq_true_iff.symm)]
  simp only [extractFrame, List.drop_succ_cons, List.drop_zero, hpayload]

end Sys2Proof.Machine

namespace Sys2Proof.Reference

open Sys2Proof.Machine

/-- Some run of the steps gives the scan's result. -/
theorem scan_fsScan (acc : Bytes) : Scan acc (fsScan acc).1 (fsScan acc).2 := by
  induction hn : acc.length using Nat.strong_induction_on generalizing acc with
  | _ n ih =>
    obtain hpre | ⟨pre, rest, hpre, rfl, hrest⟩ := acc_cases acc
    · rw [fsScan_discard hpre]
      exact .discard acc hpre
    · rw [fsScan_noise hpre]
      obtain hshort | ⟨b1, b2, body, rfl, hwait | ⟨frame, left, rfl, hframe⟩⟩ := hrest
      · rw [fsScan_header hshort]
        exact .waitHeader pre _ hpre rfl (Nat.succ_lt_succ hshort)
      · rw [fsScan_wait hwait]
        exact .waitFrame pre b1 b2 body hpre (by rwa [← headerLength_eq])
      · have hlt : left.length < n := by
          simp only [List.length_append, List.length_cons] at hn
          omega
        obtain ⟨payload, t0, t1, t2, hpayload, rfl⟩ := exists_payload_trailer hframe
        rw [fsScan_emit hframe, extractFrame_append_trailer t0 t1 t2 hpayload, List.append_assoc]
        exact .emit pre b1 b2 payload t0 t1 t2 left _ _ hpre (hpayload.trans (headerLength_eq b1 b2))
          (ih _ hlt left rfl)

/-- Every run of the steps gives the scan's result. -/
theorem Scan.fsScan_eq {acc left : Bytes} {out : List RawFrame} (h : Scan acc out left) : fsScan acc = (out, left) := by
  induction h with
  | discard acc hpre => exact fsScan_discard hpre
  | waitHeader pre acc hpre hacc hshort =>
    obtain ⟨rest, rfl⟩ := List.head?_eq_some_iff.mp hacc
    exact (fsScan_noise hpre _).trans (fsScan_header (Nat.lt_of_succ_lt_succ hshort))
  | waitFrame pre b1 b2 tail hpre hwait =>
    exact (fsScan_noise hpre _).trans (fsScan_wait (by rwa [headerLength_eq]))
  | emit pre b1 b2 payload t0 t1 t2 rest out left hpre hlen _ ih =>
    rw [← headerLength_eq] at hlen
    have hbody : (payload ++ [t0, t1, t2]).length = headerLength b1 b2 + 3 := by simp [hlen]
    have hemit := fsScan_emit hbody rest
    rw [extractFrame_append_trailer t0 t1 t2 hlen, ih, List.append_assoc] at hemit
    exact (fsScan_noise hpre _).trans hemit

end Sys2Proof.Reference

namespace Sys2Proof.Machine

open Sys2Proof.Reference

/-- Settles O23: the operation replies with the scan of the accumulator and the chunk, which is what every run of the
steps gives. -/
theorem fsPushFollowsTheEightSteps : Obligations.FsPushFollowsTheEightSteps := by
  intro bytes s
  refine ⟨⟨_, _, scan_fsScan _⟩, fun out left hrun => ?_⟩
  rw [exec_fsPush, pushBytes, hrun.fsScan_eq]
  rfl

end Sys2Proof.Machine

/-! PROOF. A computed frame is reported valid, and with one payload or trailer bit inverted invalid (42_framesync.md
R174): a frame passes its check exactly when the CRC over the whole frame, trailer included, is 0, and inverting one
bit of a buffer changes its CRC (41_crc24q.md R147 items 5, 6). -/

namespace Sys2Proof.Machine

open Sys2Proof.Reference

/-! ### The CRC's steps lose nothing -/

/-- A bit step that shifts no set bit out only doubles. -/
theorem crcBit_toNat_of_lt {a : Crc} (h : a.toNat < 2 ^ 23) : (crcBit a).toNat = a.toNat * 2 := by
  have hmsb : a.getLsbD 23 = false := Nat.testBit_lt_two_pow h
  simp only [crcBit_eq, hmsb, Bool.false_eq_true, if_false, BitVec.ofNat_eq_ofNat, BitVec.xor_zero,
    BitVec.toNat_shiftLeft, Nat.shiftLeft_eq]
  omega

/-- Bit steps that shift no set bit out only multiply. -/
theorem crcBits_toNat_of_lt {k : Nat} {a : Crc} (h : a.toNat * 2 ^ k < 2 ^ 24) :
    (crcBits k a).toNat = a.toNat * 2 ^ k := by
  induction k generalizing a with
  | zero => simp [crcBits]
  | succ k ih =>
    have hpos : 0 < 2 ^ k := by positivity
    have hexp : a.toNat * 2 ^ (k + 1) = a.toNat * 2 * 2 ^ k := by ring
    rw [hexp] at h ⊢
    have hlt : a.toNat * 2 < 2 ^ 24 := lt_of_le_of_lt (Nat.le_mul_of_pos_right _ hpos) h
    have hstep : (crcBit a).toNat = a.toNat * 2 := crcBit_toNat_of_lt (by omega)
    rw [crcBits, ih (by rwa [hstep]), hstep]

/-- Only 0 is stepped to 0: the polynomial's low bit is set. -/
theorem crcBit_eq_zero {a : Crc} (h : crcBit a = 0) : a = 0 := by
  by_cases hlt : a.toNat < 2 ^ 23
  · have hdouble := crcBit_toNat_of_lt hlt
    rw [h] at hdouble
    change 0 = a.toNat * 2 at hdouble
    exact BitVec.eq_of_toNat_eq (show a.toNat = 0 by omega)
  · have hmsb : a.getLsbD 23 = true := Nat.testBit_of_two_pow_le_and_two_pow_add_one_gt (Nat.le_of_not_lt hlt) a.isLt
    rw [crcBit_eq, hmsb] at h
    have hlow := congrArg (BitVec.getLsbD · 0) h
    simp at hlow

theorem crcBit_injective : Function.Injective crcBit := by
  intro a b h
  have hzero : crcBit (a ^^^ b) = 0 := by rw [crcBit_xor, h, BitVec.xor_self]; rfl
  exact BitVec.xor_eq_zero_iff.mp (crcBit_eq_zero hzero)

theorem crcBits_injective (k : Nat) : Function.Injective (crcBits k) := by
  induction k with
  | zero => exact Function.injective_id
  | succ k ih => exact ih.comp crcBit_injective

theorem crcByte_left_injective (b : Byte) : Function.Injective (crcByte · b) := fun _ _ h =>
  BitVec.xor_left_inj _ |>.mp (crcBits_injective 8 h)

theorem crcBytes_injective (bs : Bytes) : Function.Injective (crcBytes · bs) := by
  induction bs with
  | nil => exact Function.injective_id
  | cons b bs ih => exact ih.comp (crcByte_left_injective b)

theorem crcByte_injective (a : Crc) : Function.Injective (crcByte a) := by
  intro b c h
  have hshift := BitVec.xor_right_inj _ |>.mp (crcBits_injective 8 h)
  ext i hi
  have hbit := congrArg (BitVec.getLsbD · (16 + i)) hshift
  have hfits : 16 + i < 24 := by omega
  have hwidth : i < 24 := by omega
  simpa [hi, hfits, hwidth] using hbit

/-! ### Inverting one bit -/

theorem flipBit_cons_add (b : Byte) (B : Bytes) (k : Nat) : flipBit (b :: B) (8 + k) = b :: flipBit B k := by
  have hbyte : (8 + k) / 8 = k / 8 + 1 := by omega
  have hbit : (8 + k) % 8 = k % 8 := by omega
  simp [flipBit, hbyte, hbit]

theorem flipBit_cons_of_lt (b : Byte) (B : Bytes) {k : Nat} (h : k < 8) :
    flipBit (b :: B) k = (b ^^^ BitVec.ofNat 8 (2 ^ (7 - k))) :: B := by
  simp [flipBit, Nat.div_eq_of_lt h, Nat.mod_eq_of_lt h]

@[simp] theorem flipBit_length (B : Bytes) (k : Nat) : (flipBit B k).length = B.length := by
  simp [flipBit]

/-- Inverting one bit of a buffer changes the register after it, whatever it was before. -/
theorem crcBytes_flipBit_ne (a : Crc) {B : Bytes} {k : Nat} (h : k < 8 * B.length) :
    crcBytes a (flipBit B k) ≠ crcBytes a B := by
  induction B generalizing a k with
  | nil => simp at h
  | cons b B ih =>
    obtain hk | ⟨j, rfl⟩ : k < 8 ∨ ∃ j, k = 8 + j := by
      by_cases hk : k < 8
      · exact .inl hk
      · exact .inr ⟨k - 8, by omega⟩
    · rw [flipBit_cons_of_lt b B hk, crcBytes_cons, crcBytes_cons]
      have hmask : ∀ k < 8, BitVec.ofNat 8 (2 ^ (7 - k)) ≠ 0 := by decide
      intro heq
      have hbyte := crcByte_injective a (crcBytes_injective B heq)
      exact hmask k hk (by simpa using hbyte)
    · rw [flipBit_cons_add, crcBytes_cons, crcBytes_cons]
      exact ih _ (by simp only [List.length_cons] at h; omega)

/-- Inverting one bit of a buffer changes its check value (41_crc24q.md R147 item 6). -/
theorem crcOf_flipBit_ne {B : Bytes} {k : Nat} (h : k < 8 * B.length) : crcOf (flipBit B k) ≠ crcOf B :=
  crcBytes_flipBit_ne crcInit h

/-! ### The check as a residue -/

/-- Taking in the byte that the register has on top shifts the sixteen bits below it up. -/
theorem crcByte_toNat_of_top {a : Crc} {b : Byte} {low : Nat} (ha : a.toNat = b.toNat * 65536 + low)
    (hlow : low < 65536) : (crcByte a b).toNat = low * 256 := by
  have hb := b.isLt
  have hshift : (b.setWidth 24 <<< 16 : Crc).toNat = b.toNat * 65536 := by
    rw [BitVec.toNat_shiftLeft, BitVec.toNat_setWidth, Nat.shiftLeft_eq]
    omega
  have hxor : (a ^^^ (b.setWidth 24 <<< 16)).toNat = low := by
    rw [BitVec.toNat_xor, ha, hshift]
    have hhigh : (b.toNat * 65536 + low ^^^ b.toNat * 65536) / 2 ^ 16 = 0 := by
      rw [Nat.xor_div_two_pow, show (b.toNat * 65536 + low) / 2 ^ 16 = b.toNat by omega,
        show b.toNat * 65536 / 2 ^ 16 = b.toNat by omega, Nat.xor_self]
    have hmod : (b.toNat * 65536 + low ^^^ b.toNat * 65536) % 2 ^ 16 = low := by
      rw [Nat.xor_mod_two_pow, show (b.toNat * 65536 + low) % 2 ^ 16 = low by omega,
        show b.toNat * 65536 % 2 ^ 16 = 0 by omega, Nat.xor_zero]
    omega
  rw [crcByte, crcBits_toNat_of_lt (by rw [hxor]; omega), hxor]
  rfl

/-- Three bytes bring the register to 0 exactly when they are its value, most significant byte first
(41_crc24q.md R147 item 5). -/
theorem crcBytes_three_eq_zero_iff (a : Crc) (t0 t1 t2 : Byte) :
    crcBytes a [t0, t1, t2] = 0 ↔ a.toNat = t0.toNat * 65536 + t1.toNat * 256 + t2.toNat := by
  have h0 := t0.isLt
  have h1 := t1.isLt
  have h2 := t2.isLt
  have hresidue {c : Crc} (hc : c.toNat = t0.toNat * 65536 + t1.toNat * 256 + t2.toNat) :
      crcBytes c [t0, t1, t2] = 0 := by
    have e0 := crcByte_toNat_of_top (low := t1.toNat * 256 + t2.toNat) (hc.trans (Nat.add_assoc ..)) (by omega)
    have e1 := crcByte_toNat_of_top (b := t1) (low := t2.toNat * 256) (e0.trans (by ring)) (by omega)
    have e2 := crcByte_toNat_of_top (b := t2) (low := 0) (e1.trans (by ring)) (by omega)
    exact BitVec.eq_of_toNat_eq e2
  refine ⟨fun h => ?_, hresidue⟩
  have hvalue : (BitVec.ofNat 24 (t0.toNat * 65536 + t1.toNat * 256 + t2.toNat)).toNat =
      t0.toNat * 65536 + t1.toNat * 256 + t2.toNat := by
    rw [BitVec.toNat_ofNat]
    omega
  rw [crcBytes_injective _ (h.trans (hresidue hvalue).symm), hvalue]

/-! ### A frame pushed at a frame boundary -/

/-- Step 7 on a whole frame: the check passes when the CRC over all its bytes, trailer included, is 0. -/
theorem extractFrame_eq {b1 b2 : Byte} {body : Bytes} (h : body.length = headerLength b1 b2 + 3) :
    extractFrame (preamble :: b1 :: b2 :: body) (headerLength b1 b2) =
      ⟨preamble :: b1 :: b2 :: body, body.take (headerLength b1 b2),
        decide (crcOf (preamble :: b1 :: b2 :: body) = 0)⟩ := by
  obtain ⟨payload, t0, t1, t2, hpayload, rfl⟩ := exists_payload_trailer h
  have hcheck : crcOf (preamble :: b1 :: b2 :: (payload ++ [t0, t1, t2])) =
      crcBytes (crcOf (preamble :: b1 :: b2 :: payload)) [t0, t1, t2] :=
    crcBytes_append crcInit (preamble :: b1 :: b2 :: payload) [t0, t1, t2]
  rw [extractFrame_append_trailer t0 t1 t2 hpayload, hcheck]
  simp only [crcBytes_three_eq_zero_iff, List.take_left' hpayload]

/-- A whole frame pushed on an empty accumulator is the one frame emitted, and nothing is left. -/
theorem exec_fsPush_frame {b1 b2 : Byte} {body : Bytes} (h : body.length = headerLength b1 b2 + 3) {s : State}
    (hs : s.fsAcc = []) :
    exec (.fsPush (preamble :: b1 :: b2 :: body)) s =
      .next { s with reply := some (.ok (.frames [⟨preamble :: b1 :: b2 :: body, body.take (headerLength b1 b2),
        decide (crcOf (preamble :: b1 :: b2 :: body) = 0)⟩])) } := by
  have hscan := fsScan_emit h []
  rw [List.append_nil, extractFrame_eq h, fsScan_nil] at hscan
  rw [exec_fsPush, pushBytes, hs, List.nil_append, hscan, ← hs]
  rfl

/-- A check value is the value of its three trailer bytes (30_encoding.md R84). -/
theorem toNat_eq_trailer_bytes (c : Crc) :
    c.toNat = (BitVec.ofNat 8 (c.toNat / 65536)).toNat * 65536 + (BitVec.ofNat 8 (c.toNat / 256)).toNat * 256 +
      (BitVec.ofNat 8 c.toNat).toNat := by
  have hlt := c.isLt
  simp only [BitVec.toNat_ofNat]
  omega

/-- The computed frame as preamble, length bytes and body: the length bytes say the payload's length, and the CRC over
the whole frame is 0. -/
theorem exists_computedFrame_eq {P : Bytes} (h : P.length ≤ 1023) :
    ∃ b1 b2 trailer, headerLength b1 b2 = P.length ∧ trailer.length = 3 ∧
      computedFrame P = preamble :: b1 :: b2 :: (P ++ trailer) ∧ crcOf (computedFrame P) = 0 := by
  refine ⟨_, _, _, ?_, ?_, rfl, ?_⟩
  · rw [headerLength_eq, BitVec.toNat_ofNat, BitVec.toNat_ofNat]
    omega
  · rfl
  · exact (crcBytes_append _ _ _).trans ((crcBytes_three_eq_zero_iff _ _ _ _).mpr (toNat_eq_trailer_bytes _))

/-- Settles O28: the computed frame has residue 0, and inverting a bit behind the header keeps the frame's shape and
changes the residue. -/
theorem fsPushChecksTheComputedFrame : Obligations.FsPushChecksTheComputedFrame := by
  intro P s hP hs
  obtain ⟨b1, b2, trailer, hlen, htrailer, hframe, hzero⟩ := exists_computedFrame_eq hP
  have hbody : (P ++ trailer).length = headerLength b1 b2 + 3 := by simp [hlen, htrailer]
  rw [hframe] at hzero ⊢
  refine ⟨?_, fun k hk hlt => ?_⟩
  · rw [exec_fsPush_frame hbody hs, hzero, List.take_left' hlen.symm]
    rfl
  · obtain ⟨j, rfl⟩ : ∃ j, k = 8 + (8 + (8 + j)) := ⟨k - 24, by omega⟩
    have hne : crcOf (flipBit (preamble :: b1 :: b2 :: (P ++ trailer)) (8 + (8 + (8 + j)))) ≠ 0 :=
      hzero ▸ crcOf_flipBit_ne (by simp only [List.length_cons, hbody, hlen]; omega)
    simp only [flipBit_cons_add] at hne ⊢
    rw [exec_fsPush_frame (by rwa [flipBit_length]) hs, hlen, decide_eq_false hne]
    rfl

end Sys2Proof.Machine

/-! PROOF. The six total operations return a result (60_exceptions.md R303): each ends in `answer` on every path, never
in `raise`. -/

namespace Sys2Proof.Machine

/-! ### What each of them answers -/

theorem exec_brLoad (buf : Bytes) (s : State) :
    exec (.brLoad buf) s = .next (answer .unit { s with br := Reader.load buf }) := by
  rfl

theorem exec_brRem (s : State) : exec .brRem s = .next (answer (.nat s.br.rem) s) := by
  rfl

theorem exec_fsReset (s : State) : exec .fsReset s = .next (answer .unit { s with fsAcc := [] }) := by
  rfl

theorem exec_decDecode (type : MsgNum) (payload : Bytes) (s : State) :
    exec (.decDecode type payload) s = .next (answer (.fields (decodeMessage s.params type.toNat payload)) s) := by
  rfl

theorem exec_muxRoute (f : RawFrame) (s : State) :
    exec (.muxRoute f) s = .next (answer (.message (routeFrame s.params f)) s) := by
  rfl

/-- An operation that ends in `answer` completes (00_scope.md R15). -/
theorem completes_of_exec_eq_answer {i : Instr} {s t : State} {out : Output} (h : exec i s = .next (answer out t)) :
    Completes i s :=
  ⟨answer out t, out, h, answer_reply out t⟩

/-- Settles O36: each of the six operations ends in `answer`, whatever the state and the operand. -/
theorem totalOperationsNeverRaise : Obligations.TotalOperationsNeverRaise := by
  intro s bytes type f
  refine ⟨?fsPush, ?fsReset, ?brLoad, ?brRem, ?decDecode, ?muxRoute⟩
  case fsPush => exact ⟨_, _, exec_fsPush bytes s, pushBytes_reply bytes s⟩
  case fsReset => exact completes_of_exec_eq_answer (exec_fsReset s)
  case brLoad => exact completes_of_exec_eq_answer (exec_brLoad bytes s)
  case brRem => exact completes_of_exec_eq_answer (exec_brRem s)
  case decDecode => exact completes_of_exec_eq_answer (exec_decDecode type bytes s)
  case muxRoute => exact completes_of_exec_eq_answer (exec_muxRoute f s)

end Sys2Proof.Machine

/-! PROOF. Words and the step: the decoder undoes the encoder (30_encoding.md sections 1, 2, 7), the first 12 payload
bits select the instruction, and a step runs what the next word decodes to. -/

namespace Sys2Proof

open Sys2Proof.Machine Sys2Proof.Reference

/-! ### Port operations -/

theorem decodeWidth_natBytes (mk : Nat → Instr) (n : Nat) : decodeWidth mk (natBytes n) = .ok (mk n) := by
  have hread := natFrom_natBytes n []
  rw [List.append_nil] at hread
  simp [decodeWidth, hread]

theorem decodeCrcCalc_natBytes (buf : Bytes) (off len : Nat) :
    decodeCrcCalc (natBytes off ++ natBytes len ++ buf) = .ok (.crcCalc buf off len) := by
  simp [decodeCrcCalc, natFrom_natBytes]

/-- A message number's two bytes read back: the high byte is below 16. -/
theorem decodeDecDecode_bytes (type : MsgNum) (p : Bytes) :
    decodeDecDecode (BitVec.ofNat 8 (type.toNat / 256) :: BitVec.ofNat 8 type.toNat :: p) =
      .ok (.decDecode type p) := by
  have hlt := type.isLt
  have hhigh : (BitVec.ofNat 8 (type.toNat / 256)).toNat = type.toNat / 256 := by
    rw [BitVec.toNat_ofNat]
    omega
  have hlow : (BitVec.ofNat 8 type.toNat).toNat = type.toNat % 256 := BitVec.toNat_ofNat ..
  have hvalue : type.toNat / 256 * 256 + type.toNat % 256 = type.toNat := by omega
  have hrange : type.toNat / 256 < 16 := by omega
  rw [decodeDecDecode, hhigh, hlow, hvalue, if_pos hrange, BitVec.ofNat_toNat, BitVec.setWidth_eq]

theorem decodeMuxRoute_bytes (f : RawFrame) :
    decodeMuxRoute (BitVec.ofNat 8 f.crcValid.toNat :: (natBytes f.rawBytes.length ++ f.rawBytes ++ f.payload)) =
      .ok (.muxRoute f) := by
  have hflag : ∀ v : Bool, ¬ 1 < (BitVec.ofNat 8 v.toNat).toNat ∧ ((BitVec.ofNat 8 v.toNat).toNat == 1) = v := by
    decide
  obtain ⟨hrange, hvalue⟩ := hflag f.crcValid
  simp only [decodeMuxRoute, hrange, if_false, List.append_assoc, natFrom_natBytes, hvalue]
  simp

/-! ### Frames -/

/-- The reserved bits are the upper six of header byte 1 (30_encoding.md R82). -/
theorem extractLsb'_headerByte (reserved : BitVec 6) (len : Nat) :
    (BitVec.ofNat 8 (reserved.toNat * 4 + len / 256 % 4)).extractLsb' 2 6 = reserved := by
  have hlt := reserved.isLt
  apply BitVec.eq_of_toNat_eq
  rw [BitVec.extractLsb'_toNat, BitVec.toNat_ofNat, Nat.shiftRight_eq_div_pow]
  omega

theorem decodeFrame_frameBytes (reserved : BitVec 6) {payload : Bytes} (crc : Crc) (h : payload.length ≤ 1023) :
    decodeFrame (frameBytes reserved payload crc) = .ok (.frame reserved payload crc) := by
  have hlen := headerLength_headerBytes reserved h
  have htrailer : (trailerBytes crc).length = 3 := rfl
  simp [frameBytes, headerBytes, decodeFrame, hlen, htrailer, extractLsb'_headerByte, memRead_trailerBytes]

/-! ### Payloads -/

theorem decode_unsupported {P : Params} {p : Bytes} (hlen : 2 ≤ p.length) (h : isRegistered P (msgnum p) = false)
    (crcValid : Bool) : decode P (.payload crcValid p) = .ok (.unsupported p) := by
  obtain ⟨hshort, -⟩ | ⟨-, -, hdecode⟩ | ⟨-, hreg, -⟩ := decodePayload_cases P crcValid p
  · omega
  · exact congrArg _ hdecode
  · simp [h] at hreg

theorem decode_runt {P : Params} {p : Bytes} (h : p.length < 2) (crcValid : Bool) :
    decode P (.payload crcValid p) = .ok (.runt p crcValid) := by
  simp [decode, decodePayload, h]

/-- Settles O1: each port operation reads its own operands back, a frame its header and trailer, and a payload selects
the message that its number names. -/
theorem decodeInvertsEncode : Obligations.DecodeInvertsEncode := by
  intro P i h
  cases i
  case brLoad => rfl
  case brRdu n => exact decodeWidth_natBytes .brRdu n
  case brRds n => exact decodeWidth_natBytes .brRds n
  case brRem => rfl
  case crcCalc buf off len => exact decodeCrcCalc_natBytes buf off len
  case fsReset => rfl
  case fsPush => rfl
  case decDecode type p => exact decodeDecDecode_bytes type p
  case muxRoute f => exact decodeMuxRoute_bytes f
  case frame reserved p crc => exact decodeFrame_frameBytes reserved crc (of_decide_eq_true h)
  case unsupported p =>
    obtain ⟨hlen, hreg⟩ : 2 ≤ p.length ∧ isRegistered P (msgnum p) = false := by
      simpa [Instr.wellFormed] using h
    exact decode_unsupported hlen hreg true
  case runt p v => exact decode_runt (of_decide_eq_true h) v
  all_goals exact decode_numbered rfl h true

/-! ### The message number -/

/-- The message number of a payload of at least two bytes, from those bytes (30_encoding.md R85). -/
theorem msgnum_cons_cons (b0 b1 : Byte) (rest : Bytes) :
    msgnum (b0 :: b1 :: rest) = b0.toNat * 16 + b1.toNat / 16 := by
  have hfirst := bitRead_eight_first b0 (b1 :: rest)
  have hhalf : bitRead (b0 :: b1 :: rest) 8 4 = bitRead (b1 :: rest) 0 4 := bitRead_cons_add b0 (b1 :: rest) 0 4
  have hsplit := bitRead_add (b1 :: rest) 0 4 4
  have hlow := bitRead_lt (b1 :: rest) 4 4
  have hsecond : bitRead (b1 :: rest) 0 (4 + 4) = b1.toNat := bitRead_eight_first b1 rest
  rw [hsecond, Nat.zero_add] at hsplit
  rw [msgnum, show 12 = 8 + 4 from rfl, bitRead_add, hfirst, Nat.zero_add, hhalf]
  omega

theorem msgnum_cons_cons_eq_or (b0 b1 : Byte) (rest : Bytes) :
    msgnum (b0 :: b1 :: rest) = (b0.toNat <<< 4) ||| (b1.toNat >>> 4) := by
  have hb1 := b1.isLt
  rw [msgnum_cons_cons, Nat.shiftRight_eq_div_pow, ← Nat.shiftLeft_add_eq_or_of_lt (by omega), Nat.shiftLeft_eq]

/-- The row's mask keeps the message number (30_encoding.md R89). -/
theorem match_mask_iff (b0 b1 : Byte) (rest : Bytes) (n : Nat) :
    (b0.toNat <<< 8 ||| b1.toNat) &&& 0xFFF0 = n <<< 4 ↔ msgnum (b0 :: b1 :: rest) = n := by
  have hb1 := b1.isLt
  have hword : b0.toNat <<< 8 ||| b1.toNat = msgnum (b0 :: b1 :: rest) * 2 ^ 4 + b1.toNat % 16 := by
    rw [msgnum_cons_cons, ← Nat.shiftLeft_add_eq_or_of_lt hb1, Nat.shiftLeft_eq]
    omega
  have hmask := Laws.and_high_mask (j := 12) (k := 4) (Nat.mod_lt b1.toNat (by decide : 16 > 0))
    (msgnum_lt (b0 :: b1 :: rest))
  rw [hword, show (0xFFF0 : Nat) = (2 ^ 12 - 1) <<< 4 from rfl, show 16 = 2 ^ 4 from rfl, hmask, Nat.shiftLeft_eq,
    Nat.shiftLeft_eq]
  omega

/-- The 41 rows of the statements are the rows of the model (30_encoding.md R89, R90). -/
theorem messageInstr_of_mem_messageTable {e : Nat × (Bytes → Instr)} (h : e ∈ messageTable) :
    messageInstr e.1 = some e.2 := by
  have hall : ∀ e ∈ messageTable, messageInstr e.1 = some e.2 := by
    simp [messageTable, fixedTable, msmTable, messageInstr]
  exact hall e h

/-- A message instruction's row of the opcode table holds its number. -/
theorem tableRow_of_messageInstr {n : Nat} {mk : Bytes → Instr} (h : messageInstr n = some mk) (p : Bytes) :
    Laws.tableRow (mk p) = (16, 0xFFF0, n * 16) := by
  unfold messageInstr at h
  split at h <;> cases h <;> rfl

theorem mem_messageTable_of_messageInstr {n : Nat} {mk : Bytes → Instr} (h : messageInstr n = some mk) :
    ∃ e ∈ messageTable, e.1 = n := by
  unfold messageInstr at h
  split at h <;> cases h
  all_goals decide

/-- A payload of two bytes or more decodes to the row that its number names exactly when that number is `n`. -/
theorem decode_eq_row_iff {P : Params} {n : Nat} {mk : Bytes → Instr} {p : Bytes} (hn : messageInstr n = some mk)
    (hreg : isRegistered P n = true) (hlen : 2 ≤ p.length) (crcValid : Bool) :
    msgnum p = n ↔ decode P (.payload crcValid p) = .ok (mk p) := by
  constructor
  · rintro rfl
    exact decode_numbered hn (by simp [numbered, hlen, hreg]) crcValid
  · intro h
    have hrow := tableRow_of_messageInstr hn p
    rw [← Except.ok.inj h] at hrow
    obtain ⟨hshort, -⟩ | ⟨-, -, hdecode⟩ | ⟨-, -, ⟨mk', hmk', hdecode⟩ | ⟨-, hdecode⟩⟩ := decodePayload_cases P crcValid p
    · omega
    · simp [hdecode, Laws.tableRow] at hrow
    · rw [hdecode, tableRow_of_messageInstr hmk'] at hrow
      simpa using hrow
    · simp [hdecode, Laws.tableRow] at hrow

/-- A registered number without a row is given to its decoder (43_mux_fixed.md R183; log entry 15). -/
theorem decode_of_no_row {P : Params} {p : Bytes} (hn : messageInstr (msgnum p) = none)
    (hreg : isRegistered P (msgnum p) = true) (hlen : 2 ≤ p.length) (crcValid : Bool) :
    decode P (.payload crcValid p) = .ok (.decDecode (BitVec.ofNat 12 (msgnum p)) p) := by
  have hlong : ¬ p.length < 2 := by omega
  simp [decode, decodePayload, hlong, hreg, hn]

theorem isRegistered_iff_mem (P : Params) (n : Nat) : isRegistered P n = true ↔ n ∈ P.registered.map Prod.fst := by
  rw [isRegistered_iff, List.mem_map]

/-- Settles O4: the row's match says what the message number is, and the decoder looks that number up. -/
theorem messageNumberSelectsTheInstruction : Obligations.MessageNumberSelectsTheInstruction := by
  refine ⟨fun P crcValid b0 b1 rest => ?_, by decide⟩
  have hlen : 2 ≤ (b0 :: b1 :: rest).length := by simp
  simp only [match_mask_iff b0 b1 rest, ne_eq, ← isRegistered_iff_mem]
  refine ⟨msgnum_cons_cons_eq_or b0 b1 rest, fun e he hreg => ?_, fun n hreg hrow hnum => ?_, fun hnone => ?_⟩
  · exact decode_eq_row_iff (messageInstr_of_mem_messageTable he) hreg hlen crcValid
  · subst hnum
    refine decode_of_no_row (Option.eq_none_iff_forall_ne_some.mpr fun mk hmk => ?_) hreg hlen crcValid
    obtain ⟨e, he, heq⟩ := mem_messageTable_of_messageInstr hmk
    exact hrow e he heq
  · exact decode_unsupported hlen (Bool.eq_false_iff.mpr fun hreg => hnone _ hreg rfl) crcValid

/-! ### The step -/

theorem step_idle {s : State} (h : s.issued = []) : step s = .next s := by
  simp [step, h]

theorem step_of_decode {s : State} {w : InputWord} {rest : List InputWord} {i : Instr} (hs : s.issued = w :: rest)
    (hw : decode s.params w = .ok i) : step s = exec i { s with issued := rest } := by
  simp [step, hs, hw]

theorem step_of_undecodable {s : State} {w : InputWord} {rest : List InputWord} {why : DecodeError}
    (hs : s.issued = w :: rest) (hw : decode s.params w = .error why) : step s = .refused (.undecodable why) := by
  simp [step, hs, hw]

/-- Settles O2: the three cases of the step. -/
theorem stepRunsTheIssuedInstruction : Obligations.StepRunsTheIssuedInstruction :=
  fun _ => ⟨fun _ _ _ => step_of_decode, fun _ _ _ => step_of_undecodable, step_idle⟩

/-- Settles O3: each word is decoded. -/
theorem tableWordsDecodeToTheirRows : Obligations.TableWordsDecodeToTheirRows :=
  ⟨fun _ => ⟨rfl, rfl, rfl, rfl, rfl, rfl⟩, rfl, rfl, rfl⟩

/-- A select code above 8 names no operation (30_encoding.md R104). -/
theorem decode_unassigned (P : Params) {b : Byte} (bs : Bytes) (h : 9 ≤ b.toNat % 16) :
    decode P (.op (b :: bs)) = .error (.unassignedOpsel (b.toNat % 16)) := by
  simp only [decode, decodeOp]
  split
  case h_10 => rfl
  all_goals omega

/-- Settles O5: the word is refused before any operation is chosen. -/
theorem unassignedSelectCodesAreRefused : Obligations.UnassignedSelectCodesAreRefused :=
  fun s _ bs _ hs h => step_of_undecodable hs (decode_unassigned s.params bs h)

end Sys2Proof

/-! PROOF. The bit reader: what a read that does not fit, a width out of range and a load do, and the laws of reads in
a row (40_bitreader.md). -/

namespace Sys2Proof.Machine

open Sys2Proof.Reference

/-! ### What each port operation of the reader does -/

/-- The whole effect of `BR.RDS n` when it fits: the value is the reply and only the cursor moves. -/
theorem exec_brRds_of_fits {n : Nat} {s : State} (h1 : 1 ≤ n) (h64 : n ≤ 64)
    (hfit : s.br.pos + n ≤ 8 * s.br.buf.length) :
    exec (.brRds n) s =
      .next { s with br := { s.br with pos := s.br.pos + n },
                     reply := some (.ok (.int (sext n (bitRead s.br.buf s.br.pos n)))) } := by
  change execBrRds n s = _
  rw [execBrRds, Reader.rds, Reader.rdu_of_fits h1 h64 hfit]
  rfl

/-- A read of more bits than remain raises `E_RANGE` (40_bitreader.md R127). -/
theorem exec_read_of_short {n : Nat} {s : State} (h1 : 1 ≤ n) (h64 : n ≤ 64) (hshort : s.br.rem < n) :
    exec (.brRdu n) s = .next (raise (.eRange n) s) ∧ exec (.brRds n) s = .next (raise (.eRange n) s) := by
  have hrdu : s.br.rdu n = .error (.eRange n) := by
    obtain ⟨hwidth, -⟩ | ⟨-, -, -, he⟩ | ⟨-, -, hfit, -⟩ := s.br.rdu_cases n
    · omega
    · exact he
    · omega
  refine ⟨?_, ?_⟩
  · change execBrRdu n s = _
    rw [execBrRdu, hrdu]
  · change execBrRds n s = _
    rw [execBrRds, Reader.rds, hrdu]

/-- A width outside 1..64 raises `E_ARG`, whatever remains (40_bitreader.md R128). -/
theorem exec_read_of_width {n : Nat} (s : State) (h : n < 1 ∨ 64 < n) :
    exec (.brRdu n) s = .next (raise (.eArg n) s) ∧ exec (.brRds n) s = .next (raise (.eArg n) s) := by
  have hrdu : s.br.rdu n = .error (.eArg n) := if_pos h
  refine ⟨?_, ?_⟩
  · change execBrRdu n s = _
    rw [execBrRdu, hrdu]
  · change execBrRds n s = _
    rw [execBrRds, Reader.rds, hrdu]

theorem completes_read_of_fits {n : Nat} {s : State} (h1 : 1 ≤ n) (h64 : n ≤ 64)
    (hfit : s.br.pos + n ≤ 8 * s.br.buf.length) : Completes (.brRdu n) s ∧ Completes (.brRds n) s :=
  ⟨⟨_, _, exec_brRdu_of_fits h1 h64 hfit, rfl⟩, ⟨_, _, exec_brRds_of_fits h1 h64 hfit, rfl⟩⟩

/-! ### Reset, load and the unread bits -/

/-- Settles O6: the reset reader has no bit left, so every read is short. -/
theorem resetLeavesTheEmptyBlock : Obligations.ResetLeavesTheEmptyBlock := by
  refine ⟨fun P => ⟨_, rfl, rfl, rfl, rfl, rfl, exec_brRem _, fun n h1 h64 => ?_⟩, rfl⟩
  have hempty : (State.resetWith P).br.rem = 0 := rfl
  exact exec_read_of_short h1 h64 (by omega)

/-- Settles O7: after the load the reader has the whole buffer left, and an empty one makes every read short. -/
theorem brLoadStartsAFreshReader : Obligations.BrLoadStartsAFreshReader := by
  intro buf s
  refine ⟨_, fun P b hb => ?_, exec_brLoad buf s, rfl, exec_brRem _, fun hbuf n h1 h64 => ?_⟩
  · simp [decode, decodeOp, hb]
  · have hempty : (answer .unit { s with br := Reader.load buf }).br.rem = 0 := by simp [hbuf]
    exact exec_read_of_short h1 h64 (by omega)

/-- Settles O13: under the cursor's invariant the difference loses nothing. -/
theorem brRemCountsTheUnreadBits : Obligations.BrRemCountsTheUnreadBits := by
  refine ⟨fun P b hb => ?_, fun s hpos => ⟨_, exec_brRem s, Nat.add_sub_cancel' hpos⟩⟩
  simp [decode, decodeOp, decodeBare, hb]

/-! ### Failing reads -/

/-- Settles O12: the width is checked first, so the buffer does not matter. -/
theorem brWidthOutside1To64Raises : Obligations.BrWidthOutside1To64Raises :=
  fun _ s h => exec_read_of_width s h

/-- Settles O11: the raise leaves the reader as it was, so what fitted before fits after. -/
theorem brFailingReadConsumesNothing : Obligations.BrFailingReadConsumesNothing := by
  intro n s h1 h64 _ hshort
  have hrem : s.br.rem < n := by
    unfold Reader.rem
    omega
  obtain ⟨hrdu, hrds⟩ := exec_read_of_short h1 h64 hrem
  exact ⟨_, hrdu, hrds, rfl, fun m hm1 hm64 hfit => completes_read_of_fits hm1 hm64 hfit⟩

/-! ### Signed and repeated reads -/

/-- Settles O9: both reads see the same bits, and `sext` is undone modulo `2 ^ n`. -/
theorem brRdsIsTheTwosComplementReading : Obligations.BrRdsIsTheTwosComplementReading := by
  intro n s h1 h64 hfit
  refine ⟨_, _, exec_brRdu_of_fits h1 h64 hfit, exec_brRds_of_fits h1 h64 hfit, ?_, (sext_emod (bitRead_lt _ _ _)).symm⟩
  split
  · next hneg => exact sext_of_le hneg
  · next hpos => exact sext_of_lt (by omega)

/-- Reads of one bit collect the bits of one wide read and leave the cursor behind them (40_bitreader.md R126). -/
theorem singleReads_eq {n : Nat} {s : State} (hfit : s.br.pos + n ≤ 8 * s.br.buf.length) :
    ∃ t, singleReads n s = some (bitRead s.br.buf s.br.pos n, t) ∧ t.br = { s.br with pos := s.br.pos + n } := by
  induction n with
  | zero => exact ⟨s, rfl, rfl⟩
  | succ n ih =>
    obtain ⟨t, hreads, ht⟩ := ih (by omega)
    have hbuf : t.br.buf = s.br.buf := by rw [ht]
    have hpos : t.br.pos = s.br.pos + n := by rw [ht]
    obtain ⟨u, hnext, hreply, hu⟩ : ∃ u, exec (.brRdu 1) t = .next u ∧
        u.reply = some (.ok (.nat (bitRead t.br.buf t.br.pos 1))) ∧ u.br = { t.br with pos := t.br.pos + 1 } :=
      ⟨_, exec_brRdu_of_fits le_rfl (by decide) (by rw [hbuf, hpos]; omega), rfl, rfl⟩
    refine ⟨u, ?_, by simp only [hu, hbuf, hpos, Nat.add_assoc]⟩
    simp only [singleReads, hreads, hnext, hreply, hbuf, hpos, bitRead_one, bitRead_succ _ _ n]

/-- Settles O10: `bitRead` splits at any place, and so does the cursor's way. -/
theorem brReadsSplit : Obligations.BrReadsSplit := by
  refine ⟨fun a b s ha hb h64 hfit => ?_, fun n s h1 h64 hfit => ?_⟩
  · refine ⟨_, _, _, _, _, _, exec_brRdu_of_fits ha (by omega) (by omega), rfl,
      exec_brRdu_of_fits hb (by omega) ?_, rfl, exec_brRdu_of_fits (by omega) h64 hfit, rfl,
      (bitRead_add _ _ a b).symm, ?_⟩
    · dsimp only
      omega
    · simp only [Nat.add_assoc]
  · obtain ⟨t, hreads, ht⟩ := singleReads_eq hfit
    exact ⟨_, t, _, hreads, exec_brRdu_of_fits h1 h64 hfit, rfl, ht⟩

/-! ### The cursor -/

/-- What a read does to the reader: it moves the cursor by the width read, or raises and leaves it. -/
theorem read_reader {n : Nat} {s t : State} (h : exec (.brRdu n) s = .next t ∨ exec (.brRds n) s = .next t) :
    (∃ out, t.reply = some (.ok out) ∧ 1 ≤ n ∧ n ≤ 64 ∧ t.br = { s.br with pos := s.br.pos + n } ∧
      t.br.pos ≤ 8 * t.br.buf.length) ∨
    (∃ e, t.reply = some (.raised e) ∧ t.br = s.br) := by
  have hwithin {n : Nat} (h1 : 1 ≤ n) (hrem : n ≤ s.br.rem) : s.br.pos + n ≤ 8 * s.br.buf.length := by
    unfold Reader.rem at hrem
    omega
  obtain h | h := h
  · obtain ⟨e, rfl, -⟩ | ⟨h1, h64, hrem, rfl⟩ := execBrRdu_cases h
    · exact .inr ⟨e, rfl, rfl⟩
    · exact .inl ⟨_, rfl, h1, h64, rfl, hwithin h1 hrem⟩
  · obtain ⟨e, rfl, -⟩ | ⟨h1, h64, hrem, rfl⟩ := execBrRds_cases h
    · exact .inr ⟨e, rfl, rfl⟩
    · exact .inl ⟨_, rfl, h1, h64, rfl, hwithin h1 hrem⟩

/-- Only the load and the reads touch the port reader (10_state.md R22). -/
theorem exec_keeps_reader {i : Instr} {s t : State} (h : exec i s = .next t) (hload : ∀ buf, i ≠ .brLoad buf)
    (hread : ∀ n, i ≠ .brRdu n ∧ i ≠ .brRds n) : t.br = s.br := by
  obtain ⟨buf, hi, -⟩ | ⟨n, hi, -⟩ | ⟨n, hi, -⟩ | ⟨_, _, _, -, hcrc⟩ | ⟨-, rfl⟩ | ⟨_, -, rfl⟩ | ⟨_, _, _, -, rfl⟩ |
    ⟨_, rfl⟩ := exec_cases h
  · exact absurd hi (hload buf)
  · exact absurd hi (hread n).1
  · exact absurd hi (hread n).2
  · obtain ⟨-, rfl⟩ | ⟨-, rfl⟩ := execCrcCalc_cases hcrc <;> rfl
  all_goals rfl

/-- Settles O14: the load, the two reads, and every other instruction. -/
theorem brCursorOnlyAdvances : Obligations.BrCursorOnlyAdvances := by
  intro i s t h
  refine ⟨fun buf hi => ?_, fun n hi => ?_, exec_keeps_reader h⟩
  · subst hi
    cases h
    rfl
  · obtain rfl | rfl := hi
    · exact read_reader (.inl h)
    · exact read_reader (.inr h)

end Sys2Proof.Machine

/-! PROOF. The CRC-24Q generator: its fold is linear, its byte step has a table form, and it computes what the serial
shift register computes (41_crc24q.md R145 to R148). -/

namespace Sys2Proof.Machine

open Sys2Proof.Reference

/-! ### The operation -/

/-- `CRC.CALC` on a range inside the buffer (41_crc24q.md R143). -/
theorem exec_crcCalc_of_fits {buf : Bytes} {off len : Nat} (h : off + len ≤ buf.length) (s : State) :
    exec (.crcCalc buf off len) s = .next (answer (.crc (crcOf ((buf.drop off).take len))) s) := by
  change execCrcCalc buf off len s = _
  obtain ⟨hout, -⟩ | ⟨-, hok⟩ := crcCalc_cases buf off len
  · omega
  · rw [execCrcCalc, hok]

/-- Settles O16: a range that ends outside raises. -/
theorem crcRangeOutsideTheBufferRaises : Obligations.CrcRangeOutsideTheBufferRaises := by
  intro buf off len s h
  change execCrcCalc buf off len s = _
  obtain ⟨-, herr⟩ | ⟨hin, -⟩ := crcCalc_cases buf off len
  · rw [execCrcCalc, herr]
    rfl
  · omega

/-! ### The serial register -/

/-- A bit step on a register that holds data bits on top of `a` shifts the top data bit into `a` and moves the others
up. -/
theorem crcBit_xor_data (a w : Crc) : crcBit (a ^^^ w) = serialBit a (w.getLsbD 23) ^^^ (w <<< 1) := by
  rw [crcBit_eq, BitVec.shiftLeft_xor_distrib, BitVec.getLsbD_xor, serialBit]
  split
  · rw [BitVec.xor_assoc, BitVec.xor_comm (w <<< 1), ← BitVec.xor_assoc]
  · simp

/-- Eight bit steps take the data bits in one by one, most significant first, and shift the whole byte out
(41_crc24q.md R145). -/
theorem crcByte_eq_serialByte (a : Crc) (b : Byte) : crcByte a b = serialByte a b := by
  have hout : (b.setWidth 24 <<< 24 : Crc) = 0 := BitVec.shiftLeft_eq_zero le_rfl
  simp only [crcByte, crcBits, crcBit_xor_data, ← BitVec.shiftLeft_add, Nat.reduceAdd, hout]
  simp [serialByte]

theorem crcOf_eq_serialCrc (bs : Bytes) : crcOf bs = serialCrc bs :=
  List.foldl_ext _ _ _ fun a b _ => crcByte_eq_serialByte a b

/-- Settles O15: the fold runs over the same bytes with the same byte step. -/
theorem crcCalcIsTheSerialRegister : Obligations.CrcCalcIsTheSerialRegister := by
  intro buf off len s h
  rw [exec_crcCalc_of_fits h, crcOf_eq_serialCrc]
  rfl

/-! ### Linearity -/

theorem crcByte_xor (a a' : Crc) (b b' : Byte) :
    crcByte (a ^^^ a') (b ^^^ b') = crcByte a b ^^^ crcByte a' b' := by
  have hswap (w x y z : Crc) : w ^^^ x ^^^ (y ^^^ z) = w ^^^ y ^^^ (x ^^^ z) := by ac_rfl
  rw [crcByte, BitVec.setWidth_xor, BitVec.shiftLeft_xor_distrib, hswap, crcBits_xor]
  rfl

theorem crcBytes_zipWith_xor {M N : Bytes} (a a' : Crc) (h : M.length = N.length) :
    crcBytes (a ^^^ a') (List.zipWith (· ^^^ ·) M N) = crcBytes a M ^^^ crcBytes a' N := by
  induction M generalizing a a' N with
  | nil => simp [List.length_eq_zero_iff.mp h.symm]
  | cons b M ih =>
    obtain ⟨c, N, rfl⟩ := List.exists_cons_of_length_eq_add_one h.symm
    simpa [crcByte_xor] using ih (crcByte a b) (crcByte a' c) (Nat.succ.inj h)

theorem zipWith_xor_zeros (N : Bytes) : List.zipWith (· ^^^ ·) N (List.replicate N.length 0) = N := by
  induction N with
  | nil => rfl
  | cons b N ih => simpa [List.replicate_succ] using ih

/-- Settles O19: the byte step is linear in register and byte, and a buffer is its exclusive or with zeros. -/
theorem crcIsLinear : Obligations.CrcIsLinear := by
  refine ⟨fun M N h => crcBytes_zipWith_xor 0 0 h, fun a N => ?_⟩
  have hsplit := crcBytes_zipWith_xor (M := N) (N := List.replicate N.length 0) 0 a (by simp)
  rwa [show (0 : Crc) ^^^ a = a from BitVec.zero_xor, zipWith_xor_zeros] at hsplit

/-! ### The table form -/

/-- Eight bit steps on a register whose top byte is 0 shift it by a byte. -/
theorem crcBits_eight_of_lt {a : Crc} (h : a.toNat < 2 ^ 16) : crcBits 8 a = a <<< 8 := by
  apply BitVec.eq_of_toNat_eq
  rw [crcBits_toNat_of_lt (by omega), BitVec.toNat_shiftLeft, Nat.shiftLeft_eq, Nat.mod_eq_of_lt (by omega)]

/-- A register is its two low bytes under its top byte. -/
theorem crc_eq_low_xor_top (a : Crc) :
    a = (a.setWidth 16).setWidth 24 ^^^ (((a >>> 16).setWidth 8 : Byte).setWidth 24 <<< 16) := by
  ext i hi
  by_cases h : i < 16
  · simp [h, hi]
  · have hbit : 16 + (i - 16) = i := by omega
    have hbyte : i - 16 < 8 := by omega
    simp [h, hi, hbit, hbyte]

/-- The table form of the byte step (41_crc24q.md R148): the top byte of the register meets the data byte, and the two
bytes below it only move up. -/
theorem crcByte_table (a : Crc) (b : Byte) :
    crcByte a b = (a <<< 8) ^^^ crcByte 0 ((a >>> 16).setWidth 8 ^^^ b) := by
  have hlow : ((a.setWidth 16).setWidth 24 : Crc).toNat = a.toNat % 2 ^ 16 := by
    rw [BitVec.toNat_setWidth, BitVec.toNat_setWidth]
    omega
  have hshift : ((a.setWidth 16).setWidth 24 : Crc) <<< 8 = a <<< 8 := by
    apply BitVec.eq_of_toNat_eq
    rw [BitVec.toNat_shiftLeft, BitVec.toNat_shiftLeft, hlow, Nat.shiftLeft_eq, Nat.shiftLeft_eq]
    omega
  have hmeet : a ^^^ (b.setWidth 24 <<< 16) =
      (a.setWidth 16).setWidth 24 ^^^ (0#24 ^^^ (((a >>> 16).setWidth 8 ^^^ b : Byte).setWidth 24 <<< 16)) := by
    conv_lhs => rw [crc_eq_low_xor_top a]
    rw [BitVec.setWidth_xor, BitVec.shiftLeft_xor_distrib, BitVec.xor_assoc, BitVec.zero_xor]
  rw [crcByte, hmeet, crcBits_xor, crcBits_eight_of_lt (by rw [hlow]; omega), hshift]
  rfl

/-- Settles O17: the table form, and eleven of the table's entries evaluated. -/
theorem crcByteTableForm : Obligations.CrcByteTableForm :=
  ⟨crcByte_table, by decide⟩

/-! ### The fold -/

theorem crcOf_replicate_zero_append (n : Nat) (M : Bytes) : crcOf (List.replicate n 0 ++ M) = crcOf M := by
  have hzero : crcByte crcInit 0 = crcInit := by decide
  induction n with
  | zero => rfl
  | succ n ih => rwa [List.replicate_succ, List.cons_append, crcOf, crcBytes_cons, hzero]

/-- Settles O18: the fold from 0 over the bytes of the range, which the surroundings do not change. -/
theorem crcFoldsOverTheRange : Obligations.CrcFoldsOverTheRange := by
  refine ⟨rfl, crcOf_replicate_zero_append, crcBytes_append crcInit, fun pre M post s => ?_⟩
  rw [exec_crcCalc_of_fits (by simp), List.append_assoc, List.drop_left, List.take_left]
  rfl

/-- Settles O20: the three appended bytes are the register's value. -/
theorem crcResidueIsZero : Obligations.CrcResidueIsZero := by
  intro M
  have hlt := (crcOf M).isLt
  rw [crcOf, crcBytes_append]
  refine (crcBytes_three_eq_zero_iff _ _ _ _).mpr ?_
  simp only [crcOf, BitVec.extractLsb'_toNat, Nat.shiftRight_eq_div_pow] at hlt ⊢
  omega

/-- Settles O21: inverting one bit changes the check value. -/
theorem crcDetectsEverySingleBitError : Obligations.CrcDetectsEverySingleBitError :=
  fun _ _ => crcOf_flipBit_ne

end Sys2Proof.Machine

/-! PROOF. The frame synchronizer: how often its loop runs, what it leaves, that it does not matter how the bytes are
cut into chunks, and what it emits for noise, for a frame word and after a false preamble (42_framesync.md R160 to
R173). -/

namespace Sys2Proof.Machine

open Sys2Proof.Reference

/-! ### The loop's length -/

/-- Each iteration that goes on removes a whole frame of at least six bytes, so `n / 6 + 1` iterations are enough
(42_framesync.md R170). -/
theorem fsLoop_eq_fsScan {fuel : Nat} {acc : Bytes} (h : acc.length / 6 + 1 ≤ fuel) : fsLoop fuel acc = fsScan acc := by
  induction hn : acc.length using Nat.strong_induction_on generalizing acc fuel with
  | _ n ih =>
    obtain ⟨fuel, rfl⟩ : ∃ f, fuel = Nat.succ f := ⟨fuel - 1, by omega⟩
    obtain hpre | ⟨pre, rest, hpre, rfl, hrest⟩ := acc_cases acc
    · have hloop := fsLoop_noise hpre fuel []
      rwa [List.append_nil, fsLoop_nil, ← fsScan_discard hpre] at hloop
    · rw [fsLoop_noise hpre, fsScan_noise hpre]
      obtain hshort | ⟨b1, b2, body, rfl, hwait | ⟨frame, left, rfl, hframe⟩⟩ := hrest
      · rw [fsLoop_header hshort, fsScan_header hshort]
      · rw [fsLoop_wait hwait, fsScan_wait hwait]
      · simp only [List.length_append, List.length_cons] at hn h
        rw [fsLoop_emit hframe, fsScan_emit hframe, ih left.length (by omega) (by omega) rfl]

/-- The frames emitted and the bytes left come from the accumulator, and a frame takes at least six of its bytes. -/
theorem fsScan_size (acc : Bytes) : 6 * (fsScan acc).1.length + (fsScan acc).2.length ≤ acc.length := by
  induction hn : acc.length using Nat.strong_induction_on generalizing acc with
  | _ n ih =>
    obtain hpre | ⟨pre, rest, hpre, rfl, hrest⟩ := acc_cases acc
    · simp [fsScan_discard hpre]
    · rw [fsScan_noise hpre]
      simp only [List.length_append, List.length_cons] at hn
      obtain hshort | ⟨b1, b2, body, rfl, hwait | ⟨frame, left, rfl, hframe⟩⟩ := hrest
      · simp only [fsScan_header hshort, List.length_nil, List.length_cons]
        omega
      · simp only [fsScan_wait hwait, List.length_nil, List.length_cons] at hn ⊢
        omega
      · simp only [List.length_append, List.length_cons] at hn
        have hleft := ih left.length (by omega) left rfl
        simp only [fsScan_emit hframe, List.length_cons]
        omega

/-- Settles O24: any two sufficient numbers of iterations give the scan. -/
theorem fsLoopShrinksAndTerminates : Obligations.FsLoopShrinksAndTerminates :=
  ⟨fun _ _ h => (fsLoop_eq_fsScan h).trans (fsLoop_eq_fsScan le_rfl).symm, fun _ => (fsLoop_eq_fsScan le_rfl).symm,
    fsScan_size, rfl, rfl⟩

/-! ### What the loop leaves -/

/-- The loop stops on nothing, on a short header or on an incomplete frame (42_framesync.md R171). -/
theorem fsScan_fsInv (acc : Bytes) : FsInv (fsScan acc).2 := by
  induction hn : acc.length using Nat.strong_induction_on generalizing acc with
  | _ n ih =>
    obtain hpre | ⟨pre, rest, hpre, rfl, hrest⟩ := acc_cases acc
    · rw [fsScan_discard hpre]
      exact .inl rfl
    · rw [fsScan_noise hpre]
      obtain hshort | ⟨b1, b2, body, rfl, hwait | ⟨frame, left, rfl, hframe⟩⟩ := hrest
      · rw [fsScan_header hshort]
        exact .inr (.inl ⟨by simp, Nat.succ_le_of_lt hshort, rfl⟩)
      · rw [fsScan_wait hwait]
        have hmax := headerLength_le b1 b2
        refine .inr (.inr ⟨by simp, rfl, ?_, ?_⟩) <;>
          simp only [List.getD_cons_succ, List.getD_cons_zero, List.length_cons] <;> omega
      · rw [fsScan_emit hframe]
        exact ih left.length (by simp only [List.length_append, List.length_cons] at hn; omega) left rfl

theorem FsInv.length_le {acc : Bytes} (h : FsInv acc) : acc.length ≤ 1028 := by
  obtain rfl | ⟨-, hlen, -⟩ | ⟨-, -, hlen, hmax⟩ := h
  · simp
  · omega
  · omega

/-- An accumulator that the loop could leave is left as it is (42_framesync.md R172). -/
theorem FsInv.fsScan_eq {acc : Bytes} (h : FsInv acc) : fsScan acc = ([], acc) := by
  match acc, h with
  | [], _ => rfl
  | [b], h =>
    obtain rfl : b = preamble := by simpa [FsInv] using h
    exact fsScan_header (by simp)
  | [b, c], h =>
    obtain rfl : b = preamble := by simpa [FsInv] using h
    exact fsScan_header (by simp)
  | b :: b1 :: b2 :: rest, h =>
    obtain ⟨rfl, hwait, -⟩ : b = preamble ∧ rest.length + 1 + 1 + 1 < headerLength b1 b2 + 6 ∧
        headerLength b1 b2 + 6 ≤ 1029 := by
      simpa [FsInv] using h
    exact fsScan_wait (by omega)

/-- Settles O25: the accumulator left is what a scan leaves. -/
theorem fsPushLeavesNoCompleteFrame : Obligations.FsPushLeavesNoCompleteFrame :=
  ⟨fun bytes s => ⟨_, exec_fsPush bytes s, fsScan_fsInv _, (fsScan_fsInv _).length_le⟩,
    fun s => ⟨_, exec_fsReset s, rfl⟩, rfl⟩

/-! ### Chunks -/

/-- Scanning a buffer is scanning a first part of it and then what that scan leaves with the second part
(42_framesync.md R172). -/
theorem fsScan_append (A B : Bytes) :
    fsScan (A ++ B) = ((fsScan A).1 ++ (fsScan ((fsScan A).2 ++ B)).1, (fsScan ((fsScan A).2 ++ B)).2) := by
  induction hn : A.length using Nat.strong_induction_on generalizing A with
  | _ n ih =>
    obtain hpre | ⟨pre, rest, hpre, rfl, hrest⟩ := acc_cases A
    · simp [fsScan_discard hpre, fsScan_noise hpre]
    · rw [List.append_assoc, fsScan_noise hpre, fsScan_noise hpre]
      obtain hshort | ⟨b1, b2, body, rfl, hwait | ⟨frame, left, rfl, hframe⟩⟩ := hrest
      · simp [fsScan_header hshort]
      · simp [fsScan_wait hwait]
      · have hleft := ih left.length (by simp only [List.length_append, List.length_cons] at hn; omega) left rfl
        rw [fsScan_emit hframe, List.cons_append, List.cons_append, List.cons_append, List.append_assoc,
          fsScan_emit hframe, hleft]
        rfl

/-- Settles O26: the two pushes scan the parts one after the other. -/
theorem fsPushIsChunkingInvariant : Obligations.FsPushIsChunkingInvariant := by
  intro A B s
  refine ⟨⟨_, _, _, _, exec_fsPush A s, rfl, exec_fsPush B _, rfl, ?_⟩, fun hinv => ?_⟩
  · rw [exec_fsPush]
    simp only [pushBytes, answer, ← List.append_assoc, fsScan_append (s.fsAcc ++ A) B]
  · rw [exec_fsPush, pushBytes, List.append_nil, hinv.fsScan_eq]
    rfl

/-! ### Noise -/

/-- Pushing noise before some bytes onto an empty accumulator is pushing the bytes (42_framesync.md R162). -/
theorem exec_fsPush_noise {noise : Bytes} (hnoise : ∀ b ∈ noise, b ≠ preamble) (bytes : Bytes) {s : State}
    (hs : s.fsAcc = []) : exec (.fsPush (noise ++ bytes)) s = exec (.fsPush bytes) s := by
  rw [exec_fsPush, exec_fsPush, pushBytes, pushBytes, hs, List.nil_append, List.nil_append, fsScan_noise hnoise]

/-- Settles O27: noise before a frame is dropped, and what is emitted was extracted whole. -/
theorem fsPushSkipsNoise : Obligations.FsPushSkipsNoise := by
  refine ⟨fun noise P s hnoise hP hs => ?_, fun bytes s t fs f ht hfs hf => ?_⟩
  · exact (exec_fsPush_noise hnoise _ hs).trans (fsPushChecksTheComputedFrame P s hP hs).1
  · cases (exec_fsPush bytes s).symm.trans ht
    obtain rfl : (fsScan (s.fsAcc ++ bytes)).1 = fs := by simpa using hfs
    obtain ⟨b1, b2, body, hbody, hin, rfl⟩ := exists_extractFrame_of_mem_fsScan _ hf
    exact ⟨by simp [extractFrame, hbody], hin⟩

/-- Settles O22: the accumulator is emptied, and noise pushed after that leaves it empty. -/
theorem fsResetClearsOnlyTheAccumulator : Obligations.FsResetClearsOnlyTheAccumulator := by
  refine ⟨fun P b hb => ?_, fun acc s => ⟨_, exec_fsReset _, rfl, fun tail htail => ?_⟩⟩
  · simp [decode, decodeOp, decodeBare, hb]
  · rw [exec_fsPush, pushBytes, answer_fsAcc, List.nil_append, fsScan_discard htail]
    rfl

/-! ### The frame word -/

theorem exec_frame (reserved : BitVec 6) (payload : Bytes) (crc : Crc) (s : State) :
    exec (.frame reserved payload crc) s = .next (pushBytes (frameBytes reserved payload crc) s) := by
  rfl

/-- The bytes of a frame word, its fields written as quotients (30_encoding.md R80, R81, R84). -/
theorem frameBytes_eq (reserved : BitVec 6) {payload : Bytes} (crc : Crc) (h : payload.length ≤ 1023) :
    frameBytes reserved payload crc =
      [0xD3, BitVec.ofNat 8 (reserved.toNat * 4 + payload.length / 256), BitVec.ofNat 8 payload.length] ++ payload ++
        [BitVec.ofNat 8 (crc.toNat / 65536), BitVec.ofNat 8 (crc.toNat / 256), BitVec.ofNat 8 crc.toNat] := by
  have hmod : payload.length / 256 % 4 = payload.length / 256 := by omega
  have hbyte (i : Nat) : crc.extractLsb' i 8 = BitVec.ofNat 8 (crc.toNat / 2 ^ i) := by
    apply BitVec.eq_of_toNat_eq
    rw [BitVec.extractLsb'_toNat, Nat.shiftRight_eq_div_pow, BitVec.toNat_ofNat]
  simp only [frameBytes, headerBytes, trailerBytes, hmod, hbyte]
  simp [preamble]

/-- The check of a frame whose trailer is given: the residue is 0 when the CRC over header and payload is the trailer's
value. -/
theorem residue_eq_zero_iff (b1 b2 : Byte) (P : Bytes) (crc : Crc) :
    crcOf (preamble :: b1 :: b2 :: (P ++ [BitVec.ofNat 8 (crc.toNat / 65536), BitVec.ofNat 8 (crc.toNat / 256),
      BitVec.ofNat 8 crc.toNat])) = 0 ↔ crcOf (preamble :: b1 :: b2 :: P) = crc := by
  have hsplit := crcBytes_append crcInit (preamble :: b1 :: b2 :: P)
    [BitVec.ofNat 8 (crc.toNat / 65536), BitVec.ofNat 8 (crc.toNat / 256), BitVec.ofNat 8 crc.toNat]
  rw [← List.cons_append, ← List.cons_append, ← List.cons_append, crcOf, hsplit, crcBytes_three_eq_zero_iff,
    ← toNat_eq_trailer_bytes, BitVec.toNat_inj]
  rfl

/-- A whole frame with a given trailer, pushed at a frame boundary, is the one frame emitted (42_framesync.md R167). -/
theorem exec_fsPush_trailer {b1 b2 : Byte} {P : Bytes} (crc : Crc) (h : headerLength b1 b2 = P.length) {s : State}
    (hs : s.fsAcc = []) {raw : Bytes} (hraw : raw = [0xD3, b1, b2] ++ P ++
      [BitVec.ofNat 8 (crc.toNat / 65536), BitVec.ofNat 8 (crc.toNat / 256), BitVec.ofNat 8 crc.toNat]) :
    exec (.fsPush raw) s = .next { s with
      reply := some (.ok (.frames [⟨raw, P, decide (crcOf (raw.take (3 + P.length)) = crc)⟩])) } := by
  have hbody : raw = preamble :: b1 :: b2 :: (P ++
      [BitVec.ofNat 8 (crc.toNat / 65536), BitVec.ofNat 8 (crc.toNat / 256), BitVec.ofNat 8 crc.toNat]) := by
    rw [hraw, List.append_assoc]
    rfl
  have htake : raw.take (3 + P.length) = preamble :: b1 :: b2 :: P := by simp [hbody, Nat.add_comm 3]
  rw [htake, hbody, exec_fsPush_frame (by simp [h]) hs, h, List.take_left]
  simp only [residue_eq_zero_iff]

/-- Settles O30: at a frame boundary the frame's bytes are one whole frame, which step 7 extracts. -/
theorem frameWordIsDelivered : Obligations.FrameWordIsDelivered := by
  intro reserved P crc s hP
  have hlen := headerLength_headerBytes reserved hP
  rw [Nat.mod_eq_of_lt (show P.length / 256 < 4 by omega)] at hlen
  rw [exec_frame, ← exec_fsPush, frameBytes_eq reserved crc hP]
  exact ⟨_, rfl, fun hs => exec_fsPush_trailer crc hlen hs rfl, rfl, _, _, exec_frame reserved P crc s,
    pushBytes_reply _ _⟩

/-! ### A false preamble -/

/-- Settles O31: the first ten bytes are a whole frame to the synchronizer, and no preamble follows them. -/
theorem falsePreambleSwallowsTheRealFrame : Obligations.FalsePreambleSwallowsTheRealFrame := by
  intro s hs
  have hscan : fsScan [0xD3, 0x00, 0x04, 0xD3, 0x00, 0x13, 0x3E, 0xD7, 0xD3, 0x02, 0x02, 0x98, 0x0E, 0xDE, 0xEF, 0x34,
      0xB4, 0xBD, 0x62, 0xAC, 0x09, 0x41, 0x98, 0x6F, 0x33, 0x36, 0x0B, 0x98] =
      ([⟨[0xD3, 0x00, 0x04, 0xD3, 0x00, 0x13, 0x3E, 0xD7, 0xD3, 0x02], [0xD3, 0x00, 0x13, 0x3E], false⟩], []) := by
    decide +kernel
  rw [exec_fsPush, pushBytes, hs, List.nil_append, hscan, ← hs]
  rfl

end Sys2Proof.Machine

/-! PROOF. The whole machine: its invariant, that it always answers, who raises, and what each operation leaves alone
(10_state.md, 60_exceptions.md sections 3 and 4). -/

namespace Sys2Proof.Machine

/-! ### What an instruction leaves alone -/

/-- A read raises, and then only the reply is new, or it moves the cursor within the buffer. -/
theorem read_cases {n : Nat} {s t : State} (h : execBrRdu n s = .next t ∨ execBrRds n s = .next t) :
    (∃ e, t = raise e s ∧ (e = .eArg n ∧ (n < 1 ∨ 64 < n) ∨ e = .eRange n ∧ 1 ≤ n ∧ n ≤ 64 ∧ s.br.rem < n)) ∨
    ∃ out, n ≤ s.br.rem ∧ t = answer out { s with br := { s.br with pos := s.br.pos + n } } := by
  obtain h | h := h
  · exact (execBrRdu_cases h).imp_right fun ⟨_, _, hrem, ht⟩ => ⟨_, hrem, ht⟩
  · exact (execBrRds_cases h).imp_right fun ⟨_, _, hrem, ht⟩ => ⟨_, hrem, ht⟩

/-- Everything that an instruction that goes on can be, by the unit it touches: the reader, the accumulator, none with
an error, none with a result. -/
theorem exec_unit_cases {i : Instr} {s t : State} (h : exec i s = .next t) :
    (∃ buf, i = .brLoad buf ∧ t = answer .unit { s with br := Reader.load buf }) ∨
    (∃ n out, (i = .brRdu n ∨ i = .brRds n) ∧ n ≤ s.br.rem ∧
      t = answer out { s with br := { s.br with pos := s.br.pos + n } }) ∨
    (∃ left out, (i = .fsReset ∨ (∃ bytes, i = .fsPush bytes) ∨ ∃ r p c, i = .frame r p c) ∧
      (left = [] ∨ ∃ acc, left = (fsScan acc).2) ∧ t = answer out { s with fsAcc := left }) ∨
    (∃ e, t = raise e s ∧
      ((∃ n, (i = .brRdu n ∨ i = .brRds n) ∧
        (e = .eArg n ∧ (n < 1 ∨ 64 < n) ∨ e = .eRange n ∧ 1 ≤ n ∧ n ≤ 64 ∧ s.br.rem < n)) ∨
       (∃ buf off len, i = .crcCalc buf off len ∧ e = .eBounds off len ∧ buf.length < off + len))) ∨
    (∃ out, t = answer out s) := by
  obtain hload | ⟨n, rfl, hrdu⟩ | ⟨n, rfl, hrds⟩ | ⟨buf, off, len, rfl, hcrc⟩ | ⟨rfl, rfl⟩ | ⟨bytes, rfl, rfl⟩ |
    ⟨r, p, c, rfl, rfl⟩ | hout := exec_cases h
  · exact .inl hload
  · obtain ⟨e, rfl, he⟩ | ⟨out, hrem, rfl⟩ := read_cases (.inl hrdu)
    · exact .inr (.inr (.inr (.inl ⟨e, rfl, .inl ⟨n, .inl rfl, he⟩⟩)))
    · exact .inr (.inl ⟨n, out, .inl rfl, hrem, rfl⟩)
  · obtain ⟨e, rfl, he⟩ | ⟨out, hrem, rfl⟩ := read_cases (.inr hrds)
    · exact .inr (.inr (.inr (.inl ⟨e, rfl, .inl ⟨n, .inr rfl, he⟩⟩)))
    · exact .inr (.inl ⟨n, out, .inr rfl, hrem, rfl⟩)
  · obtain ⟨hout, rfl⟩ | ⟨-, rfl⟩ := execCrcCalc_cases hcrc
    · exact .inr (.inr (.inr (.inl ⟨_, rfl, .inr ⟨buf, off, len, rfl, rfl, hout⟩⟩)))
    · exact .inr (.inr (.inr (.inr ⟨_, rfl⟩)))
  · exact .inr (.inr (.inl ⟨[], _, .inl rfl, .inl rfl, rfl⟩))
  · exact .inr (.inr (.inl ⟨_, _, .inr (.inl ⟨bytes, rfl⟩), .inr ⟨_, rfl⟩, rfl⟩))
  · exact .inr (.inr (.inl ⟨_, _, .inr (.inr ⟨r, p, c, rfl⟩), .inr ⟨_, rfl⟩, rfl⟩))
  · exact .inr (.inr (.inr (.inr hout)))

/-! ### The invariant -/

/-- Every instruction keeps the block's invariant: the accumulator is left alone, emptied or left by a scan, and a
read that moves the cursor fitted. -/
theorem exec_keeps_inv {i : Instr} {s t : State} (hs : Inv s) (h : exec i s = .next t) : Inv t := by
  obtain ⟨hacc, hpos⟩ := hs
  obtain ⟨buf, -, rfl⟩ | ⟨n, out, -, hrem, rfl⟩ | ⟨left, out, -, hleft, rfl⟩ | ⟨e, rfl, -⟩ | ⟨out, rfl⟩ :=
    exec_unit_cases h
  · exact ⟨hacc, Nat.zero_le _⟩
  · refine ⟨hacc, ?_⟩
    unfold Reader.rem at hrem
    simp only [answer_br]
    omega
  · refine ⟨?_, hpos⟩
    obtain rfl | ⟨acc, rfl⟩ := hleft
    · exact .inl rfl
    · exact fsScan_fsInv acc
  · exact ⟨hacc, hpos⟩
  · exact ⟨hacc, hpos⟩

/-- Settles O32: a step changes nothing or runs one instruction, on a state that differs in the queue alone. -/
theorem blockInvariantIsKept : Obligations.BlockInvariantIsKept := by
  intro s t hs h
  obtain ⟨-, rfl⟩ | ⟨w, rest, i, -, -, hexec⟩ := step_cases h
  · exact hs
  · exact exec_keeps_inv (s := { s with issued := rest }) hs hexec

/-- Settles O33: at reset the accumulator and the reader are empty. -/
theorem blockInvariantAtReset : Obligations.BlockInvariantAtReset :=
  ⟨fun _ => ⟨.inl rfl, Nat.zero_le _⟩, .inl rfl, Nat.zero_le _⟩

/-! ### Answers and errors -/

/-- Settles O34: the reads and `CRC.CALC` answer in each of their cases, every other instruction has one. -/
theorem everyInstructionAnswers : Obligations.EveryInstructionAnswers := by
  intro i s
  cases i
  case brRdu n =>
    change ∃ t r, execBrRdu n s = .next t ∧ t.reply = some r
    unfold execBrRdu
    split <;> exact ⟨_, _, rfl, rfl⟩
  case brRds n =>
    change ∃ t r, execBrRds n s = .next t ∧ t.reply = some r
    unfold execBrRds
    split <;> exact ⟨_, _, rfl, rfl⟩
  case crcCalc buf off len =>
    change ∃ t r, execCrcCalc buf off len s = .next t ∧ t.reply = some r
    unfold execCrcCalc
    split <;> exact ⟨_, _, rfl, rfl⟩
  all_goals exact ⟨_, _, rfl, rfl⟩

theorem exec_keeps_params {i : Instr} {s t : State} (h : exec i s = .next t) : t.params = s.params := by
  obtain ⟨_, -, rfl⟩ | ⟨_, _, -, -, rfl⟩ | ⟨_, _, -, -, rfl⟩ | ⟨_, rfl, -⟩ | ⟨_, rfl⟩ := exec_unit_cases h <;> rfl

theorem exec_keeps_issued {i : Instr} {s t : State} (h : exec i s = .next t) : t.issued = s.issued := by
  obtain ⟨_, -, rfl⟩ | ⟨_, _, -, -, rfl⟩ | ⟨_, _, -, -, rfl⟩ | ⟨_, rfl, -⟩ | ⟨_, rfl⟩ := exec_unit_cases h <;> rfl

/-- Settles O35: no instruction changes the parameters. -/
theorem parametersAreFixed : Obligations.ParametersAreFixed := by
  intro s t h
  obtain ⟨-, rfl⟩ | ⟨_, _, _, -, -, hexec⟩ := step_cases h
  · rfl
  · simpa using exec_keeps_params hexec

/-- Settles O37: of the cases of an instruction only the raising one replies with an error. -/
theorem onlyReadsAndCrcCalcRaise : Obligations.OnlyReadsAndCrcCalcRaise := by
  intro i s t e h hreply
  obtain ⟨_, -, rfl⟩ | ⟨_, _, -, -, rfl⟩ | ⟨_, _, -, -, rfl⟩ | ⟨e', rfl, hwho⟩ | ⟨_, rfl⟩ := exec_unit_cases h
  case inr.inr.inr.inl =>
    obtain rfl : e' = e := by simpa using hreply
    refine ⟨rfl, hwho.imp_left fun ⟨n, hi, he⟩ => ⟨n, hi, he.imp_right fun ⟨he, h1, h64, hrem⟩ => ⟨he, h1, h64, ?_⟩⟩⟩
    unfold Reader.rem at hrem
    omega
  all_goals cases hreply

/-- Settles O38: of the cases of an instruction only one touches the accumulator and only two the reader. -/
theorem operationsTouchOnlyTheirUnit : Obligations.OperationsTouchOnlyTheirUnit := by
  intro i s t h
  refine ⟨fun hacc => ?_, fun hbr => ?_, exec_keeps_issued h, exec_keeps_params h⟩
  · obtain ⟨_, -, rfl⟩ | ⟨_, _, -, -, rfl⟩ | ⟨_, _, hi, -, -⟩ | ⟨_, rfl, -⟩ | ⟨_, rfl⟩ := exec_unit_cases h
    case inr.inr.inl => exact hi
    all_goals exact absurd rfl hacc
  · by_contra hother
    simp only [not_or, not_exists] at hother
    exact hbr (exec_keeps_reader h hother.1 hother.2)

end Sys2Proof.Machine

/-! PROOF. The multiplexer: runts, the fallback, the dispatch on the message number and the markers of a routed message
(43_mux_fixed.md R180 to R183, R187; 60_exceptions.md R300). -/

namespace Sys2Proof.Machine

open Sys2Proof.Reference

/-! ### The records without a decoder -/

/-- The two forms of the hex string agree (43_mux_fixed.md R187). -/
theorem hex_eq_hexOf (p : Bytes) : hex p = hexOf p := by
  have hdigit : ∀ d < 16, hexDigit d = hexDigits.getD d 0 := by decide
  rw [hex, hexOf, List.flatMap_def]
  congr 1
  refine List.map_congr_left fun b _ => ?_
  have hb := b.isLt
  rw [hdigit _ (by omega), hdigit _ (by omega)]

/-- A number is not registered when `REGISTERED` does not hold it (00_scope.md R8). -/
theorem lookup_eq_none_of_ne {P : Params} {n : Nat} (h : ∀ e ∈ P.registered, e.1 ≠ n) :
    P.registered.lookup n = none := by
  have hreg : isRegistered P n = false :=
    Bool.eq_false_iff.mpr fun hreg => (isRegistered_iff P n).mp hreg |>.elim fun e he => h e he.1 he.2
  simpa [isRegistered] using hreg

theorem exists_lookup_of_mem {P : Params} {n : Nat} (h : ∃ e ∈ P.registered, e.1 = n) :
    ∃ d, P.registered.lookup n = some d :=
  Option.isSome_iff_exists.mp ((isRegistered_iff P n).mpr h)

theorem decodeMessage_of_lookup {P : Params} {n : Nat} {d : Decoder} (h : P.registered.lookup n = some d)
    (p : Bytes) : decodeMessage P n p = runDecoder P n p d := by
  rw [decodeMessage, h]

theorem decodeMessage_unregistered {P : Params} {n : Nat} (h : P.registered.lookup n = none) (p : Bytes) :
    decodeMessage P n p = unsupportedRecord p := by
  rw [decodeMessage, h]

/-- Settles O42: no decoder, so the fallback record. -/
theorem unsupportedReturnsTheHexRecord : Obligations.UnsupportedReturnsTheHexRecord := by
  intro n p s h
  rw [exec_decDecode, decodeMessage_unregistered (lookup_eq_none_of_ne h), unsupportedRecord, hex_eq_hexOf]
  refine ⟨_, rfl, ?_, rfl⟩
  rw [← hex_eq_hexOf]
  rfl

/-- Settles O40: under 12 bits the frame is a runt. -/
theorem runtHasNoMessageNumber : Obligations.RuntHasNoMessageNumber := by
  intro raw p crcValid s h
  obtain ⟨-, hrunt⟩ | ⟨hlong, -⟩ := routeFrame_cases s.params ⟨raw, p, crcValid⟩
  · rw [exec_muxRoute, hrunt, runtMessage, runtFields, hex_eq_hexOf]
    refine ⟨_, rfl, ?_, rfl⟩
    rw [← hex_eq_hexOf]
    rfl
  · simp only at hlong
    omega

/-! ### The dispatch -/

/-- Settles O39: a payload of two bytes has a message number, and the routed message is its decoder's record. -/
theorem muxRouteDispatchesOnTheFirst12Bits : Obligations.MuxRouteDispatchesOnTheFirst12Bits := by
  intro f s h
  obtain ⟨hshort, -⟩ | ⟨-, hroute⟩ := routeFrame_cases s.params f
  · omega
  · have hvalue : (BitVec.ofNat 12 (msgnum f.payload)).toNat = msgnum f.payload :=
      Nat.mod_eq_of_lt (msgnum_lt f.payload)
    refine ⟨BitVec.ofNat 12 (msgnum f.payload), _, ?_, exec_decDecode _ _ _, ?_⟩
    · rw [hvalue]
      match f.payload, h with
      | b0 :: b1 :: rest, _ => exact msgnum_cons_cons_eq_or b0 b1 rest
    · rw [exec_muxRoute, hroute, hvalue]
      rfl

/-- A message instruction returns the record that the parameters give its number (43_mux_fixed.md R183). -/
theorem exec_message {n : Nat} {mk : Bytes → Instr} (h : messageInstr n = some mk) (p : Bytes) (s : State) :
    exec (mk p) s = .next (answer (.fields (decodeMessage s.params n p)) s) := by
  unfold messageInstr at h
  split at h <;> cases h <;> rfl

/-- The rows' numbers have 12 bits (30_encoding.md R85). -/
theorem lt_of_mem_messageTable {e : Nat × (Bytes → Instr)} (h : e ∈ messageTable) : e.1 < 4096 := by
  have hall : ∀ e ∈ messageTable, e.1 < 4096 := by decide
  exact hall e h

/-- Settles O43: both return what the parameters give the number. -/
theorem decDecodeAgreesWithTheRowInstruction : Obligations.DecDecodeAgreesWithTheRowInstruction := by
  intro e he p s
  have hvalue : (BitVec.ofNat 12 e.1).toNat = e.1 := Nat.mod_eq_of_lt (lt_of_mem_messageTable he)
  refine ⟨decodeMessage s.params e.1 p, ?_, exec_message (messageInstr_of_mem_messageTable he) p s⟩
  rw [exec_decDecode, hvalue]
  rfl

/-! ### The names and markers of a record -/

/-- The names that a decoder records before `truncated` and `bitsRemaining` (43_mux_fixed.md R186). -/
def decoderKeys (P : Params) : Decoder → List Key
  | .fixed layout => layoutKeys layout
  | .bias header _ biases => layoutKeys header ++ layoutKeys (biases.map Prod.snd)
  | .legacyObs header _ rows _ => layoutKeys header ++ [rows]
  | .msm => .msmType :: layoutKeys P.msm.header ++ [.satelliteIds, .signalIds, .activeCells, .satellites, .cells]

theorem runDecoder_keys (P : Params) (n : Nat) (p : Bytes) (d : Decoder) :
    (runDecoder P n p d).map Prod.fst = decoderKeys P d ++ [.truncated, .bitsRemaining] := by
  cases d with
  | fixed layout => exact decodeFixed_keys layout p
  | bias header mask biases => exact decodeBias_keys header mask biases p
  | legacyObs header count rows row => simp [runDecoder, decoderKeys, decodeLegacyObs_keys]
  | msm => simp [runDecoder, decoderKeys, decodeMsm_keys]

/-- The default `REGISTERED` gives every row's number a decoder that records the rule's names. -/
theorem recordKeys_eq_decoderKeys {e : Nat × (Bytes → Instr)} (h : e ∈ messageTable) :
    ∃ d, registered.lookup e.1 = some d ∧
      decoderKeys defaultParams d ++ [.truncated, .bitsRemaining] = recordKeys e.1 := by
  have hall : ∀ e ∈ messageTable, ∃ d ∈ registered.lookup e.1,
      decoderKeys defaultParams d ++ [.truncated, .bitsRemaining] = recordKeys e.1 := by
    decide
  exact hall e h

/-- Settles O44: a record's names are its decoder's names, which no payload enters. -/
theorem decodersRecordTheirFixedKeys : Obligations.DecodersRecordTheirFixedKeys := by
  refine ⟨fun e he order p => ?_, fun s n hreg => ?_⟩
  · obtain ⟨d, hd, hkeys⟩ := recordKeys_eq_decoderKeys he
    rw [decodeMessage_of_lookup (P := { defaultParams with msmOrder := order }) hd, runDecoder_keys, ← hkeys]
    cases d <;> rfl
  · obtain ⟨d, hd⟩ := exists_lookup_of_mem hreg
    refine ⟨decoderKeys s.params d, fun p => ⟨_, exec_decDecode n p s, ?_⟩⟩
    rw [decodeMessage_of_lookup hd, runDecoder_keys]

/-- The names that a decoder of a block's parameters records are no markers. -/
theorem decoderKeys_ne_marker {P : Params} {d : Decoder} (hmsm : P.msm.wellFormed = true) (hd : d.wellFormed = true)
    {k : Key} (hk : k ∈ decoderKeys P d) :
    k ∉ [Key.truncated, .bitsRemaining, .unsupported, .rawPayloadHex, .runt] := by
  cases d with
  | fixed layout =>
    simp only [Decoder.wellFormed, Bool.and_eq_true] at hd
    exact namesDistinct_ne hd.2 (by simpa [decoderKeys] using hk)
  | bias header mask biases =>
    simp only [Decoder.wellFormed, Bool.and_eq_true] at hd
    exact namesDistinct_ne hd.1.1.2 hk
  | legacyObs header count rows row =>
    simp only [Decoder.wellFormed, Bool.and_eq_true] at hd
    exact namesDistinct_ne hd.1.1.1.1.2 hk
  | msm =>
    simp only [MsmLayout.wellFormed, Bool.and_eq_true] at hmsm
    refine namesDistinct_ne hmsm.1.1.1.1.2 ?_
    simp only [decoderKeys, List.mem_append, List.mem_cons] at hk ⊢
    tauto

/-- The markers among the names of a record (60_exceptions.md R300). -/
def markersOf (m : Fields) : List Key :=
  (m.map Prod.fst).filter (fun k => k == .runt || k == .unsupported || k == .truncated)

theorem markersOf_runDecoder {P : Params} {n : Nat} {d : Decoder} (hP : P.wellFormed = true)
    (h : P.registered.lookup n = some d) (p : Bytes) : markersOf (runDecoder P n p d) = [.truncated] := by
  have hmsm : P.msm.wellFormed = true := by
    simp only [Params.wellFormed, Bool.and_eq_true] at hP
    exact hP.2
  have hnone : (decoderKeys P d).filter (fun k => k == .runt || k == .unsupported || k == .truncated) = [] := by
    refine List.filter_eq_nil_iff.mpr fun k hk => ?_
    have hne := decoderKeys_ne_marker hmsm (wellFormed_decoder hP h).2 hk
    simp only [List.mem_cons, not_or] at hne
    simp [hne]
  rw [markersOf, runDecoder_keys, List.filter_append, hnone]
  rfl

/-- Settles O41: a runt and the fallback carry their own marker, and a decoder of a block's parameters records
`truncated` and no other. -/
theorem muxRouteRecordsCarryOneMarker : Obligations.MuxRouteRecordsCarryOneMarker := by
  refine ⟨by decide +kernel, fun f s hP => ⟨_, _, exec_muxRoute f s, ?_, rfl, ?_⟩⟩
  · obtain ⟨-, hroute⟩ | ⟨-, hroute⟩ := routeFrame_cases s.params f
    · exact congrArg DecodedMessage.crcValid hroute
    · exact congrArg DecodedMessage.crcValid hroute
  · obtain ⟨hshort, hroute⟩ | ⟨hlong, hroute⟩ := routeFrame_cases s.params f <;> rw [hroute]
    · exact ⟨fun _ => rfl, fun h => absurd h (by omega), fun h => absurd h (by omega)⟩
    · refine ⟨fun h => absurd h (by omega), fun _ hnone => ?_, fun _ hreg => ?_⟩
      · rw [decodeMessage_unregistered (lookup_eq_none_of_ne hnone)]
        rfl
      · obtain ⟨d, hd⟩ := exists_lookup_of_mem hreg
        rw [decodeMessage_of_lookup hd]
        exact markersOf_runDecoder hP hd f.payload

end Sys2Proof.Machine

/-! PROOF. Fields at their stream bits: a layout of numeric and skipped fields is read as the fields that fit in the
payload, each from its place, and counted rows are read as the rows that fit whole (43_mux_fixed.md R184 to R186,
30_encoding.md R93, R96 to R99). -/

namespace Sys2Proof.Machine

open Sys2Proof.Reference

/-! ### Where reading stops -/

theorem lastFit_append (size : Nat) (xs ys : List Nat) :
    lastFit size (xs ++ ys) = max (lastFit size xs) (lastFit size ys) := by
  have hstart := List.foldl_assoc (op := (max : Nat → Nat → Nat)) (l := ys.filter fun m => m ≤ size)
    (a₁ := lastFit size xs) (a₂ := 0)
  rw [Nat.max_zero] at hstart
  rw [lastFit, List.filter_append, List.foldl_append]
  exact hstart

@[simp] theorem lastFit_nil (size : Nat) : lastFit size [] = 0 := rfl

theorem lastFit_singleton {size m : Nat} (h : m ≤ size) : lastFit size [m] = m := by
  simp [lastFit, h]

/-- Marks beyond the payload do not count. -/
theorem lastFit_of_lt {size : Nat} {marks : List Nat} (h : ∀ m ∈ marks, size < m) : lastFit size marks = 0 := by
  have hnone : marks.filter (fun m => m ≤ size) = [] :=
    List.filter_eq_nil_iff.mpr fun m hm => by simpa using h m hm
  rw [lastFit, hnone]
  rfl

/-- A mark behind another that fits too is the later one. -/
theorem lastFit_cons_cons {size k m : Nat} (marks : List Nat) (hkm : k ≤ m) (hm : m ≤ size) :
    lastFit size (k :: m :: marks) = lastFit size (m :: marks) := by
  rw [show k :: m :: marks = [k] ++ ([m] ++ marks) from rfl, show m :: marks = [m] ++ marks from rfl,
    lastFit_append, lastFit_append, lastFit_singleton hm, lastFit_singleton (hkm.trans hm), ← max_assoc,
    max_eq_right hkm]

/-- No mark that fits lies behind a mark when all others are beyond the payload. -/
theorem lastFit_cons_of_lt {size k : Nat} {marks : List Nat} (hk : k ≤ size) (h : ∀ m ∈ marks, size < m) :
    lastFit size (k :: marks) = k := by
  rw [show k :: marks = [k] ++ marks from rfl, lastFit_append, lastFit_singleton hk, lastFit_of_lt h, Nat.max_zero]

/-! ### Layouts without strings -/

/-- A numeric or skipped field, a boolean of one bit (30_encoding.md R86, R102). -/
def plainField : FieldSpec → Bool
  | .num .b _ width => width == 1
  | .num _ _ _ => true
  | .skip _ => true
  | .str _ _ => false

/-- The bits of a numeric or skipped field. -/
def fieldBits : FieldSpec → Nat
  | .num _ _ width => width
  | .skip width => width
  | .str _ _ => 0

/-- The numeric fields of a layout that begins at stream bit `start`, each at its place. -/
def layoutPlaces : Nat → List FieldSpec → List Placed
  | _, [] => []
  | start, .num kind key width :: fs => ⟨key, kind, start, width⟩ :: layoutPlaces (start + width) fs
  | start, .skip width :: fs => layoutPlaces (start + width) fs
  | start, .str _ _ :: fs => layoutPlaces start fs

/-- The ends of a layout's fields, the skipped ones among them. -/
def layoutMarks : Nat → List FieldSpec → List Nat
  | _, [] => []
  | start, f :: fs => (start + fieldBits f) :: layoutMarks (start + fieldBits f) fs

@[simp] theorem layoutWidth_nil : layoutWidth [] = 0 := rfl

@[simp] theorem layoutWidth_cons (f : FieldSpec) (fs : List FieldSpec) :
    layoutWidth (f :: fs) = fieldBits f + layoutWidth fs := by
  cases f <;> simp [layoutWidth, fieldBits]

theorem layoutPlaces_cons (start : Nat) (f : FieldSpec) (fs : List FieldSpec) :
    layoutPlaces start (f :: fs) = layoutPlaces start [f] ++ layoutPlaces (start + fieldBits f) fs := by
  cases f <;> rfl

theorem le_of_mem_layoutMarks {start m : Nat} {layout : List FieldSpec} (h : m ∈ layoutMarks start layout) :
    start ≤ m := by
  induction layout generalizing start with
  | nil => simp [layoutMarks] at h
  | cons f fs ih =>
    obtain rfl | h := List.mem_cons.mp h
    · exact Nat.le_add_right _ _
    · exact (Nat.le_add_right _ _).trans (ih h)

/-- A field of a layout lies within it. -/
theorem bounds_of_mem_layoutPlaces {start : Nat} {layout : List FieldSpec} {f : Placed}
    (h : f ∈ layoutPlaces start layout) : start ≤ f.start ∧ f.start + f.width ≤ start + layoutWidth layout := by
  induction layout generalizing start with
  | nil => simp [layoutPlaces] at h
  | cons g fs ih =>
    rw [layoutPlaces_cons, List.mem_append] at h
    rw [layoutWidth_cons]
    obtain h | h := h
    · cases g with
      | num kind key width =>
        obtain rfl := List.mem_singleton.mp h
        simp only [fieldBits]
        omega
      | skip width => simp [layoutPlaces] at h
      | str lenKey key => simp [layoutPlaces] at h
    · have := ih h
      omega

theorem layoutPlaces_keys {layout : List FieldSpec} (hplain : ∀ f ∈ layout, plainField f = true) (start : Nat) :
    (layoutPlaces start layout).map Placed.key = layoutKeys layout := by
  induction layout generalizing start with
  | nil => rfl
  | cons f fs ih =>
    have htail := ih (fun g hg => hplain g (List.mem_cons_of_mem f hg)) (start + fieldBits f)
    have hhead := hplain f List.mem_cons_self
    rw [layoutPlaces_cons, List.map_append, htail, layoutKeys_cons]
    cases f with
    | num kind key width => rfl
    | skip width => rfl
    | str lenKey key => simp [plainField] at hhead

/-! ### Rows at places -/

theorem fittingRow_append (p : Bytes) (fs gs : List Placed) :
    fittingRow p (fs ++ gs) = fittingRow p fs ++ fittingRow p gs :=
  List.map_append

theorem fittingRow_of_fits {p : Bytes} {fs : List Placed} (h : ∀ f ∈ fs, f.start + f.width ≤ 8 * p.length) :
    fittingRow p fs = rowAt p 0 fs :=
  List.map_congr_left fun f hf => by rw [if_pos (h f hf), Nat.zero_add]

theorem fittingRow_of_lt {p : Bytes} {fs : List Placed} (h : ∀ f ∈ fs, 8 * p.length < f.start + f.width) :
    fittingRow p fs = absentRow (fs.map Placed.key) := by
  rw [absentRow, List.map_map]
  exact List.map_congr_left fun f hf => by simp [Nat.not_le.mpr (h f hf)]

/-- The fields of a layout that begins beyond the payload are absent. -/
theorem fittingRow_layoutPlaces_of_lt {layout : List FieldSpec} (hplain : ∀ f ∈ layout, plainField f = true)
    {p : Bytes} {start : Nat} (h : 8 * p.length < start) :
    fittingRow p (layoutPlaces start layout) = absentRow (layoutKeys layout) := by
  rw [fittingRow_of_lt fun f hf => by have := bounds_of_mem_layoutPlaces hf; omega, layoutPlaces_keys hplain]

/-- A row that starts at `base` has its fields where the layout from `base` on puts them. -/
theorem rowAt_layoutPlaces (p : Bytes) (base start : Nat) (layout : List FieldSpec) :
    rowAt p base (layoutPlaces start layout) = rowAt p 0 (layoutPlaces (base + start) layout) := by
  induction layout generalizing start with
  | nil => rfl
  | cons f fs ih =>
    cases f with
    | num kind key width =>
      have htail := ih (start + width)
      rw [← Nat.add_assoc] at htail
      simp only [rowAt, layoutPlaces, List.map_cons, Nat.zero_add] at htail ⊢
      rw [htail]
    | skip width => simpa only [layoutPlaces, Nat.add_assoc] using ih (start + width)
    | str lenKey key => exact ih start

theorem rowFields_eq_scalars (row : Row) : rowFields row = scalars row := rfl

/-! ### Reading a layout -/

/-- The value read is the value at the field's place (30_encoding.md R86, R87). -/
theorem numValue_eq_numAt {kind : NumKind} {width : Nat} (h : kind = .b → width = 1) (p : Bytes) (k : Nat) :
    numValue kind width (bitRead p k width) = numAt kind p k width := by
  rw [bitRead_eq_bitSum]
  cases kind with
  | u => rfl
  | s =>
    simp only [numValue, numAt, signed, sext]
    by_cases hpos : bitSum p k width < 2 ^ (width - 1)
    · rw [if_pos hpos, if_neg (by omega)]
    · rw [if_neg hpos, if_pos (by omega)]
  | b =>
    rw [h rfl, ← bitRead_eq_bitSum, bitRead_one]
    simp only [numValue, numAt]
    cases sbit p k <;> rfl

theorem plainField_num {kind : NumKind} {key : Key} {width : Nat} :
    plainField (.num kind key width) = true ↔ (kind = .b → width = 1) := by
  cases kind <;> simp [plainField]

/-- Everything a numeric or skipped field can do: it does not fit, or it is read from its place. -/
theorem readField_plain {f : FieldSpec} (hplain : plainField f = true) {p : Bytes} {k : Nat} (hk : k ≤ 8 * p.length) :
    (8 * p.length < k + fieldBits f ∧ readField f ⟨p, k⟩ = ⟨absentRow (fieldKeys f), ⟨p, k⟩, true⟩) ∨
    (k + fieldBits f ≤ 8 * p.length ∧
      readField f ⟨p, k⟩ = ⟨rowAt p 0 (layoutPlaces k [f]), ⟨p, k + fieldBits f⟩, false⟩) := by
  cases f with
  | num kind key width =>
    obtain ⟨hshort, hread⟩ | ⟨hfit, hread⟩ := readField_num kind key width ⟨p, k⟩
    · exact .inl ⟨by simp only [Reader.rem, fieldBits] at *; omega, hread⟩
    · refine .inr ⟨by simp only [Reader.rem, fieldBits] at *; omega, ?_⟩
      rw [hread, numValue_eq_numAt (plainField_num.mp hplain)]
      simp [rowAt, layoutPlaces, Reader.take, fieldBits]
  | skip width =>
    obtain ⟨hshort, hread⟩ | ⟨hfit, hread⟩ := readField_skip width ⟨p, k⟩
    · exact .inl ⟨by simp only [Reader.rem, fieldBits] at *; omega, hread⟩
    · exact .inr ⟨by simp only [Reader.rem, fieldBits] at *; omega, hread⟩
  | str lenKey key => simp [plainField] at hplain

/-- A sequence of numeric and skipped fields records the fields that fit, each from its place, and stops behind the
last that fits (43_mux_fixed.md R184). -/
theorem decodeSeq_eq {layout : List FieldSpec} (hplain : ∀ f ∈ layout, plainField f = true) {p : Bytes} {k : Nat}
    (hk : k ≤ 8 * p.length) :
    decodeSeq layout ⟨p, k⟩ =
      ⟨fittingRow p (layoutPlaces k layout), ⟨p, lastFit (8 * p.length) (k :: layoutMarks k layout)⟩,
        decide (8 * p.length < k + layoutWidth layout)⟩ := by
  induction layout generalizing k with
  | nil => simp [decodeSeq_nil, layoutPlaces, layoutMarks, fittingRow, lastFit_singleton hk, hk]
  | cons f fs ih =>
    have htail : ∀ g ∈ fs, plainField g = true := fun g hg => hplain g (List.mem_cons_of_mem f hg)
    obtain ⟨hshort, hread⟩ | ⟨hfit, hread⟩ := readField_plain (hplain f List.mem_cons_self) hk
    · obtain ⟨-, hseq⟩ | ⟨hgo, -⟩ := decodeSeq_cons f fs ⟨p, k⟩
      · have hmarks : ∀ m ∈ layoutMarks k (f :: fs), 8 * p.length < m := by
          intro m hm
          obtain rfl | hm := List.mem_cons.mp hm
          · exact hshort
          · exact hshort.trans_le (le_of_mem_layoutMarks hm)
        have hhead : fittingRow p (layoutPlaces k [f]) = absentRow (fieldKeys f) := by
          rw [fittingRow_of_lt, layoutPlaces_keys (layout := [f]) (by simpa using hplain f List.mem_cons_self)]
          · simp
          · cases f <;> simp_all [layoutPlaces, fieldBits]
        rw [hseq, hread, layoutPlaces_cons, fittingRow_append, hhead, fittingRow_layoutPlaces_of_lt htail hshort,
          lastFit_cons_of_lt hk hmarks, layoutWidth_cons, decide_eq_true (by omega)]
      · simp [hread] at hgo
    · obtain ⟨hcut, -⟩ | ⟨-, hseq⟩ := decodeSeq_cons f fs ⟨p, k⟩
      · simp [hread] at hcut
      · have hhead : fittingRow p (layoutPlaces k [f]) = rowAt p 0 (layoutPlaces k [f]) :=
          fittingRow_of_fits fun g hg => by
            have := bounds_of_mem_layoutPlaces hg
            simp only [layoutWidth_cons, layoutWidth_nil] at this
            omega
        rw [hseq, hread, ih htail hfit, layoutPlaces_cons k f fs, fittingRow_append, hhead, layoutMarks,
          lastFit_cons_cons _ (Nat.le_add_right _ _) hfit, layoutWidth_cons, Nat.add_assoc]

/-- The start of a decoder whose layout has no strings (43_mux_fixed.md R184, R188). -/
theorem startSeq_eq {layout : List FieldSpec} (hplain : ∀ f ∈ layout, plainField f = true) (p : Bytes) :
    startSeq layout p =
      ⟨fittingRow p (layoutPlaces 12 layout), ⟨p, lastFit (8 * p.length) (12 :: layoutMarks 12 layout)⟩,
        decide (8 * p.length < 12 + layoutWidth layout)⟩ := by
  obtain ⟨hshort, hstart⟩ | ⟨hlong, hstart⟩ := startSeq_cases layout p
  · have hmarks : ∀ m ∈ 12 :: layoutMarks 12 layout, 8 * p.length < m := by
      intro m hm
      obtain rfl | hm := List.mem_cons.mp hm
      · exact hshort
      · exact hshort.trans_le (le_of_mem_layoutMarks hm)
    rw [hstart, fittingRow_layoutPlaces_of_lt hplain hshort, lastFit_of_lt hmarks, decide_eq_true (by omega)]
    rfl
  · rw [hstart, decodeSeq_eq hplain hlong]

/-- A layout that fits is read whole, and reading stops at its end. -/
theorem lastFit_layoutMarks {size k : Nat} {layout : List FieldSpec} (h : k + layoutWidth layout ≤ size) :
    lastFit size (k :: layoutMarks k layout) = k + layoutWidth layout := by
  induction layout generalizing k with
  | nil => exact lastFit_singleton h
  | cons f fs ih =>
    rw [layoutWidth_cons, ← Nat.add_assoc] at h ⊢
    rw [layoutMarks, lastFit_cons_cons _ (Nat.le_add_right _ _) (by omega), ih h]

theorem fittingRow_layoutPlaces_of_fits {p : Bytes} {start : Nat} {layout : List FieldSpec}
    (h : start + layoutWidth layout ≤ 8 * p.length) :
    fittingRow p (layoutPlaces start layout) = rowAt p 0 (layoutPlaces start layout) :=
  fittingRow_of_fits fun _ hf => (bounds_of_mem_layoutPlaces hf).2.trans h

/-- A row that fits, read whole from stream bit `k` (43_mux_fixed.md R185). -/
theorem decodeSeq_of_fits {layout : List FieldSpec} (hplain : ∀ f ∈ layout, plainField f = true) {p : Bytes} {k : Nat}
    (h : k + layoutWidth layout ≤ 8 * p.length) :
    decodeSeq layout ⟨p, k⟩ = ⟨rowAt p k (layoutPlaces 0 layout), ⟨p, k + layoutWidth layout⟩, false⟩ := by
  rw [decodeSeq_eq hplain (by omega), fittingRow_layoutPlaces_of_fits h, lastFit_layoutMarks h,
    decide_eq_false (by omega), rowAt_layoutPlaces p k 0, Nat.add_zero]

/-! ### Counted rows -/

/-- One row more than fits behind the first, where the first fits. -/
theorem rows_div_succ {size k W : Nat} (hW : 0 < W) (h : k + W ≤ size) :
    (size - k) / W = (size - (k + W)) / W + 1 := by
  rw [show size - k = size - (k + W) + W by omega, Nat.add_div_right _ hW]

/-- As many of the rows due are read as fit whole, one after the other (43_mux_fixed.md R185). -/
theorem decodeRows_eq {layout : List FieldSpec} (hplain : ∀ f ∈ layout, plainField f = true)
    (hW : 0 < layoutWidth layout) {p : Bytes} {k : Nat} (count : Nat) (hk : k ≤ 8 * p.length) :
    decodeRows layout count ⟨p, k⟩ =
      ⟨(List.range (min count ((8 * p.length - k) / layoutWidth layout))).map fun i =>
          rowAt p (k + i * layoutWidth layout) (layoutPlaces 0 layout),
        ⟨p, k + min count ((8 * p.length - k) / layoutWidth layout) * layoutWidth layout⟩,
        decide (8 * p.length < k + count * layoutWidth layout)⟩ := by
  induction count generalizing k with
  | zero => simp [decodeRows, hk]
  | succ count ih =>
    obtain ⟨hshort, hrows⟩ | ⟨hfit, hrows⟩ := decodeRows_succ layout count ⟨p, k⟩
    · simp only [Reader.rem] at hshort
      rw [hrows, Nat.div_eq_of_lt hshort, decide_eq_true (by rw [Nat.succ_mul count]; omega)]
      simp
    · have hend : k + layoutWidth layout ≤ 8 * p.length := by
        simp only [Reader.rem] at hfit
        omega
      have hnext (i : Nat) : k + layoutWidth layout + i * layoutWidth layout = k + (i + 1) * layoutWidth layout := by
        rw [Nat.succ_mul]
        omega
      rw [hrows, decodeSeq_of_fits hplain hend, ih hend, rows_div_succ hW hend, Nat.add_min_add_right,
        List.range_succ_eq_map, List.map_cons, List.map_map]
      simp only [hnext, Nat.zero_mul, Nat.add_zero, Function.comp_def]

/-! ### The records of layouts without strings -/

theorem epilogue_eq (out : Fields) (p : Bytes) (k : Nat) (truncated : Bool) :
    epilogue ⟨out, ⟨p, k⟩, truncated⟩ = out ++ ending truncated (8 * p.length - k) := rfl

theorem decodeFixed_eq {layout : List FieldSpec} (hplain : ∀ f ∈ layout, plainField f = true) (p : Bytes) :
    decodeFixed layout p =
      scalars (fittingRow p (layoutPlaces 12 layout)) ++ ending (decide (8 * p.length < 12 + layoutWidth layout))
        (8 * p.length - lastFit (8 * p.length) (12 :: layoutMarks 12 layout)) := by
  rw [decodeFixed, startSeq_eq hplain]
  rfl

/-- The number recorded under a name is the number at the place of the first field of that name. -/
theorem uintAt_rowAt {p : Bytes} {fs : List Placed} {key : Key}
    (hkind : ∀ m, fs.find? (fun f => f.key == key) = some m → m.kind = .u) :
    uintAt (rowAt p 0 fs) key = countAt p fs key := by
  have hlookup : (rowAt p 0 fs).lookup key =
      (fs.find? fun f => f.key == key).map fun f => numAt f.kind p (0 + f.start) f.width := by
    induction fs with
    | nil => rfl
    | cons f fs ih =>
      by_cases hkey : f.key = key
      · simp [rowAt, hkey]
      · have htail := ih (fun m hm => hkind m (by simpa [hkey] using hm))
        have hbeq : (key == f.key) = false := beq_false_of_ne (Ne.symm hkey)
        simpa [rowAt, List.lookup_cons, hkey, hbeq] using htail
  rw [uintAt, hlookup, countAt]
  cases hfind : fs.find? fun f => f.key == key with
  | none => rfl
  | some m => simp [numAt, hkind m hfind]

/-- The record of a header and counted rows, both without strings (43_mux_fixed.md section 7, R185). -/
theorem decodeLegacyObs_eq {header row : List FieldSpec} (hheader : ∀ f ∈ header, plainField f = true)
    (hrow : ∀ f ∈ row, plainField f = true) (hW : 0 < layoutWidth row) {count : Key} (rows : Key)
    (hkind : ∀ m, (layoutPlaces 12 header).find? (fun f => f.key == count) = some m → m.kind = .u) {p : Bytes}
    {due kept : Nat} (hdue : due = if 8 * p.length < 12 + layoutWidth header then 0
      else countAt p (layoutPlaces 12 header) count)
    (hkept : kept = min due ((8 * p.length - (12 + layoutWidth header)) / layoutWidth row)) :
    decodeLegacyObs header count rows row p =
      scalars (fittingRow p (layoutPlaces 12 header)) ++
        [(rows, .list ((List.range kept).map fun i =>
          rowAt p (12 + layoutWidth header + i * layoutWidth row) (layoutPlaces 0 row)))] ++
        ending (decide (8 * p.length < 12 + layoutWidth header + due * layoutWidth row))
          (8 * p.length - (lastFit (8 * p.length) (12 :: layoutMarks 12 header) + kept * layoutWidth row)) := by
  subst hkept
  rw [decodeLegacyObs, startSeq_eq hheader]
  by_cases hshort : 8 * p.length < 12 + layoutWidth header
  · rw [if_pos hshort] at hdue
    subst hdue
    simp [hshort, epilogue_eq, rowFields_eq_scalars]
  · rw [if_neg hshort] at hdue
    subst hdue
    have hcut : decide (8 * p.length < 12 + layoutWidth header) = false := decide_eq_false hshort
    have hstart := Nat.le_of_not_lt hshort
    simp only [hcut, Bool.false_eq_true, if_false]
    rw [fittingRow_layoutPlaces_of_fits hstart, uintAt_rowAt hkind, lastFit_layoutMarks hstart,
      decodeRows_eq hrow hW _ hstart]
    rfl

/-! ### Numeric layouts -/

theorem plainField_of_mem_numericLayout {fs : List (Key × NumKind × Nat)} (h : ∀ f ∈ fs, f.2.1 = .b → f.2.2 = 1) :
    ∀ g ∈ numericLayout fs, plainField g = true := by
  intro g hg
  obtain ⟨f, hf, rfl⟩ := List.mem_map.mp hg
  exact plainField_num.mpr (h f hf)

theorem layoutPlaces_numericLayout (start : Nat) (fs : List (Key × NumKind × Nat)) :
    layoutPlaces start (numericLayout fs) = place start fs := by
  induction fs generalizing start with
  | nil => rfl
  | cons f fs ih => exact congrArg _ (ih _)

theorem layoutMarks_numericLayout (start : Nat) (fs : List (Key × NumKind × Nat)) :
    layoutMarks start (numericLayout fs) = ends (place start fs) := by
  induction fs generalizing start with
  | nil => rfl
  | cons f fs ih => exact congrArg _ (ih _)

theorem layoutWidth_numericLayout (fs : List (Key × NumKind × Nat)) : layoutWidth (numericLayout fs) = bitsOf fs := by
  simp [layoutWidth, numericLayout, bitsOf, Function.comp_def]

/-- What `DEC.DECODE` returns for a registered number. -/
theorem exec_decDecode_of_lookup {n : MsgNum} {s : State} {d : Decoder}
    (h : s.params.registered.lookup n.toNat = some d) (p : Bytes) :
    exec (.decDecode n p) s = .next (returned (.fields (runDecoder s.params n.toNat p d)) s) := by
  rw [exec_decDecode, decodeMessage_of_lookup h]
  rfl

/-- What a row's instruction returns where its number is registered. -/
theorem exec_message_of_lookup {n : Nat} {mk : Bytes → Instr} {s : State} {d : Decoder}
    (hn : messageInstr n = some mk) (h : s.params.registered.lookup n = some d) (p : Bytes) :
    exec (mk p) s = .next (returned (.fields (runDecoder s.params n p d)) s) := by
  rw [exec_message hn, decodeMessage_of_lookup h]
  rfl

/-- Settles O45: a numeric layout has no strings, and packs its fields. -/
theorem anyNumericLayoutIsReadFieldByField : Obligations.AnyNumericLayoutIsReadFieldByField := by
  intro n fs p s hbool hlookup
  rw [exec_decDecode_of_lookup hlookup, runDecoder, decodeFixed_eq (plainField_of_mem_numericLayout hbool),
    layoutPlaces_numericLayout, layoutMarks_numericLayout, layoutWidth_numericLayout]
  rfl

/-- A header and rows of numeric fields give the record of counted rows, for every payload. -/
theorem decodeLegacyObs_numeric {header row : List (Key × NumKind × Nat)} {count : Key} (rows : Key)
    (hbool : ∀ f ∈ header ++ row, f.2.1 = .b → f.2.2 = 1) (hW : 0 < bitsOf row)
    (hkind : ∀ m, (place 12 header).find? (fun f => f.key == count) = some m → m.kind = .u) (p : Bytes) :
    decodeLegacyObs (numericLayout header) count rows (numericLayout row) p = countedRecord header count rows row p := by
  have hheader := plainField_of_mem_numericLayout fun f hf => hbool f (List.mem_append_left row hf)
  have hrow := plainField_of_mem_numericLayout fun f hf => hbool f (List.mem_append_right header hf)
  rw [← layoutWidth_numericLayout] at hW
  rw [← layoutPlaces_numericLayout] at hkind
  rw [decodeLegacyObs_eq hheader hrow hW rows hkind rfl rfl]
  simp only [layoutPlaces_numericLayout, layoutMarks_numericLayout, layoutWidth_numericLayout]
  rfl

/-- Settles O47: the decoder of a registered number with rows is the one of counted rows. -/
theorem anyRowLayoutReadsWholeRows : Obligations.AnyRowLayoutReadsWholeRows := by
  intro n header row count rows p s hbool hW hkind hlookup
  rw [exec_decDecode_of_lookup hlookup, runDecoder, decodeLegacyObs_numeric rows hbool hW hkind]

/-! ### The default layouts -/

/-- The default tables' decoder of a row's number is the default block's (log entry 4). -/
theorem lookup_of_defaultTables {s : State} (hs : DefaultTables s) {n : Nat} {d : Decoder}
    (h : registered.lookup n = some d) : s.params.registered.lookup n = some d := by
  rw [hs.1, h]

/-- Settles O48: the reserved bit is a mark of its own between two fields. -/
theorem stationMessagesReadTheirFields : Obligations.StationMessagesReadTheirFields := by
  intro p s hs
  have hmarks (marks : List Nat) : lastFit (8 * p.length) (0 :: 12 :: marks) = lastFit (8 * p.length) (12 :: marks) := by
    rw [show 0 :: 12 :: marks = [0] ++ (12 :: marks) from rfl, lastFit_append, lastFit_singleton (Nat.zero_le _),
      Nat.zero_max]
  refine ⟨?_, ?_⟩
  · rw [exec_message_of_lookup (n := 1005) rfl (lookup_of_defaultTables hs rfl), runDecoder,
      decodeFixed_eq (by decide), stationMarks, hmarks]
    rfl
  · rw [exec_message_of_lookup (n := 1006) rfl (lookup_of_defaultTables hs rfl), runDecoder,
      decodeFixed_eq (by decide), stationMarks, List.cons_append, List.cons_append, hmarks]
    rfl

end Sys2Proof.Machine

/-! PROOF. Fields under a mask, the legacy observables, the counted strings of 1007 and 1008, and the biases of 1230
(43_mux_fixed.md R190 to R200, 30_encoding.md R88, R94 to R99). -/

namespace Sys2Proof.Machine

open Sys2Proof.Reference

/-! ### Fields under a mask -/

/-- The values of the fields under a mask: absent where the bit is clear or the field does not fit
(43_mux_fixed.md R192). -/
def maskedRow (p : Bytes) (places : List (Key × Option Placed)) : Row :=
  places.map fun e => (e.1, match e.2 with
    | some f => if f.start + f.width ≤ 8 * p.length then numAt f.kind p f.start f.width else .absent
    | none => .absent)

/-- The fields under a mask as the layout that the decoder takes. -/
def maskedLayout (fs : List (Nat × Key × NumKind × Nat)) : List (Nat × FieldSpec) :=
  fs.map fun f => (f.1, .num f.2.2.1 f.2.1 f.2.2.2)

/-- The fields that the set bits of a mask bring. -/
def presentPlaces (v k : Nat) (fs : List (Nat × Key × NumKind × Nat)) : List Placed :=
  (maskedPlaces v k fs).filterMap Prod.snd

section
variable {v bit : Nat} (k : Nat) (key : Key) (kind : NumKind) (width : Nat) (fs : List (Nat × Key × NumKind × Nat))

theorem maskedPlaces_set (h : v.testBit bit = true) :
    maskedPlaces v k ((bit, key, kind, width) :: fs) =
      (key, some ⟨key, kind, k, width⟩) :: maskedPlaces v (k + width) fs := if_pos h

theorem maskedPlaces_clear (h : v.testBit bit = false) :
    maskedPlaces v k ((bit, key, kind, width) :: fs) = (key, none) :: maskedPlaces v k fs :=
  if_neg (Bool.eq_false_iff.mp h)

theorem presentPlaces_set (h : v.testBit bit = true) :
    presentPlaces v k ((bit, key, kind, width) :: fs) =
      ⟨key, kind, k, width⟩ :: presentPlaces v (k + width) fs := by
  rw [presentPlaces, maskedPlaces_set k key kind width fs h]
  rfl

theorem presentPlaces_clear (h : v.testBit bit = false) :
    presentPlaces v k ((bit, key, kind, width) :: fs) = presentPlaces v k fs := by
  rw [presentPlaces, maskedPlaces_clear k key kind width fs h]
  rfl

end

theorem ends_cons (f : Placed) (fs : List Placed) : ends (f :: fs) = (f.start + f.width) :: ends fs := rfl

theorem maskedRow_cons_none (p : Bytes) (key : Key) (places : List (Key × Option Placed)) :
    maskedRow p ((key, none) :: places) = (key, .absent) :: maskedRow p places := rfl

theorem maskedRow_cons_of_fits {p : Bytes} (key : Key) {f : Placed} (places : List (Key × Option Placed))
    (h : f.start + f.width ≤ 8 * p.length) :
    maskedRow p ((key, some f) :: places) = (key, numAt f.kind p f.start f.width) :: maskedRow p places := by
  simp [maskedRow, h]

theorem maskedRow_cons_of_lt {p : Bytes} (key : Key) {f : Placed} (places : List (Key × Option Placed))
    (h : 8 * p.length < f.start + f.width) :
    maskedRow p ((key, some f) :: places) = (key, .absent) :: maskedRow p places := by
  simp [maskedRow, Nat.not_le.mpr h]

theorem le_start_of_mem_presentPlaces {v k : Nat} {fs : List (Nat × Key × NumKind × Nat)} {f : Placed}
    (h : f ∈ presentPlaces v k fs) : k ≤ f.start := by
  induction fs generalizing k with
  | nil => simp [presentPlaces, maskedPlaces] at h
  | cons g fs ih =>
    obtain ⟨bit, key, kind, width⟩ := g
    cases hbit : v.testBit bit with
    | true =>
      rw [presentPlaces_set k key kind width fs hbit, List.mem_cons] at h
      obtain rfl | h := h
      · exact le_rfl
      · exact (Nat.le_add_right k width).trans (ih h)
    | false =>
      rw [presentPlaces_clear k key kind width fs hbit] at h
      exact ih h

theorem lt_of_mem_ends_presentPlaces {v k size m : Nat} {fs : List (Nat × Key × NumKind × Nat)} (h : size < k)
    (hm : m ∈ ends (presentPlaces v k fs)) : size < m := by
  obtain ⟨f, hf, rfl⟩ := List.mem_map.mp hm
  have := le_start_of_mem_presentPlaces hf
  omega

/-- Fields under a mask that begin beyond the payload are absent, whatever the mask. -/
theorem maskedRow_of_lt {p : Bytes} (v : Nat) {k : Nat} (fs : List (Nat × Key × NumKind × Nat))
    (h : 8 * p.length < k) :
    maskedRow p (maskedPlaces v k fs) = absentRow (layoutKeys ((maskedLayout fs).map Prod.snd)) := by
  induction fs generalizing k with
  | nil => rfl
  | cons g fs ih =>
    obtain ⟨bit, key, kind, width⟩ := g
    cases hbit : v.testBit bit with
    | true =>
      have hshort : 8 * p.length < k + width := by omega
      rw [maskedPlaces_set k key kind width fs hbit, maskedRow_cons_of_lt key _ hshort, ih hshort]
      rfl
    | false =>
      rw [maskedPlaces_clear k key kind width fs hbit, maskedRow_cons_none, ih h]
      rfl

/-- The set bits of a mask bring their fields one after the other, and reading stops behind the last that fits
(43_mux_fixed.md R192). -/
theorem readBiases_eq {fs : List (Nat × Key × NumKind × Nat)} (hbool : ∀ f ∈ fs, f.2.2.1 = .b → f.2.2.2 = 1)
    (v : Nat) {p : Bytes} {k : Nat} (hk : k ≤ 8 * p.length) :
    readBiases v (maskedLayout fs) ⟨p, k⟩ =
      ⟨maskedRow p (maskedPlaces v k fs), ⟨p, lastFit (8 * p.length) (k :: ends (presentPlaces v k fs))⟩,
        decide (8 * p.length < k + ((presentPlaces v k fs).map Placed.width).sum)⟩ := by
  induction fs generalizing k with
  | nil => simp [maskedLayout, readBiases, presentPlaces, maskedPlaces, maskedRow, ends, lastFit_singleton hk, hk]
  | cons g fs ih =>
    obtain ⟨bit, key, kind, width⟩ := g
    have htail : ∀ f ∈ fs, f.2.2.1 = .b → f.2.2.2 = 1 := fun f hf => hbool f (List.mem_cons_of_mem _ hf)
    have hplain : plainField (.num kind key width) = true := plainField_num.mpr (hbool _ List.mem_cons_self)
    have hlayout : maskedLayout ((bit, key, kind, width) :: fs) = (bit, .num kind key width) :: maskedLayout fs := rfl
    rw [hlayout]
    obtain ⟨hclear, hbias⟩ | ⟨hset, hcut, hbias⟩ | ⟨hset, hgo, hbias⟩ :=
      readBiases_cons v bit (.num kind key width) (maskedLayout fs) ⟨p, k⟩
    · rw [hbias, ih htail hk, maskedPlaces_clear k key kind width fs hclear,
        presentPlaces_clear k key kind width fs hclear]
      rfl
    · obtain ⟨hshort, hread⟩ | ⟨-, hread⟩ := readField_plain hplain hk
      · simp only [fieldBits] at hshort
        have hmarks : ∀ m ∈ (k + width) :: ends (presentPlaces v (k + width) fs), 8 * p.length < m := by
          intro m hm
          obtain rfl | hm := List.mem_cons.mp hm
          · exact hshort
          · exact lt_of_mem_ends_presentPlaces hshort hm
        rw [hbias, hread, maskedPlaces_set k key kind width fs hset, presentPlaces_set k key kind width fs hset,
          ends_cons, lastFit_cons_of_lt hk hmarks, maskedRow_cons_of_lt key _ hshort, maskedRow_of_lt v fs hshort,
          List.map_cons, List.sum_cons, ← Nat.add_assoc k, decide_eq_true (Nat.lt_add_right _ hshort)]
        rfl
      · simp [hread] at hcut
    · obtain ⟨-, hread⟩ | ⟨hfit, hread⟩ := readField_plain hplain hk
      · simp [hread] at hgo
      · have hend : 8 * p.length ≥ k + width := hfit
        rw [hbias, hread, maskedPlaces_set k key kind width fs hset, presentPlaces_set k key kind width fs hset,
          ends_cons, lastFit_cons_cons _ (Nat.le_add_right k width) hend, maskedRow_cons_of_fits key _ hend,
          List.map_cons, List.sum_cons, ← Nat.add_assoc k]
        simp only [fieldBits, ih htail hend, rowAt, layoutPlaces, List.map_cons, List.map_nil, Nat.zero_add]
        rfl

/-- The decoder of a header and fields under a mask, all numeric, gives the record of the rule, for every payload. -/
theorem decodeBias_numeric {header : List (Key × NumKind × Nat)} {mask : Key} {fs : List (Nat × Key × NumKind × Nat)}
    (hbool : ∀ f ∈ header ++ fs.map Prod.snd, f.2.1 = .b → f.2.2 = 1)
    (hkind : ∀ m, (place 12 header).find? (fun f => f.key == mask) = some m → m.kind = .u) (p : Bytes) :
    decodeBias (numericLayout header) mask (maskedLayout fs) p = maskedRecord header mask fs p := by
  have hheader := plainField_of_mem_numericLayout fun f hf => hbool f (List.mem_append_left _ hf)
  have hfields : ∀ f ∈ fs, f.2.2.1 = .b → f.2.2.2 = 1 := fun f hf =>
    hbool f.2 (List.mem_append_right _ (List.mem_map_of_mem hf))
  have hrecord : maskedRecord header mask fs p =
      let v := countAt p (place 12 header) mask
      scalars (fittingRow p (place 12 header) ++ maskedRow p (maskedPlaces v (12 + bitsOf header) fs)) ++
        ending (decide (8 * p.length < 12 + bitsOf header +
            ((presentPlaces v (12 + bitsOf header) fs).map Placed.width).sum))
          (8 * p.length - lastFit (8 * p.length)
            (12 :: ends (place 12 header) ++ ends (presentPlaces v (12 + bitsOf header) fs))) := rfl
  have hfit := lastFit_layoutMarks (size := 8 * p.length) (k := 12) (layout := numericLayout header)
  rw [layoutWidth_numericLayout, layoutMarks_numericLayout] at hfit
  rw [hrecord, decodeBias, startSeq_eq hheader, layoutPlaces_numericLayout, layoutMarks_numericLayout,
    layoutWidth_numericLayout]
  by_cases hshort : 8 * p.length < 12 + bitsOf header
  · have hmarks : lastFit (8 * p.length)
        (ends (presentPlaces (countAt p (place 12 header) mask) (12 + bitsOf header) fs)) = 0 :=
      lastFit_of_lt fun m hm => lt_of_mem_ends_presentPlaces hshort hm
    simp only [decide_eq_true hshort, if_true, ← maskedRow_of_lt (countAt p (place 12 header) mask) fs hshort,
      lastFit_append, hmarks, Nat.max_zero, decide_eq_true (Nat.lt_add_right _ hshort)]
    rfl
  · have hstart := Nat.le_of_not_lt hshort
    have hrow : fittingRow p (place 12 header) = rowAt p 0 (place 12 header) := by
      rw [← layoutPlaces_numericLayout]
      exact fittingRow_layoutPlaces_of_fits (by rwa [layoutWidth_numericLayout])
    simp only [decide_eq_false hshort, Bool.false_eq_true, if_false, hrow, uintAt_rowAt hkind, hfit hstart,
      readBiases_eq hfields _ hstart, lastFit_append]
    rw [show ∀ k ms, k :: ms = [k] ++ ms from fun _ _ => rfl, lastFit_append, lastFit_singleton hstart]
    rfl

/-- Settles O46: the decoder of a registered number with a mask is the one of a header and fields under a mask. -/
theorem anyMaskedLayoutReadsItsSetFields : Obligations.AnyMaskedLayoutReadsItsSetFields := by
  intro n header mask fs p s hbool hkind hlookup
  rw [exec_decDecode_of_lookup hlookup, runDecoder, ← decodeBias_numeric hbool hkind]
  rfl

/-! ### Legacy observables -/

/-- The header of a legacy message after its number (30_encoding.md R96, R98). -/
def obsHeaderFields (epoch : Nat) : List (Key × NumKind × Nat) :=
  [(.stationId, .u, 12), (.epochTime, .u, epoch), (.synchronousGnssFlag, .b, 1), (.satelliteCount, .u, 5),
   (.smoothingIndicator, .b, 1), (.smoothingInterval, .u, 3)]

theorem place_obsHeaderFields (epoch : Nat) : place 12 (obsHeaderFields epoch) = obsHeader epoch := by
  simp [obsHeaderFields, place, obsHeader]
  omega

theorem countedRecord_eq_obsRecord (epoch : Nat) (fs : List (Key × NumKind × Nat)) (p : Bytes) :
    countedRecord (obsHeaderFields epoch) .satelliteCount .satellites fs p = obsRecord epoch fs (bitsOf fs) p := by
  have hhead : 12 + bitsOf (obsHeaderFields epoch) = 34 + epoch := by
    simp [obsHeaderFields, bitsOf]
    omega
  have hmarks : lastFit (8 * p.length) (12 :: ends (obsHeader epoch)) = lastFit (8 * p.length) (obsMarks epoch) := by
    have hends : obsMarks epoch = 0 :: 12 :: ends (obsHeader epoch) := by
      simp [obsMarks, ends, obsHeader]
      omega
    rw [hends, show 0 :: 12 :: ends (obsHeader epoch) = [0] ++ (12 :: ends (obsHeader epoch)) from rfl,
      lastFit_append, lastFit_singleton (Nat.zero_le _), Nat.zero_max]
  simp only [countedRecord, obsRecord, place_obsHeaderFields, hhead, hmarks]
  rfl

/-- The default `REGISTERED` gives each legacy number the header and rows of its rule (43_mux_fixed.md R193 to
R200). -/
theorem obsTable_layouts {e : Nat × (Bytes → Instr) × Nat × List (Key × NumKind × Nat) × Nat} (h : e ∈ obsTable) :
    registered.lookup e.1 = some (.legacyObs (numericLayout (obsHeaderFields e.2.2.1)) .satelliteCount .satellites
      (numericLayout e.2.2.2.1)) ∧
    (∀ f ∈ obsHeaderFields e.2.2.1 ++ e.2.2.2.1, f.2.1 = .b → f.2.2 = 1) ∧ bitsOf e.2.2.2.1 = e.2.2.2.2 ∧
    0 < bitsOf e.2.2.2.1 := by
  have hall : ∀ e ∈ obsTable,
      registered.lookup e.1 = some (.legacyObs (numericLayout (obsHeaderFields e.2.2.1)) .satelliteCount .satellites
        (numericLayout e.2.2.2.1)) ∧
      (∀ f ∈ obsHeaderFields e.2.2.1 ++ e.2.2.2.1, f.2.1 = .b → f.2.2 = 1) ∧ bitsOf e.2.2.2.1 = e.2.2.2.2 ∧
      0 < bitsOf e.2.2.2.1 := by
    decide
  exact hall e h

theorem messageInstr_of_mem_obsTable {e : Nat × (Bytes → Instr) × Nat × List (Key × NumKind × Nat) × Nat}
    (h : e ∈ obsTable) : messageInstr e.1 = some e.2.1 := by
  have hall : ∀ e ∈ obsTable, messageInstr e.1 = some e.2.1 := by simp [obsTable, messageInstr]
  exact hall e h

/-- Settles O52: the eight decoders are decoders of a header and counted rows. -/
theorem legacyObservablesReadWholeRows : Obligations.LegacyObservablesReadWholeRows := by
  intro e he p s hs
  obtain ⟨hlookup, hbool, hwidth, hpos⟩ := obsTable_layouts he
  rw [exec_message_of_lookup (messageInstr_of_mem_obsTable he) (lookup_of_defaultTables hs hlookup), runDecoder,
    decodeLegacyObs_numeric .satellites hbool hpos, countedRecord_eq_obsRecord, hwidth]
  intro m hm
  cases hm
  rfl

end Sys2Proof.Machine

/-! PROOF. Messages read byte by byte: the counted strings of 1007 and 1008 and the biases of 1230
(43_mux_fixed.md R190 to R192, 30_encoding.md R88, R94, R95). -/

namespace Sys2Proof.Machine

open Sys2Proof.Reference

/-! ### Bytes at a byte boundary -/

theorem getD_of_drop {p : Bytes} {a : Nat} {b : Byte} {rest : Bytes} (h : p.drop a = b :: rest) : p.getD a 0 = b := by
  have hhead := congrArg (·.getD 0 0) h
  simpa [List.getD_eq_getElem?_getD] using hhead

theorem drop_succ_of_drop {p : Bytes} {a : Nat} {b : Byte} {rest : Bytes} (h : p.drop a = b :: rest) :
    p.drop (a + 1) = rest := by
  have htail := congrArg List.tail h
  simpa using htail

theorem length_of_drop {p : Bytes} {a : Nat} {rest : Bytes} (h : p.drop a = rest) (ha : a ≤ p.length) :
    p.length = a + rest.length := by
  rw [← h, List.length_drop]
  omega

theorem le_length_of_drop {p : Bytes} {a : Nat} {b : Byte} {rest : Bytes} (h : p.drop a = b :: rest) :
    a + 1 + rest.length = p.length := by
  have hlen := congrArg List.length h
  simp only [List.length_drop, List.length_cons] at hlen
  omega

theorem bitRead_of_drop {p : Bytes} {a : Nat} {b : Byte} {rest : Bytes} (h : p.drop a = b :: rest) :
    bitRead p (8 * a) 8 = b.toNat := by
  rw [bitRead_eight, getD_of_drop h]

/-- An unsigned field of eight bits at a byte boundary is the byte there. -/
theorem readField_byte {p : Bytes} {a : Nat} {b : Byte} {rest : Bytes} (h : p.drop a = b :: rest) (key : Key) :
    readField (.u key 8) ⟨p, 8 * a⟩ = ⟨[(key, .uint b.toNat)], ⟨p, 8 * (a + 1)⟩, false⟩ := by
  have hlen := le_length_of_drop h
  obtain ⟨hshort, -⟩ | ⟨-, hread⟩ := readField_num .u key 8 ⟨p, 8 * a⟩
  · simp only [Reader.rem] at hshort
    omega
  · rw [hread, bitRead_of_drop h]
    rfl

/-- At the end of the payload nothing of a field is there. -/
theorem readField_byte_at_end (p : Bytes) (key : Key) :
    readField (.u key 8) ⟨p, 8 * p.length⟩ = ⟨[(key, .absent)], ⟨p, 8 * p.length⟩, true⟩ := by
  simp [readField, Reader.rem]

theorem readField_str_at_end (p : Bytes) (lenKey key : Key) :
    readField (.str lenKey key) ⟨p, 8 * p.length⟩ =
      ⟨[(lenKey, .absent), (key, .absent)], ⟨p, 8 * p.length⟩, true⟩ := by
  simp [readField, Reader.rem]

theorem readChars_of_drop {p : Bytes} {a : Nat} {chars rest : Bytes} (h : p.drop a = chars ++ rest) :
    readChars chars.length ⟨p, 8 * a⟩ = (chars, ⟨p, 8 * (a + chars.length)⟩) := by
  induction chars generalizing a with
  | nil => rfl
  | cons c chars ih =>
    have hnext := ih (drop_succ_of_drop h)
    have hstep : (Reader.take ⟨p, 8 * a⟩ 8).2 = ⟨p, 8 * (a + 1)⟩ := rfl
    rw [List.length_cons, readChars, hstep, hnext, Reader.take_value, bitRead_of_drop h]
    simp [Nat.add_assoc, Nat.add_comm 1]

/-- A string that is there: its count and its characters (30_encoding.md R88). -/
theorem readField_str_whole {p : Bytes} {a : Nat} {count : Byte} {chars rest : Bytes}
    (h : p.drop a = count :: (chars ++ rest)) (hcount : chars.length = count.toNat) (lenKey key : Key) :
    readField (.str lenKey key) ⟨p, 8 * a⟩ =
      ⟨[(lenKey, .uint count.toNat), (key, .str chars)], ⟨p, 8 * (a + 1 + chars.length)⟩, false⟩ := by
  have hlen := le_length_of_drop h
  have hread : bitRead p (8 * a) 8 = chars.length := (bitRead_of_drop h).trans hcount.symm
  have hchars := readChars_of_drop (drop_succ_of_drop h)
  rw [List.length_append] at hlen
  obtain ⟨hshort, -⟩ | ⟨-, hshort, -⟩ | ⟨-, -, hstr⟩ := readField_str lenKey key ⟨p, 8 * a⟩
  · simp only [Reader.rem] at hshort
    omega
  · simp only [Reader.rem, hread] at hshort
    omega
  · have hstep : (Reader.take ⟨p, 8 * a⟩ 8).2 = ⟨p, 8 * (a + 1)⟩ := rfl
    rw [hstr, hread, hstep, hchars, hcount]

/-- A string whose count exceeds the bytes left: the count stays, no character is consumed (30_encoding.md R88). -/
theorem readField_str_cut {p : Bytes} {a : Nat} {count : Byte} {rest : Bytes} (h : p.drop a = count :: rest)
    (hcount : rest.length < count.toNat) (lenKey key : Key) :
    readField (.str lenKey key) ⟨p, 8 * a⟩ =
      ⟨[(lenKey, .uint count.toNat), (key, .absent)], ⟨p, 8 * (a + 1)⟩, true⟩ := by
  have hlen := le_length_of_drop h
  have hread : bitRead p (8 * a) 8 = count.toNat := bitRead_of_drop h
  obtain ⟨hshort, -⟩ | ⟨-, -, hstr⟩ | ⟨-, hfit, -⟩ := readField_str lenKey key ⟨p, 8 * a⟩
  · simp only [Reader.rem] at hshort
    omega
  · rw [hstr, hread]
    rfl
  · simp only [Reader.rem, hread] at hfit
    omega

/-! ### Sequences -/

theorem decodeSeq_of_read {f : FieldSpec} {r r' : Reader} {row : Row} (h : readField f r = ⟨row, r', false⟩)
    (fs : List FieldSpec) :
    decodeSeq (f :: fs) r =
      ⟨row ++ (decodeSeq fs r').out, (decodeSeq fs r').reader, (decodeSeq fs r').truncated⟩ := by
  simp [decodeSeq, h]

theorem decodeSeq_of_cut {f : FieldSpec} {r r' : Reader} {row : Row} (h : readField f r = ⟨row, r', true⟩)
    (fs : List FieldSpec) : decodeSeq (f :: fs) r = ⟨row ++ absentRow (layoutKeys fs), r', true⟩ := by
  simp [decodeSeq, h]

theorem absentRow_append (ks ls : List Key) : absentRow (ks ++ ls) = absentRow ks ++ absentRow ls := List.map_append

theorem layoutKeys_append (fs gs : List FieldSpec) : layoutKeys (fs ++ gs) = layoutKeys fs ++ layoutKeys gs :=
  List.flatMap_append

/-- Fields behind a sequence that was truncated are absent, else they are read on (43_mux_fixed.md R184). -/
theorem decodeSeq_append (fs gs : List FieldSpec) (r : Reader) :
    decodeSeq (fs ++ gs) r =
      if (decodeSeq fs r).truncated then
        ⟨(decodeSeq fs r).out ++ absentRow (layoutKeys gs), (decodeSeq fs r).reader, true⟩
      else ⟨(decodeSeq fs r).out ++ (decodeSeq gs (decodeSeq fs r).reader).out,
        (decodeSeq gs (decodeSeq fs r).reader).reader, (decodeSeq gs (decodeSeq fs r).reader).truncated⟩ := by
  induction fs generalizing r with
  | nil => simp [decodeSeq_nil]
  | cons f fs ih =>
    rw [List.cons_append]
    cases hcut : (readField f r).truncated with
    | true => simp [decodeSeq, hcut, layoutKeys_append, absentRow_append]
    | false =>
      simp only [decodeSeq, hcut, Bool.false_eq_true, if_false, ih]
      split <;> simp

theorem startSeq_append (fs gs : List FieldSpec) (p : Bytes) :
    startSeq (fs ++ gs) p =
      if (startSeq fs p).truncated then
        ⟨(startSeq fs p).out ++ absentRow (layoutKeys gs), (startSeq fs p).reader, true⟩
      else ⟨(startSeq fs p).out ++ (decodeSeq gs (startSeq fs p).reader).out,
        (decodeSeq gs (startSeq fs p).reader).reader, (decodeSeq gs (startSeq fs p).reader).truncated⟩ := by
  by_cases hshort : (prologue p).truncated = true
  · simp [startSeq, hshort, layoutKeys_append, absentRow_append]
  · simp only [startSeq, hshort, Bool.false_eq_true, if_false]
    exact decodeSeq_append fs gs _

/-! ### The station -/

theorem bitRead_low_nibble (b : Byte) (rest : Bytes) : bitRead (b :: rest) 4 4 = b.toNat % 16 := by
  have hbyte : bitRead (b :: rest) 0 (4 + 4) = b.toNat := bitRead_eight_first b rest
  have hsplit := bitRead_add (b :: rest) 0 4 4
  have hlow := bitRead_lt (b :: rest) 4 4
  rw [hbyte, Nat.zero_add] at hsplit
  omega

/-- The twelve bits after the message number: four of byte 1 and all of byte 2. -/
theorem bitRead_station (b0 b1 b2 : Byte) (rest : Bytes) :
    bitRead (b0 :: b1 :: b2 :: rest) 12 12 = b1.toNat % 16 * 256 + b2.toNat := by
  have hskip : bitRead (b0 :: b1 :: b2 :: rest) (8 + 4) 12 = bitRead (b1 :: b2 :: rest) 4 12 := bitRead_cons_add ..
  have hbyte : bitRead (b1 :: b2 :: rest) (8 + 0) 8 = bitRead (b2 :: rest) 0 8 := bitRead_cons_add ..
  have hsplit := bitRead_add (b1 :: b2 :: rest) 4 4 8
  rw [bitRead_low_nibble, hbyte, bitRead_eight_first] at hsplit
  exact hskip.trans hsplit

/-- A decoder whose layout begins with the station, on a payload that holds it. -/
theorem startSeq_station (b0 b1 b2 : Byte) (rest : Bytes) (fs : List FieldSpec) :
    startSeq (.u .stationId 12 :: fs) (b0 :: b1 :: b2 :: rest) =
      let tail := decodeSeq fs ⟨b0 :: b1 :: b2 :: rest, 8 * 3⟩
      ⟨(.stationId, .uint (b1.toNat % 16 * 256 + b2.toNat)) :: tail.out, tail.reader, tail.truncated⟩ := by
  obtain ⟨hshort, -⟩ | ⟨-, hstart⟩ := startSeq_cases (.u .stationId 12 :: fs) (b0 :: b1 :: b2 :: rest)
  · simp only [List.length_cons] at hshort
    omega
  · have hread : readField (.u .stationId 12) ⟨b0 :: b1 :: b2 :: rest, 12⟩ =
        ⟨[(.stationId, .uint (b1.toNat % 16 * 256 + b2.toNat))], ⟨b0 :: b1 :: b2 :: rest, 8 * 3⟩, false⟩ := by
      obtain ⟨hshort, -⟩ | ⟨-, hread⟩ := readField_num .u .stationId 12 ⟨b0 :: b1 :: b2 :: rest, 12⟩
      · simp only [Reader.rem, List.length_cons] at hshort
        omega
      · rw [hread, bitRead_station]
        rfl
    rw [hstart, decodeSeq_of_read hread]
    rfl

/-! ### Antenna strings -/

theorem decodeFixed_of_startSeq {layout : List FieldSpec} {p : Bytes} {row : Row} {k : Nat} {truncated : Bool}
    (h : startSeq layout p = ⟨row, ⟨p, k⟩, truncated⟩) :
    decodeFixed layout p = scalars row ++ ending truncated (8 * p.length - k) := by
  rw [decodeFixed, h]
  rfl

theorem exec_antDesc {s : State} (hs : DefaultTables s) (p : Bytes) :
    exec (.antDesc p) s = .next (returned (.fields (decodeFixed f1007 p)) s) :=
  exec_message_of_lookup (n := 1007) rfl (lookup_of_defaultTables hs rfl) p

theorem exec_antDescSerial {s : State} (hs : DefaultTables s) (p : Bytes) :
    exec (.antDescSerial p) s = .next (returned (.fields (decodeFixed f1008 p)) s) :=
  exec_message_of_lookup (n := 1008) rfl (lookup_of_defaultTables hs rfl) p

section
variable (b0 b1 b2 count : Byte) (chars rest : Bytes)

/-- 1007 with its string whole and a setup id behind it (43_mux_fixed.md R190). -/
theorem startSeq_f1007_whole (setup : Byte) (h : chars.length = count.toNat) :
    startSeq f1007 (b0 :: b1 :: b2 :: count :: (chars ++ setup :: rest)) =
      ⟨[(.stationId, .uint (b1.toNat % 16 * 256 + b2.toNat)), (.antennaDescriptorLength, .uint count.toNat),
        (.antennaDescriptor, .str chars), (.antennaSetupId, .uint setup.toNat)],
        ⟨b0 :: b1 :: b2 :: count :: (chars ++ setup :: rest), 8 * (3 + 1 + chars.length + 1)⟩, false⟩ := by
  have hstr := readField_str_whole (p := b0 :: b1 :: b2 :: count :: (chars ++ setup :: rest)) (a := 3) rfl h
    .antennaDescriptorLength .antennaDescriptor
  have hsetup := readField_byte (p := b0 :: b1 :: b2 :: count :: (chars ++ setup :: rest)) (a := 3 + 1 + chars.length)
    (b := setup) (rest := rest) (by simp [Nat.add_comm 4]) .antennaSetupId
  rw [f1007, startSeq_station, decodeSeq_of_read hstr, decodeSeq_of_read hsetup]
  rfl

/-- 1007 with its string whole and nothing behind it. -/
theorem startSeq_f1007_no_setup (h : chars.length = count.toNat) :
    startSeq f1007 (b0 :: b1 :: b2 :: count :: chars) =
      ⟨[(.stationId, .uint (b1.toNat % 16 * 256 + b2.toNat)), (.antennaDescriptorLength, .uint count.toNat),
        (.antennaDescriptor, .str chars), (.antennaSetupId, .absent)],
        ⟨b0 :: b1 :: b2 :: count :: chars, 8 * (b0 :: b1 :: b2 :: count :: chars).length⟩, true⟩ := by
  have hstr := readField_str_whole (p := b0 :: b1 :: b2 :: count :: chars) (a := 3) (rest := [])
    (by rw [List.append_nil]; rfl) h .antennaDescriptorLength .antennaDescriptor
  have hend : 3 + 1 + chars.length = (b0 :: b1 :: b2 :: count :: chars).length := by
    simp only [List.length_cons]
    omega
  rw [hend] at hstr
  rw [f1007, startSeq_station, decodeSeq_of_read hstr, decodeSeq_of_cut (readField_byte_at_end _ _)]
  rfl

/-- 1007 whose string does not fit: the count stays (43_mux_fixed.md R190). -/
theorem startSeq_f1007_cut (h : rest.length < count.toNat) :
    startSeq f1007 (b0 :: b1 :: b2 :: count :: rest) =
      ⟨[(.stationId, .uint (b1.toNat % 16 * 256 + b2.toNat)), (.antennaDescriptorLength, .uint count.toNat),
        (.antennaDescriptor, .absent), (.antennaSetupId, .absent)],
        ⟨b0 :: b1 :: b2 :: count :: rest, 8 * (3 + 1)⟩, true⟩ := by
  have hstr := readField_str_cut (p := b0 :: b1 :: b2 :: count :: rest) (a := 3) rfl h .antennaDescriptorLength
    .antennaDescriptor
  rw [f1007, startSeq_station, decodeSeq_of_cut hstr]
  rfl

/-- 1007 that ends behind the station. -/
theorem startSeq_f1007_no_count :
    startSeq f1007 [b0, b1, b2] =
      ⟨[(.stationId, .uint (b1.toNat % 16 * 256 + b2.toNat)), (.antennaDescriptorLength, .absent),
        (.antennaDescriptor, .absent), (.antennaSetupId, .absent)], ⟨[b0, b1, b2], 8 * 3⟩, true⟩ := by
  have hstr : readField (.str .antennaDescriptorLength .antennaDescriptor) ⟨[b0, b1, b2], 8 * 3⟩ =
      ⟨[(.antennaDescriptorLength, .absent), (.antennaDescriptor, .absent)], ⟨[b0, b1, b2], 8 * 3⟩, true⟩ :=
    readField_str_at_end [b0, b1, b2] _ _
  rw [f1007, startSeq_station, decodeSeq_of_cut hstr]
  rfl

end

/-- Settles O49: the five ways in which a payload of 1007 can end. -/
theorem antennaDescriptorReadsItsString : Obligations.AntennaDescriptorReadsItsString := by
  intro b0 b1 b2 count chars rest s hs
  simp only [exec_antDesc hs]
  refine ⟨fun h setup => ?_, fun h => ?_, fun h => ?_, ?_, fun h => ?_⟩
  · rw [decodeFixed_of_startSeq (startSeq_f1007_whole b0 b1 b2 count chars rest setup h)]
    have hleft : 8 * (b0 :: b1 :: b2 :: count :: (chars ++ setup :: rest)).length - 8 * (3 + 1 + chars.length + 1) =
        8 * rest.length := by
      simp only [List.length_cons, List.length_append]
      omega
    rw [hleft]
    rfl
  · rw [decodeFixed_of_startSeq (startSeq_f1007_no_setup b0 b1 b2 count chars h), Nat.sub_self]
    rfl
  · rw [decodeFixed_of_startSeq (startSeq_f1007_cut b0 b1 b2 count rest h)]
    have hleft : 8 * (b0 :: b1 :: b2 :: count :: rest).length - 8 * (3 + 1) = 8 * rest.length := by
      simp only [List.length_cons]
      omega
    rw [hleft]
    rfl
  · rw [decodeFixed_of_startSeq (startSeq_f1007_no_count b0 b1 b2)]
    rfl
  · match rest, h with
    | [], _ => rfl
    | [_], _ => rfl
    | [_, _], _ => rfl

/-- 1008 is 1007 with one string more, read where 1007 was not truncated (43_mux_fixed.md R191). -/
theorem decodeFixed_f1008_of_cut {p : Bytes} (h : (startSeq f1007 p).truncated = true) :
    decodeFixed f1008 p = scalars (startSeq f1007 p).out ++
      [(.antennaSerialNumberLength, .scalar .absent), (.antennaSerialNumber, .scalar .absent)] ++
      ending true (startSeq f1007 p).reader.rem := by
  rw [decodeFixed, f1008, startSeq_append, if_pos h]
  simp [epilogue, rowFields_eq_scalars, scalars, ending, absentRow, fieldKeys]

theorem startSeq_f1008_of_read {p : Bytes} {row : Row} {r : Reader} (h : startSeq f1007 p = ⟨row, r, false⟩)
    {serial : Row} {r' : Reader} {truncated : Bool}
    (hserial : readField (.str .antennaSerialNumberLength .antennaSerialNumber) r = ⟨serial, r', truncated⟩) :
    startSeq f1008 p = ⟨row ++ serial, r', truncated⟩ := by
  rw [f1008, startSeq_append, h, if_neg (by simp)]
  cases truncated with
  | true => simp [decodeSeq_of_cut hserial, absentRow]
  | false => simp [decodeSeq_of_read hserial, decodeSeq_nil]

/-- What lies behind the setup id. -/
theorem drop_behind_setup (b0 b1 b2 n setup : Byte) (chars rest : Bytes) :
    (b0 :: b1 :: b2 :: n :: (chars ++ setup :: rest)).drop (3 + 1 + chars.length + 1) = rest := by
  rw [show 3 + 1 + chars.length + 1 = (chars.length + 1) + 4 by omega]
  simp

/-- Settles O50: behind a whole 1007 the serial number is whole, cut or not begun, and behind a truncated one it is
absent. -/
theorem antennaSerialReadsBothStrings : Obligations.AntennaSerialReadsBothStrings := by
  intro b0 b1 b2 n m setup chars serial rest s hs hn
  simp only [exec_antDescSerial hs, exec_antDesc hs]
  refine ⟨fun hm => ?_, fun hm => ?_, ?_, fun p record left h => ?_⟩
  · have hserial := readField_str_whole (drop_behind_setup b0 b1 b2 n setup chars (m :: (serial ++ rest))) hm
      .antennaSerialNumberLength .antennaSerialNumber
    have hstart := startSeq_f1008_of_read
      (startSeq_f1007_whole b0 b1 b2 n chars (m :: (serial ++ rest)) setup hn) hserial
    have hleft : 8 * (b0 :: b1 :: b2 :: n :: (chars ++ setup :: m :: (serial ++ rest))).length -
        8 * (3 + 1 + chars.length + 1 + 1 + serial.length) = 8 * rest.length := by
      simp only [List.length_cons, List.length_append]
      omega
    rw [decodeFixed_of_startSeq hstart, hleft]
    rfl
  · have hserial := readField_str_cut (drop_behind_setup b0 b1 b2 n setup chars (m :: rest)) hm
      .antennaSerialNumberLength .antennaSerialNumber
    have hstart := startSeq_f1008_of_read (startSeq_f1007_whole b0 b1 b2 n chars (m :: rest) setup hn) hserial
    have hleft : 8 * (b0 :: b1 :: b2 :: n :: (chars ++ setup :: m :: rest)).length -
        8 * (3 + 1 + chars.length + 1 + 1) = 8 * rest.length := by
      simp only [List.length_cons, List.length_append]
      omega
    rw [decodeFixed_of_startSeq hstart, hleft]
    rfl
  · have hserial := readField_str_at_end (b0 :: b1 :: b2 :: n :: (chars ++ [setup])) .antennaSerialNumberLength
      .antennaSerialNumber
    have hend : 8 * (b0 :: b1 :: b2 :: n :: (chars ++ [setup])).length = 8 * (3 + 1 + chars.length + 1) := by
      simp only [List.length_cons, List.length_append, List.length_nil]
      omega
    rw [hend] at hserial
    rw [decodeFixed_of_startSeq (startSeq_f1008_of_read (startSeq_f1007_whole b0 b1 b2 n chars [] setup hn) hserial),
      hend, Nat.sub_self]
    rfl
  · have hfixed : decodeFixed f1007 p = record ++ ending true left := by simpa [returned] using h
    have hrecord : scalars (startSeq f1007 p).out ++
        ending (startSeq f1007 p).truncated (startSeq f1007 p).reader.rem = record ++ ending true left := hfixed
    obtain ⟨hout, hending⟩ := List.append_inj' hrecord rfl
    obtain ⟨hcut, hleft⟩ : (startSeq f1007 p).truncated = true ∧ (startSeq f1007 p).reader.rem = left := by
      simpa [ending] using hending
    rw [decodeFixed_f1008_of_cut hcut, hout, hleft]

/-! ### The biases of 1230 -/

theorem biasRow_left_length (biases : List (Bool × Key)) (tail : Bytes) :
    (biasRow biases tail).2.1.length ≤ tail.length := by
  induction biases generalizing tail with
  | nil => exact le_rfl
  | cons bias biases ih =>
    obtain ⟨set, key⟩ := bias
    match set, tail with
    | false, tail => exact ih tail
    | true, [] => exact le_rfl
    | true, [_] => exact le_rfl
    | true, _ :: _ :: rest => exact (ih rest).trans (by simp only [List.length_cons]; omega)

/-- Two bytes read as a signed number (30_encoding.md R87, R95). -/
theorem numValue_two_bytes {p : Bytes} {a : Nat} {hi lo : Byte} {rest : Bytes} (h : p.drop a = hi :: lo :: rest) :
    numValue .s 16 (bitRead p (8 * a) 16) = .sint (signed 16 (hi.toNat * 256 + lo.toNat)) := by
  have hvalue : bitRead p (8 * a) (8 + 8) = hi.toNat * 256 + lo.toNat := by
    rw [bitRead_add, bitRead_of_drop h, show 8 * a + 8 = 8 * (a + 1) by ring, bitRead_of_drop (drop_succ_of_drop h)]
    rfl
  have hvalue : bitRead p (8 * a) 16 = hi.toNat * 256 + lo.toNat := hvalue
  have hnum := numValue_eq_numAt (kind := .s) (width := 16) (by simp) p (8 * a)
  rw [hnum, numAt, ← bitRead_eq_bitSum, hvalue]

/-- Everything a bias of two bytes at a byte boundary can do. -/
theorem readField_bias {p : Bytes} {a : Nat} {tail : Bytes} (h : p.drop a = tail) (ha : a ≤ p.length) (key : Key) :
    (tail.length < 2 ∧ readField (.s key 16) ⟨p, 8 * a⟩ = ⟨[(key, .absent)], ⟨p, 8 * a⟩, true⟩) ∨
    ∃ hi lo rest, tail = hi :: lo :: rest ∧ readField (.s key 16) ⟨p, 8 * a⟩ =
      ⟨[(key, .sint (signed 16 (hi.toNat * 256 + lo.toNat)))], ⟨p, 8 * (a + 1 + 1)⟩, false⟩ := by
  have hlen := length_of_drop h ha
  obtain ⟨hshort, hread⟩ | ⟨hfit, hread⟩ := readField_num .s key 16 ⟨p, 8 * a⟩
  · simp only [Reader.rem] at hshort
    exact .inl ⟨by omega, hread⟩
  · simp only [Reader.rem] at hfit
    match tail, h with
    | [], _ => simp only [List.length_nil] at hlen; omega
    | [_], _ => simp only [List.length_cons, List.length_nil] at hlen; omega
    | hi :: lo :: rest, h =>
      refine .inr ⟨hi, lo, rest, rfl, ?_⟩
      rw [hread, numValue_two_bytes h]
      rfl

/-- Where the next bias does not fit, the set bit and all that follow are absent. -/
theorem biasRow_of_short {tail : Bytes} (h : tail.length < 2) (key : Key) (more : List (Bool × Key)) :
    biasRow ((true, key) :: more) tail = ((key, .absent) :: more.map (fun m => (m.2, .absent)), tail, true) := by
  match tail, h with
  | [], _ => rfl
  | [_], _ => rfl

/-- Biases of two bytes each, read from a byte boundary (43_mux_fixed.md R192). -/
theorem readBiases_bytes (v : Nat) (biases : List (Nat × Key)) {p : Bytes} {a : Nat} {tail : Bytes}
    (h : p.drop a = tail) (ha : a ≤ p.length) :
    readBiases v (biases.map fun e => (e.1, .s e.2 16)) ⟨p, 8 * a⟩ =
      let found := biasRow (biases.map fun e => (v.testBit e.1, e.2)) tail
      ⟨found.1, ⟨p, 8 * (p.length - found.2.1.length)⟩, found.2.2⟩ := by
  induction biases generalizing a tail with
  | nil =>
    have hlen := length_of_drop h ha
    simp only [List.map_nil, readBiases, biasRow]
    rw [show p.length - tail.length = a by omega]
  | cons bias biases ih =>
    obtain ⟨bit, key⟩ := bias
    rw [List.map_cons, List.map_cons]
    obtain ⟨hclear, hbias⟩ | ⟨hset, hcut, hbias⟩ | ⟨hset, hgo, hbias⟩ :=
      readBiases_cons v bit (.s key 16) (biases.map fun e => (e.1, .s e.2 16)) ⟨p, 8 * a⟩
    · rw [hbias, ih h ha, hclear]
      rfl
    · obtain ⟨hshort, hread⟩ | ⟨hi, lo, rest, -, hread⟩ := readField_bias h ha key
      · have hlen := length_of_drop h ha
        have hkeys : layoutKeys ((biases.map fun e => (e.1, FieldSpec.s e.2 16)).map Prod.snd) =
            biases.map Prod.snd := by
          rw [List.map_map, layoutKeys, List.flatMap_map]
          exact List.map_eq_flatMap.symm
        rw [hbias, hread, hset, biasRow_of_short hshort, hkeys]
        simp only [show p.length - tail.length = a by omega]
        simp [absentRow]
      · simp [hread] at hcut
    · obtain ⟨-, hread⟩ | ⟨hi, lo, rest, rfl, hread⟩ := readField_bias h ha key
      · simp [hread] at hgo
      · have hlen := le_length_of_drop h
        rw [List.length_cons] at hlen
        have hrest := ih (drop_succ_of_drop (drop_succ_of_drop h)) (by omega)
        rw [hbias, hread, hset, hrest]
        rfl

/-- The header of 1230: byte 3 holds the indicator in its first bit and the mask in its last four
(30_encoding.md R95). -/
theorem startSeq_f1230 (b0 b1 b2 b3 : Byte) (tail : Bytes) :
    startSeq f1230 (b0 :: b1 :: b2 :: b3 :: tail) =
      ⟨[(.stationId, .uint (b1.toNat % 16 * 256 + b2.toNat)), (.codePhaseBiasIndicator, .bool (b3.getLsbD 7)),
        (.fdmaSignalsMask, .uint (b3.toNat % 16))], ⟨b0 :: b1 :: b2 :: b3 :: tail, 8 * 4⟩, false⟩ := by
  have hindicator : sbit (b0 :: b1 :: b2 :: b3 :: tail) 24 = b3.getLsbD 7 := by
    rw [show 24 = 8 + (8 + (8 + 0)) from rfl, sbit_cons_add, sbit_cons_add, sbit_cons_add]
    rfl
  have hmask : bitRead (b0 :: b1 :: b2 :: b3 :: tail) 28 4 = b3.toNat % 16 := by
    rw [show 28 = 8 + (8 + (8 + 4)) from rfl, bitRead_cons_add, bitRead_cons_add, bitRead_cons_add, bitRead_low_nibble]
  rw [f1230, startSeq_station, decodeSeq_of_fits (by decide) (by simp [fieldBits]; omega)]
  simp [rowAt, layoutPlaces, numAt, hindicator, ← bitRead_eq_bitSum, hmask, fieldBits]

/-- The biases of 1230 under the mask bits of byte 3, on the payload's rest (43_mux_fixed.md R192). -/
theorem readBiases_biases1230 (b0 b1 b2 b3 : Byte) (tail : Bytes) :
    readBiases (b3.toNat % 16) biases1230 ⟨b0 :: b1 :: b2 :: b3 :: tail, 8 * 4⟩ =
      let found := biasRow [(b3.getLsbD 3, .l1CaCodePhaseBias), (b3.getLsbD 2, .l1PCodePhaseBias),
        (b3.getLsbD 1, .l2CaCodePhaseBias), (b3.getLsbD 0, .l2PCodePhaseBias)] tail
      ⟨found.1, ⟨b0 :: b1 :: b2 :: b3 :: tail, 8 * ((b0 :: b1 :: b2 :: b3 :: tail).length - found.2.1.length)⟩,
        found.2.2⟩ := by
  have hbit (i : Nat) (hi : i < 4) : (b3.toNat % 16).testBit i = b3.getLsbD i := by
    rw [show 16 = 2 ^ 4 from rfl, Nat.testBit_mod_two_pow, decide_eq_true hi, Bool.true_and]
    rfl
  have hbiases := readBiases_bytes (b3.toNat % 16)
    [(3, .l1CaCodePhaseBias), (2, .l1PCodePhaseBias), (1, .l2CaCodePhaseBias), (0, .l2PCodePhaseBias)]
    (p := b0 :: b1 :: b2 :: b3 :: tail) (a := 4) (tail := tail) rfl (by simp)
  simpa only [List.map_cons, List.map_nil, hbit 3 (by decide), hbit 2 (by decide), hbit 1 (by decide),
    hbit 0 (by decide), biases1230] using hbiases

/-- Settles O51: the header's four bytes hold station, indicator and mask, and the biases follow at a byte boundary. -/
theorem gloBiasReadsTheMaskedBiases : Obligations.GloBiasReadsTheMaskedBiases := by
  intro b0 b1 b2 b3 tail s hs
  have hexec (p : Bytes) : exec (.gloBias p) s =
      .next (returned (.fields (decodeBias f1230 .fdmaSignalsMask biases1230 p)) s) :=
    exec_message_of_lookup (n := 1230) rfl (lookup_of_defaultTables hs rfl) p
  simp only [hexec]
  refine ⟨⟨_, _, _, rfl, ?_⟩, ?_, fun h => ?_⟩
  · have hrecord : decodeBias f1230 .fdmaSignalsMask biases1230 (b0 :: b1 :: b2 :: b3 :: tail) =
        let b := readBiases (b3.toNat % 16) biases1230 ⟨b0 :: b1 :: b2 :: b3 :: tail, 8 * 4⟩
        [(.stationId, .scalar (.uint (b1.toNat % 16 * 256 + b2.toNat))),
          (.codePhaseBiasIndicator, .scalar (.bool (b3.getLsbD 7))),
          (.fdmaSignalsMask, .scalar (.uint (b3.toNat % 16)))] ++ scalars b.out ++ ending b.truncated b.reader.rem := by
      rw [decodeBias, startSeq_f1230]
      rfl
    have hlen := biasRow_left_length [(b3.getLsbD 3, .l1CaCodePhaseBias), (b3.getLsbD 2, .l1PCodePhaseBias),
      (b3.getLsbD 1, .l2CaCodePhaseBias), (b3.getLsbD 0, .l2PCodePhaseBias)] tail
    have hleft (left : Bytes) (h : left.length ≤ tail.length) :
        8 * (b0 :: b1 :: b2 :: b3 :: tail).length - 8 * ((b0 :: b1 :: b2 :: b3 :: tail).length - left.length) =
          8 * left.length := by
      simp only [List.length_cons]
      omega
    rw [hrecord, readBiases_biases1230]
    simp only [Reader.rem, hleft _ hlen]
  · have hcut : readField (.b .codePhaseBiasIndicator) ⟨[b0, b1, b2], 8 * 3⟩ =
        ⟨[(.codePhaseBiasIndicator, .absent)], ⟨[b0, b1, b2], 8 * 3⟩, true⟩ := rfl
    rw [decodeBias, f1230, startSeq_station, decodeSeq_of_cut hcut]
    rfl
  · match tail, h with
    | [], _ => rfl
    | [_], _ => rfl
    | [_, _], _ => rfl

/-! ### Numbers with one last digit -/

theorem decodeMsm_congr {type type' : Nat} (h : type % 10 = type' % 10) (order : MsmOrder) (L : MsmLayout)
    (p : Bytes) : decodeMsm order L type p = decodeMsm order L type' p := by
  rw [decodeMsm, decodeMsm, h]

theorem lookup_of_mem_msmTable {e : Nat × (Bytes → Instr)} (h : e ∈ msmTable) : registered.lookup e.1 = some .msm := by
  have hall : ∀ e ∈ msmTable, registered.lookup e.1 = some .msm := by decide
  exact hall e h

theorem exec_of_mem_msmTable {e : Nat × (Bytes → Instr)} (h : e ∈ msmTable) {s : State} (hs : DefaultTables s)
    (p : Bytes) : exec (e.2 p) s = .next (returned (.fields (decodeMsm s.params.msmOrder msmLayout e.1 p)) s) := by
  have hn := messageInstr_of_mem_messageTable (List.mem_append_right fixedTable h)
  rw [exec_message_of_lookup hn (lookup_of_defaultTables hs (lookup_of_mem_msmTable h)), runDecoder, hs.2]

/-- Settles O59: the MSM decoder sees the last digit of the number alone. -/
theorem msmConstellationIsNotDecoded : Obligations.MsmConstellationIsNotDecoded := by
  intro e he g hg hdigit p s hs
  rw [exec_of_mem_msmTable he hs, exec_of_mem_msmTable hg hs, decodeMsm_congr hdigit]

end Sys2Proof.Machine

/-! PROOF. The header and the masks of a multi-signal message, for every payload: what stands in the record before the
data blocks, and where the data begins (44_msm.md R231 to R234, R240, R241). -/

namespace Sys2Proof.Machine

open Sys2Proof.Reference

/-! ### Masks -/

/-- Bit `j` of a number read from a stream is the stream bit `j` places before the last one read. -/
theorem bitRead_testBit (B : Bytes) (k : Nat) {n j : Nat} (h : j < n) :
    (bitRead B k n).testBit j = sbit B (k + (n - 1 - j)) := by
  induction n generalizing j with
  | zero => omega
  | succ n ih =>
    have hstep : bitRead B k (n + 1) = Nat.bit (sbit B (k + n)) (bitRead B k n) := by
      rw [bitRead_succ, Nat.bit_val]
    rw [hstep]
    cases j with
    | zero => exact Nat.testBit_bit_zero _ _
    | succ j =>
      rw [Nat.testBit_bit_succ, ih (by omega)]
      congr 2
      omega

/-- The identifiers of a mask are the places of its set bits, counted from 1 (44_msm.md R232, R233). -/
theorem maskIds_bitRead (p : Bytes) (k width : Nat) :
    maskIds width (bitRead p (k + 1) width) = (List.range' 1 width).filter fun i => sbit p (k + i) := by
  refine List.filter_congr fun i hi => ?_
  have hrange := List.mem_range'_1.mp hi
  rw [bitRead_testBit p (k + 1) (by omega)]
  congr 1
  omega

theorem readActive_append (xs ys : List (Nat × Nat)) (p : Bytes) (k : Nat) :
    (readActive (xs ++ ys) ⟨p, k⟩).1 = (readActive xs ⟨p, k⟩).1 ++ (readActive ys ⟨p, k + xs.length⟩).1 := by
  induction xs generalizing k with
  | nil => rfl
  | cons pair xs ih =>
    have htail := ih (k + 1)
    have hend : k + 1 + xs.length = k + (pair :: xs).length := by
      rw [List.length_cons]
      omega
    rw [hend] at htail
    simp only [List.cons_append, readActive, Reader.take, htail]
    by_cases hset : bitRead p k 1 = 1
    · simp only [hset, if_true, List.cons_append]
    · simp only [hset, if_false]

/-- The cell mask bits of one satellite, from the mask bit `o` of that satellite on. -/
theorem readActive_satellite (p : Bytes) (k s : Nat) (sigs : List Nat) (o : Nat) :
    (readActive (sigs.map fun g => (s, g)) ⟨p, k + o⟩).1 =
      ((sigs.mapIdx fun b g => (b + o, g)).filter fun c => sbit p (k + c.1)).map fun c => (s, c.2) := by
  induction sigs generalizing o with
  | nil => rfl
  | cons g sigs ih =>
    have htail := ih (o + 1)
    have hbit : bitRead p (k + o) 1 = 1 ↔ sbit p (k + o) = true := by
      rw [bitRead_one]
      cases sbit p (k + o) <;> simp
    have hidx (b : Nat) : b + 1 + o = b + (o + 1) := by omega
    rw [← Nat.add_assoc] at htail
    simp only [List.map_cons, readActive, Reader.take, htail, List.mapIdx_cons, Nat.zero_add, List.filter_cons, hbit,
      hidx]
    split <;> rfl

/-- The cell mask in satellite order, from the mask row of satellite `o` on (44_msm.md R234). -/
theorem readActive_cellPairs (p : Bytes) (k : Nat) (sats sigs : List Nat) (o : Nat) :
    (readActive (cellPairs sats sigs) ⟨p, k + o * sigs.length⟩).1 =
      (sats.mapIdx fun a s =>
        ((sigs.mapIdx fun b g => (b, g)).filter fun c => sbit p (k + (a + o) * sigs.length + c.1)).map
          fun c => (s, c.2)).flatten := by
  induction sats generalizing o with
  | nil => rfl
  | cons s sats ih =>
    have hhead := readActive_satellite p (k + o * sigs.length) s sigs 0
    have htail := ih (o + 1)
    have hidx (a : Nat) : a + 1 + o = a + (o + 1) := by omega
    have hrow : k + o * sigs.length + (sigs.map fun g => (s, g)).length = k + (o + 1) * sigs.length := by
      rw [List.length_map, Nat.succ_mul, Nat.add_assoc]
    have hpairs : cellPairs (s :: sats) sigs = (sigs.map fun g => (s, g)) ++ cellPairs sats sigs := rfl
    rw [hpairs, readActive_append, hrow, htail, List.mapIdx_cons, List.flatten_cons]
    simp only [Nat.add_zero, Nat.zero_add, hidx] at hhead ⊢
    rw [hhead]

theorem readActive_eq_activeCells (p : Bytes) :
    (readActive (cellPairs (satIds p) (sigIds p)) ⟨p, 169⟩).1 = activeCells p := by
  have hcells := readActive_cellPairs p 169 (satIds p) (sigIds p) 0
  rw [Nat.zero_mul] at hcells
  simp only [Nat.add_zero] at hcells
  exact hcells

theorem le_dataStart (p : Bytes) : 169 ≤ dataStart p := Nat.le_add_right _ _

/-- The masks that a payload holds whole (44_msm.md R240). -/
def foundMasks (p : Bytes) : MsmMasks :=
  { sats := if 8 * p.length < 137 then none else some (satIds p)
    sigs := if 8 * p.length < 169 then none else some (sigIds p)
    active := if 8 * p.length < 169 ∨ 8 * p.length < dataStart p then none else some (activeCells p) }

/-! ### Where the head ends -/

theorem lastFit_cons (size m : Nat) (marks : List Nat) :
    lastFit size (m :: marks) = if m ≤ size then max m (lastFit size marks) else lastFit size marks := by
  rw [show m :: marks = [m] ++ marks from rfl, lastFit_append]
  split
  · next hm => rw [lastFit_singleton hm]
  · next hm => rw [lastFit_of_lt (by simpa using hm), Nat.zero_max]

theorem msmMarks_eq : msmMarks = 0 :: 12 :: layoutMarks 12 hMsm := by decide

theorem lastFit_msmMarks (size : Nat) : lastFit size msmMarks = lastFit size (12 :: layoutMarks 12 hMsm) := by
  rw [msmMarks_eq, lastFit_cons, if_pos (Nat.zero_le size), Nat.zero_max]

theorem lastFit_msmMarks_of_fits {size : Nat} (h : 73 ≤ size) : lastFit size msmMarks = 73 := by
  rw [lastFit_msmMarks]
  exact lastFit_layoutMarks (layout := hMsm) h

/-- Where reading stops in the head: in the header, or behind it, behind a mask or behind the cell mask
(44_msm.md R240). -/
theorem lastFit_headMarks (size : Nat) (p : Bytes) :
    lastFit size (headMarks p) =
      if size < 73 then lastFit size msmMarks
      else if size < 137 then 73
      else if size < 169 then 137
      else if size < dataStart p then 169
      else dataStart p := by
  have hstart := le_dataStart p
  rw [headMarks, lastFit_append]
  split
  · next h => rw [lastFit_of_lt (marks := [137, 169, dataStart p]) (by simp; omega), Nat.max_zero]
  · next h =>
    rw [lastFit_msmMarks_of_fits (by omega)]
    simp only [lastFit_cons, lastFit_nil]
    repeat' split
    all_goals omega

theorem lastFit_headMarks_of_fits {size : Nat} {p : Bytes} (h : dataStart p ≤ size) :
    lastFit size (headMarks p) = dataStart p := by
  have h169 := le_dataStart p
  rw [lastFit_headMarks, if_neg (by omega), if_neg (by omega), if_neg (by omega), if_neg (by omega)]

/-- The masks behind the header: what is found, where reading stops, and whether the cell mask was reached
(44_msm.md R232 to R234, R240). -/
theorem readMasks_eq {p : Bytes} (h : 73 ≤ 8 * p.length) :
    readMasks ⟨p, 73⟩ =
      ⟨foundMasks p, ⟨p, lastFit (8 * p.length) (headMarks p)⟩, decide (8 * p.length < dataStart p)⟩ := by
  have hstart := le_dataStart p
  have hsats : maskIds 64 (bitRead p 73 64) = satIds p := maskIds_bitRead p 72 64
  have hsigs : maskIds 32 (bitRead p 137 32) = sigIds p := maskIds_bitRead p 136 32
  have h73 : ¬ 8 * p.length < 73 := by omega
  rw [lastFit_headMarks, if_neg h73]
  obtain ⟨hshort, hmask⟩ | ⟨hfit, hmask⟩ := readMask_cases 64 ⟨p, 73⟩
  · simp only [Reader.rem] at hshort
    have h137 : 8 * p.length < 137 := by omega
    have h169 : 8 * p.length < 169 := by omega
    simp [readMasks, hmask, foundMasks, h137, h169, h169.trans_le hstart]
  · simp only [Reader.rem] at hfit
    have h137 : ¬ 8 * p.length < 137 := by omega
    obtain ⟨hshort, hmask'⟩ | ⟨hfit', hmask'⟩ := readMask_cases 32 ⟨p, 137⟩
    · simp only [Reader.rem] at hshort
      have h169 : 8 * p.length < 169 := by omega
      simp [readMasks, hmask, Reader.take, hmask', hsats, foundMasks, h137, h169, h169.trans_le hstart]
    · simp only [Reader.rem] at hfit'
      have h169 : ¬ 8 * p.length < 169 := by omega
      have hdata : 169 + (satIds p).length * (sigIds p).length = dataStart p := rfl
      have hcells := readCellMask_cases (satIds p) (sigIds p) ⟨p, 169⟩
      simp only [Reader.rem, readActive_eq_activeCells] at hcells
      obtain ⟨hshort, hmask''⟩ | ⟨hfit'', hmask''⟩ := hcells
      · have hcut : 8 * p.length < dataStart p := by
          unfold dataStart
          omega
        simp [readMasks, hmask, Reader.take, hmask', hmask'', hsats, hsigs, foundMasks, h137, h169, hcut]
      · have hwhole : ¬ 8 * p.length < dataStart p := by
          unfold dataStart
          omega
        simp [readMasks, hmask, Reader.take, hmask', hmask'', hsats, hsigs, foundMasks, h137, h169, hwhole, hdata]

/-! ### The record before its data -/

/-- The data blocks of a payload: not reached, or read from where the data begins. -/
def msmData (order : MsmOrder) (k : Nat) (p : Bytes) : Partial (List Row × List Row) :=
  if 8 * p.length < dataStart p then ⟨([], []), ⟨p, lastFit (8 * p.length) (headMarks p)⟩, true⟩
  else readData order msmLayout k (satIds p) (activeCells p) ⟨p, dataStart p⟩

theorem msmData_of_lt {p : Bytes} (h : 8 * p.length < dataStart p) (order : MsmOrder) (k : Nat) :
    msmData order k p = ⟨([], []), ⟨p, lastFit (8 * p.length) (headMarks p)⟩, true⟩ := if_pos h

theorem msmData_of_le {p : Bytes} (h : dataStart p ≤ 8 * p.length) (order : MsmOrder) (k : Nat) :
    msmData order k p = readData order msmLayout k (satIds p) (activeCells p) ⟨p, dataStart p⟩ :=
  if_neg (Nat.not_lt.mpr h)

theorem idsValue_ite (c : Prop) [Decidable c] (ids : List Nat) :
    idsValue (if c then none else some ids) = if c then .scalar .absent else .ulist ids := by
  split <;> rfl

theorem cellsValue_ite (c : Prop) [Decidable c] (cells : List (Nat × Nat)) :
    cellsValue (if c then none else some cells) = if c then .scalar .absent else .list (cells.map cellRowId) := by
  split <;> rfl

/-- An MSM record is its head, its two data blocks and the ending, for every payload (44_msm.md R241, R243). -/
theorem decodeMsm_eq (order : MsmOrder) (type : Nat) (p : Bytes) :
    decodeMsm order msmLayout type p =
      msmHead (type % 10) p ++
        [(.satellites, .list (msmData order (type % 10) p).out.1), (.cells, .list (msmData order (type % 10) p).out.2)] ++
        ending (msmData order (type % 10) p).truncated (msmData order (type % 10) p).reader.rem := by
  have hstart := le_dataStart p
  have hhead : msmHead (type % 10) p = (.msmType, .scalar (.uint (type % 10))) :: rowFields (fittingRow p msmHeader) ++
      [(.satelliteIds, idsValue (foundMasks p).sats), (.signalIds, idsValue (foundMasks p).sigs),
       (.activeCells, cellsValue (foundMasks p).active)] := by
    simp only [foundMasks, idsValue_ite, cellsValue_ite]
    rfl
  have hheader : startSeq msmLayout.header p =
      ⟨fittingRow p msmHeader, ⟨p, lastFit (8 * p.length) msmMarks⟩, decide (8 * p.length < 73)⟩ := by
    rw [lastFit_msmMarks]
    exact startSeq_eq (layout := hMsm) (by decide) p
  rw [decodeMsm, hheader, hhead]
  by_cases h73 : 8 * p.length < 73
  · have hcut : 8 * p.length < dataStart p := by omega
    have h137 : 8 * p.length < 137 := by omega
    have h169 : 8 * p.length < 169 := by omega
    simp [h73, msmData, hcut, foundMasks, h137, h169, lastFit_headMarks, epilogue_eq, Reader.rem]
  · have hread : lastFit (8 * p.length) msmMarks = 73 := lastFit_msmMarks_of_fits (by omega)
    simp only [h73, decide_false, Bool.false_eq_true, if_false, hread, readMasks_eq (Nat.le_of_not_lt h73)]
    by_cases hcut : 8 * p.length < dataStart p
    · simp [hcut, msmData, epilogue_eq, Reader.rem]
    · have h137 : ¬ 8 * p.length < 137 := by omega
      have h169 : ¬ 8 * p.length < 169 := by omega
      have hread := lastFit_headMarks_of_fits (Nat.le_of_not_lt hcut)
      simp [hcut, msmData, hread, foundMasks, h137, h169, epilogue, ending]

end Sys2Proof.Machine

/-! PROOF. The data blocks of a multi-signal message in both orders, for every payload and any list of fields: row by
row, and field by field (44_msm.md R235, R236, R238, R239). -/

namespace Sys2Proof.Machine

open Sys2Proof.Reference

/-! ### The fields of a row -/

/-- The fields that have bits for a type (44_msm.md R239). -/
def presentFields (k : Nat) : List MsmField → List (Key × NumKind × Nat)
  | [] => []
  | f :: fs => if msmWidth f k = 0 then presentFields k fs else (f.key, f.kind, msmWidth f k) :: presentFields k fs

/-- A row's values: a field without bits is absent, another has the value `g` gives its place in a row that begins at
bit `o` (44_msm.md R237, R239). -/
def rowValues (g : Placed → Scalar) (k : Nat) : Nat → List MsmField → Row
  | _, [] => []
  | o, f :: fs =>
    (f.key, if msmWidth f k = 0 then .absent else g ⟨f.key, f.kind, o, msmWidth f k⟩) ::
      rowValues g k (o + msmWidth f k) fs

/-- A row's values found by their keys. -/
def keyedValues (keys : List Key) (fs : List Placed) (g : Placed → Scalar) : Row :=
  keys.map fun key => (key, match fs.find? (fun f => f.key == key) with
    | some f => g f
    | none => .absent)

theorem keyedRow_eq_keyedValues (p : Bytes) (keys : List Key) (fs : List Placed) (at' : Placed → Nat) :
    keyedRow p keys fs at' = keyedValues keys fs fun f => numAt f.kind p (at' f) f.width := rfl

theorem fittingKeyedRow_eq_keyedValues (p : Bytes) (keys : List Key) (fs : List Placed) (at' : Placed → Nat) :
    fittingKeyedRow p keys fs at' = keyedValues keys fs fun f =>
      if at' f + f.width ≤ 8 * p.length then numAt f.kind p (at' f) f.width else .absent := rfl

theorem presentFields_of_zero {k : Nat} {f : MsmField} (h : msmWidth f k = 0) (fs : List MsmField) :
    presentFields k (f :: fs) = presentFields k fs := if_pos h

theorem presentFields_of_pos {k : Nat} {f : MsmField} (h : 0 < msmWidth f k) (fs : List MsmField) :
    presentFields k (f :: fs) = (f.key, f.kind, msmWidth f k) :: presentFields k fs := if_neg h.ne'

theorem bitsOf_presentFields (k : Nat) (fields : List MsmField) :
    bitsOf (presentFields k fields) = rowWidth fields k := by
  induction fields with
  | nil => rfl
  | cons f fs ih =>
    rw [rowWidth_cons, ← ih]
    obtain h | h := Nat.eq_zero_or_pos (msmWidth f k)
    · rw [presentFields_of_zero h, h, Nat.zero_add]
    · rw [presentFields_of_pos h]
      simp [bitsOf]

theorem find?_place_presentFields {k : Nat} {fields : List MsmField} {key : Key} (h : key ∉ fields.map MsmField.key)
    (o : Nat) : (place o (presentFields k fields)).find? (fun f => f.key == key) = none := by
  induction fields generalizing o with
  | nil => rfl
  | cons f fs ih =>
    simp only [List.map_cons, List.mem_cons, not_or] at h
    obtain hw | hw := Nat.eq_zero_or_pos (msmWidth f k)
    · rw [presentFields_of_zero hw]
      exact ih h.2 o
    · rw [presentFields_of_pos hw, place, List.find?_cons_of_neg (by simpa using Ne.symm h.1)]
      exact ih h.2 _

theorem keyedValues_cons_of_not_mem {keys : List Key} {f : Placed} (h : f.key ∉ keys) (fs : List Placed)
    (g : Placed → Scalar) : keyedValues keys (f :: fs) g = keyedValues keys fs g := by
  refine List.map_congr_left fun key hkey => ?_
  have hne : ¬ f.key = key := fun he => h (he ▸ hkey)
  rw [List.find?_cons_of_neg (by simpa using hne)]

/-- Fields of distinct names are found under their names (44_msm.md R237, R239). -/
theorem keyedValues_presentFields (g : Placed → Scalar) (k : Nat) {fields : List MsmField}
    (hkeys : (fields.map MsmField.key).Nodup) (o : Nat) :
    keyedValues (fields.map MsmField.key) (place o (presentFields k fields)) g = rowValues g k o fields := by
  induction fields generalizing o with
  | nil => rfl
  | cons f fs ih =>
    obtain ⟨hnew, hrest⟩ := List.nodup_cons.mp hkeys
    obtain hw | hw := Nat.eq_zero_or_pos (msmWidth f k)
    · have htail := ih hrest o
      rw [presentFields_of_zero hw, rowValues, if_pos hw, hw, Nat.add_zero, ← htail, List.map_cons, keyedValues,
        List.map_cons, find?_place_presentFields hnew]
      rfl
    · have htail := ih hrest (o + msmWidth f k)
      rw [← keyedValues_cons_of_not_mem (f := ⟨f.key, f.kind, o, msmWidth f k⟩) hnew] at htail
      rw [presentFields_of_pos hw, rowValues, if_neg hw.ne', ← htail, List.map_cons, place, keyedValues,
        List.map_cons, List.find?_cons_of_pos (by simp)]
      rfl

theorem rowValues_congr {g g' : Placed → Scalar} {k o : Nat} {fields : List MsmField}
    (h : ∀ f ∈ place o (presentFields k fields), g f = g' f) :
    rowValues g k o fields = rowValues g' k o fields := by
  induction fields generalizing o with
  | nil => rfl
  | cons f fs ih =>
    obtain hw | hw := Nat.eq_zero_or_pos (msmWidth f k)
    · rw [presentFields_of_zero hw] at h
      simp only [rowValues, hw, if_true, Nat.add_zero]
      rw [ih h]
    · rw [presentFields_of_pos hw, place] at h
      rw [rowValues, rowValues, h _ List.mem_cons_self, ih fun f hf => h f (List.mem_cons_of_mem _ hf)]

/-- A row none of whose fields has a value. -/
theorem rowValues_absent (k o : Nat) (fields : List MsmField) :
    rowValues (fun _ => .absent) k o fields = absentRow (fields.map MsmField.key) := by
  induction fields generalizing o with
  | nil => rfl
  | cons f fs ih =>
    rw [rowValues, ite_self, ih]
    rfl

/-- The present fields of a row lie within its width. -/
theorem bounds_of_mem_place {fs : List (Key × NumKind × Nat)} {o : Nat} {f : Placed} (h : f ∈ place o fs) :
    o ≤ f.start ∧ f.start + f.width ≤ o + bitsOf fs := by
  rw [← layoutPlaces_numericLayout] at h
  rw [← layoutWidth_numericLayout]
  exact bounds_of_mem_layoutPlaces h

/-! ### Row by row -/

/-- A field that is a boolean has at most one bit (30_encoding.md R101). -/
def BoolBits (f : MsmField) : Prop := f.kind = .b → ∀ k, msmWidth f k = 0 ∨ msmWidth f k = 1

theorem numValue_msm {f : MsmField} (hf : BoolBits f) {k : Nat} (hw : 0 < msmWidth f k) (p : Bytes) (b : Nat) :
    numValue f.kind (msmWidth f k) (bitRead p b (msmWidth f k)) = numAt f.kind p b (msmWidth f k) :=
  numValue_eq_numAt (fun hb => (hf hb k).resolve_left hw.ne') p b

/-- A row's values lie one after the other (44_msm.md R236). -/
theorem readMsmRow_eq (k : Nat) {fields : List MsmField} (hbool : ∀ f ∈ fields, BoolBits f) (p : Bytes) (b o : Nat) :
    (readMsmRow k fields ⟨p, b + o⟩).1 = rowValues (fun f => numAt f.kind p (b + f.start) f.width) k o fields := by
  induction fields generalizing o with
  | nil => rfl
  | cons f fs ih =>
    have htail := ih (fun g hg => hbool g (List.mem_cons_of_mem f hg)) (o + msmWidth f k)
    obtain hw | hw := Nat.eq_zero_or_pos (msmWidth f k)
    · rw [hw] at htail
      simp only [readMsmRow, rowValues, hw, if_true]
      rw [← htail]
      rfl
    · rw [← Nat.add_assoc] at htail
      simp only [readMsmRow, rowValues, hw.ne', if_false, readNum, Reader.take,
        numValue_msm (hbool f List.mem_cons_self) hw]
      rw [htail]

/-- As many rows as fit are read whole, one after the other (44_msm.md R236). -/
theorem readMsmRows_eq (k : Nat) {fields : List MsmField} (hbool : ∀ f ∈ fields, BoolBits f)
    (hW : 0 < rowWidth fields k) (ids : List Row) {p : Bytes} {b : Nat} (hb : b ≤ 8 * p.length) :
    readMsmRows k fields ids ⟨p, b⟩ =
      ⟨(ids.take (min ids.length ((8 * p.length - b) / rowWidth fields k))).mapIdx fun a id =>
          id ++ rowValues (fun f => numAt f.kind p (b + a * rowWidth fields k + f.start) f.width) k 0 fields,
        ⟨p, b + min ids.length ((8 * p.length - b) / rowWidth fields k) * rowWidth fields k⟩,
        decide (8 * p.length < b + ids.length * rowWidth fields k)⟩ := by
  induction ids generalizing b with
  | nil => simp [readMsmRows, hb]
  | cons id ids ih =>
    obtain ⟨hshort, hrows⟩ | ⟨hfit, hrows⟩ := readMsmRows_cons k fields id ids ⟨p, b⟩
    · simp only [Reader.rem] at hshort
      rw [hrows, Nat.div_eq_of_lt hshort, decide_eq_true (by rw [List.length_cons, Nat.succ_mul ids.length]; omega)]
      simp
    · have hend : b + rowWidth fields k ≤ 8 * p.length := by
        simp only [Reader.rem] at hfit
        omega
      have hnext (a : Nat) : b + rowWidth fields k + a * rowWidth fields k = b + (a + 1) * rowWidth fields k := by
        rw [Nat.succ_mul a]
        omega
      have hrow := readMsmRow_eq k hbool p b 0
      rw [Nat.add_zero] at hrow
      rw [hrows, hrow, ih hend, rows_div_succ hW hend, List.length_cons, Nat.add_min_add_right, List.take_succ_cons,
        List.mapIdx_cons]
      simp only [hnext, Nat.zero_mul, Nat.add_zero]

/-- Rows without bits are all there, with every field absent (44_msm.md R239, R242). -/
theorem readMsmRows_of_no_bits {k : Nat} {fields : List MsmField} (h : ∀ f ∈ fields, msmWidth f k = 0)
    (ids : List Row) (r : Reader) :
    readMsmRows k fields ids r = ⟨ids.map fun id => id ++ absentRow (fields.map MsmField.key), r, false⟩ := by
  have hW : rowWidth fields k = 0 := List.sum_eq_zero fun w hw => by
    obtain ⟨f, hf, rfl⟩ := List.mem_map.mp hw
    exact h f hf
  have hrow : (readMsmRow k fields r).1 = absentRow (fields.map MsmField.key) := by
    clear hW
    induction fields with
    | nil => rfl
    | cons f fs ih =>
      simp only [readMsmRow, h f List.mem_cons_self, if_true, ih fun g hg => h g (List.mem_cons_of_mem f hg)]
      rfl
  induction ids with
  | nil => rfl
  | cons id ids ih =>
    obtain ⟨hshort, -⟩ | ⟨-, hrows⟩ := readMsmRows_cons k fields id ids r
    · omega
    · have hsame : ({ r with pos := r.pos + rowWidth fields k } : Reader) = r := by rw [hW, Nat.add_zero]
      rw [hrows, hsame, ih, hrow]
      rfl

/-! ### Field by field -/

/-- The ends of the values of one column. -/
def columnEnds (b width count : Nat) : List Nat := (List.range count).map fun a => b + (a + 1) * width

theorem columnEnds_succ (b width count : Nat) :
    columnEnds b width (count + 1) = (b + width) :: columnEnds (b + width) width count := by
  rw [columnEnds, List.range_succ_eq_map, List.map_cons, List.map_map, Nat.zero_add, Nat.one_mul, columnEnds]
  congr 1
  refine List.map_congr_left fun a _ => ?_
  simp only [Function.comp_apply, Nat.succ_eq_add_one, Nat.succ_mul (a + 1)]
  omega

theorem lt_of_mem_columnEnds {b width count m : Nat} (h : m ∈ columnEnds b width count) : b + width ≤ m := by
  obtain ⟨a, -, rfl⟩ := List.mem_map.mp h
  rw [Nat.succ_mul a]
  omega

/-- Reading a column stops behind the last value that fits. -/
theorem lastFit_columnEnds {size b width : Nat} (hw : 0 < width) (count : Nat) (hb : b ≤ size) :
    lastFit size (b :: columnEnds b width count) = b + min count ((size - b) / width) * width := by
  induction count generalizing b with
  | zero => simp [columnEnds, lastFit_singleton hb]
  | succ count ih =>
    by_cases hfit : b + width ≤ size
    · rw [columnEnds_succ, lastFit_cons_cons _ (Nat.le_add_right b width) hfit, ih hfit, rows_div_succ hw hfit,
        Nat.add_min_add_right, Nat.succ_mul (min _ _)]
      omega
    · have hbeyond : ∀ m ∈ columnEnds b width (count + 1), size < m := fun m hm => by
        have := lt_of_mem_columnEnds hm
        omega
      rw [lastFit_cons_of_lt hb hbeyond, Nat.div_eq_of_lt (by omega), Nat.min_zero, Nat.zero_mul, Nat.add_zero]

/-- A column that fits is read to its end. -/
theorem lastFit_columnEnds_of_fits {size b width count : Nat} (h : b + count * width ≤ size) :
    lastFit size (b :: columnEnds b width count) = b + count * width := by
  obtain rfl | hw := Nat.eq_zero_or_pos width
  · induction count with
    | zero => simpa [columnEnds] using lastFit_singleton h
    | succ count ih =>
      rw [columnEnds_succ, lastFit_cons_cons _ (Nat.le_add_right b 0) (by omega)]
      exact ih h
  · have hcount : count ≤ (size - b) / width := (Nat.le_div_iff_mul_le hw).mpr (by omega)
    rw [lastFit_columnEnds hw count (by omega), Nat.min_eq_left hcount]

theorem valueEnds_cons (base count : Nat) (f : Placed) (fs : List Placed) :
    valueEnds base count (f :: fs) = columnEnds (base + count * f.start) f.width count ++ valueEnds base count fs := rfl

/-- A field-major block that fits is read to its end. -/
theorem lastFit_valueEnds_of_fits {size base count : Nat} (fs : List (Key × NumKind × Nat)) {o : Nat}
    (h : base + count * (o + bitsOf fs) ≤ size) :
    lastFit size ((base + count * o) :: valueEnds base count (place o fs)) = base + count * (o + bitsOf fs) := by
  induction fs generalizing o with
  | nil => exact lastFit_singleton h
  | cons f fs ih =>
    obtain ⟨key, kind, width⟩ := f
    have hbits : o + bitsOf ((key, kind, width) :: fs) = o + width + bitsOf fs := by
      simp [bitsOf, Nat.add_assoc]
    have hcolumn : base + count * o + count * width = base + count * (o + width) := by ring
    rw [hbits] at h ⊢
    have hle : base + count * (o + width) ≤ size :=
      (Nat.add_le_add_left (Nat.mul_le_mul_left count (Nat.le_add_right _ _)) base).trans h
    rw [place, valueEnds_cons, ← List.cons_append, lastFit_append, lastFit_columnEnds_of_fits (by rw [hcolumn]; exact hle),
      hcolumn, ← lastFit_singleton hle, ← lastFit_append, List.singleton_append, ih h]

theorem lt_of_mem_valueEnds {base count o size : Nat} {fs : List (Key × NumKind × Nat)} {m : Nat}
    (h : size < base + count * o) (hm : m ∈ valueEnds base count (place o fs)) : size < m := by
  obtain ⟨f, hf, hm⟩ := List.mem_flatMap.mp hm
  have hstart := (bounds_of_mem_place hf).1
  have hle : count * o ≤ count * f.start := Nat.mul_le_mul_left count hstart
  have := lt_of_mem_columnEnds (b := base + count * f.start) (width := f.width) (count := count) hm
  omega

/-- The columns of a block: a field without bits is absent in every row, another has in row `a` the value `g a` gives
its place. -/
def columnValues (g : Nat → Placed → Scalar) (k count : Nat) : Nat → List MsmField → List (Key × List Scalar)
  | _, [] => []
  | o, f :: fs =>
    (f.key, (List.range count).map fun a =>
      if msmWidth f k = 0 then .absent else g a ⟨f.key, f.kind, o, msmWidth f k⟩) ::
      columnValues g k count (o + msmWidth f k) fs

/-- The value of a field in row `a` of a field-major block of `count` rows that begins at stream bit `base`, absent
where it does not fit (44_msm.md R238). -/
def columnAt (p : Bytes) (base count a : Nat) (f : Placed) : Scalar :=
  if base + count * f.start + a * f.width + f.width ≤ 8 * p.length then
    numAt f.kind p (base + count * f.start + a * f.width) f.width
  else .absent

theorem columnValues_of_lt {p : Bytes} {base count o : Nat} (k : Nat) (fields : List MsmField)
    (h : 8 * p.length < base + count * o) :
    columnValues (columnAt p base count) k count o fields =
      fields.map fun f => (f.key, List.replicate count .absent) := by
  induction fields generalizing o with
  | nil => rfl
  | cons f fs ih =>
    have hnext : 8 * p.length < base + count * (o + msmWidth f k) :=
      h.trans_le (Nat.add_le_add_left (Nat.mul_le_mul_left count (Nat.le_add_right _ _)) base)
    have hbeyond (a : Nat) : ¬ base + count * o + a * msmWidth f k + msmWidth f k ≤ 8 * p.length := by omega
    rw [columnValues, ih hnext]
    simp [columnAt, hbeyond, List.map_const']

/-- A column of values of non-zero width, each from its place (44_msm.md R238). -/
theorem readColumn_at {f : MsmField} (hf : BoolBits f) {k : Nat} (hw : 0 < msmWidth f k) {p : Bytes}
    {base count o : Nat} (hb : base + count * o ≤ 8 * p.length) :
    readColumn f.kind (msmWidth f k) count ⟨p, base + count * o⟩ =
      ⟨(List.range count).map fun a =>
          if msmWidth f k = 0 then .absent else columnAt p base count a ⟨f.key, f.kind, o, msmWidth f k⟩,
        ⟨p, lastFit (8 * p.length) ((base + count * o) :: columnEnds (base + count * o) (msmWidth f k) count)⟩,
        decide (8 * p.length < base + count * (o + msmWidth f k))⟩ := by
  have hend : base + count * (o + msmWidth f k) = base + count * o + count * msmWidth f k := by ring
  have hfits (a : Nat) : (a + 1) * msmWidth f k ≤ 8 * p.length - (base + count * o) ↔
      base + count * o + a * msmWidth f k + msmWidth f k ≤ 8 * p.length := by
    rw [Nat.succ_mul a]
    omega
  rw [readColumn_eq f.kind hw, lastFit_columnEnds hw count hb, hend]
  simp only [Reader.rem, hfits, numValue_msm hf hw, hw.ne', if_false, columnAt]
  congr 1
  exact decide_eq_decide.mpr (by omega)

/-- Everything that the columns of a block record: all values of one field, then all values of the next, those that do
not fit absent; reading stops behind the last value that fits (44_msm.md R238, R239). -/
theorem readColumns_eq (k count : Nat) {fields : List MsmField} (hbool : ∀ f ∈ fields, BoolBits f) {p : Bytes}
    {base o : Nat} (hb : base + count * o ≤ 8 * p.length) :
    readColumns k count fields ⟨p, base + count * o⟩ =
      ⟨columnValues (columnAt p base count) k count o fields,
        ⟨p, lastFit (8 * p.length)
          ((base + count * o) :: valueEnds base count (place o (presentFields k fields)))⟩,
        decide (8 * p.length < base + count * (o + rowWidth fields k))⟩ := by
  induction fields generalizing o with
  | nil => simp [readColumns, columnValues, presentFields, place, valueEnds, lastFit_singleton hb, hb]
  | cons f fs ih =>
    have htail : ∀ g ∈ fs, BoolBits g := fun g hg => hbool g (List.mem_cons_of_mem f hg)
    rw [columnValues, rowWidth_cons, ← Nat.add_assoc o]
    obtain ⟨hw, hcols⟩ | ⟨hw, hcut, hcols⟩ | ⟨hw, hgo, hcols⟩ := readColumns_cons k count f fs ⟨p, base + count * o⟩
    · rw [hcols, ih htail hb, presentFields_of_zero hw, hw]
      simp [List.map_const']
    · have hcolumn := readColumn_at (hbool f List.mem_cons_self) hw hb
      have hend : 8 * p.length < base + count * (o + msmWidth f k) := by simpa [hcolumn] using hcut
      have hrest : ∀ m ∈ valueEnds base count (place (o + msmWidth f k) (presentFields k fs)), 8 * p.length < m :=
        fun m hm => lt_of_mem_valueEnds hend hm
      have hlt : 8 * p.length < base + count * (o + msmWidth f k + rowWidth fs k) :=
        hend.trans_le (Nat.add_le_add_left (Nat.mul_le_mul_left count (Nat.le_add_right _ _)) base)
      rw [hcols, hcolumn, columnValues_of_lt k fs hend, presentFields_of_pos hw, place, valueEnds_cons,
        ← List.cons_append, lastFit_append, lastFit_of_lt hrest, Nat.max_zero, decide_eq_true hlt]
    · have hcolumn := readColumn_at (hbool f List.mem_cons_self) hw hb
      have hend : base + count * (o + msmWidth f k) ≤ 8 * p.length := by simpa [hcolumn] using hgo
      have hstop : lastFit (8 * p.length) ((base + count * o) :: columnEnds (base + count * o) (msmWidth f k) count) =
          base + count * (o + msmWidth f k) := by
        rw [Nat.mul_add, ← Nat.add_assoc]
        exact lastFit_columnEnds_of_fits (by rwa [Nat.mul_add, ← Nat.add_assoc] at hend)
      rw [hcols, hcolumn, hstop, ih htail hend, presentFields_of_pos hw, place, valueEnds_cons, ← List.cons_append,
        lastFit_append, hstop, ← lastFit_singleton hend, ← lastFit_append, List.singleton_append]
      simp only [lastFit_singleton hend]

/-- Row `j` of a block's columns has the values of row `j`. -/
theorem columnValues_row {count j : Nat} (hj : j < count) (g : Nat → Placed → Scalar) (k o : Nat)
    (fields : List MsmField) :
    ((columnValues g k count o fields).map fun c => (c.1, c.2.getD j .absent)) = rowValues (g j) k o fields := by
  induction fields generalizing o with
  | nil => rfl
  | cons f fs ih =>
    rw [columnValues, List.map_cons, ih, rowValues]
    simp [List.getD_eq_getElem?_getD, hj]

/-- The rows of a block read by columns have their values field by field. -/
theorem columnRows_columnValues (ids : List Row) (g : Nat → Placed → Scalar) (k o : Nat) (fields : List MsmField) :
    columnRows ids (columnValues g k ids.length o fields) =
      ids.mapIdx fun a id => id ++ rowValues (g a) k o fields := by
  refine List.ext_getElem (by simp [columnRows]) fun j hj _ => ?_
  have hlt : j < ids.length := by simpa [columnRows] using hj
  simp only [columnRows, List.getElem_mapIdx]
  exact congrArg _ (columnValues_row hlt g k o fields)

end Sys2Proof.Machine

/-! PROOF. The records of the multi-signal messages in both orders (44_msm.md R236 to R244). -/

namespace Sys2Proof.Machine

open Sys2Proof.Reference

/-! ### The default fields -/

theorem boolBits_of_widths {f : MsmField} (h : f.kind = .b → ∀ w ∈ f.widths, w = 0 ∨ w = 1) : BoolBits f := by
  intro hb k
  unfold msmWidth
  split
  · rw [List.getD_eq_getElem?_getD]
    cases hw : f.widths[k - 1]? with
    | none => exact .inl rfl
    | some w => exact h hb w (List.mem_of_getElem? hw)
  · exact .inl rfl

theorem boolBits_of_mem_msmSatellite {f : MsmField} (h : f ∈ msmSatellite) : BoolBits f := by
  have hall : ∀ f ∈ msmSatellite, f.kind = .b → ∀ w ∈ f.widths, w = 0 ∨ w = 1 := by decide
  exact boolBits_of_widths (hall f h)

theorem boolBits_of_mem_msmCell {f : MsmField} (h : f ∈ msmCell) : BoolBits f := by
  have hall : ∀ f ∈ msmCell, f.kind = .b → ∀ w ∈ f.widths, w = 0 ∨ w = 1 := by decide
  exact boolBits_of_widths (hall f h)

/-- The default widths are those of the rules (44_msm.md R250 to R256). -/
theorem presentFields_msmLayout {k : Nat} (hk : k < 10) :
    presentFields k msmSatellite = satFields k ∧ presentFields k msmCell = cellFields k := by
  have hall : ∀ k < 10, presentFields k msmSatellite = satFields k ∧ presentFields k msmCell = cellFields k := by decide
  exact hall k hk

theorem rowWidth_msmSatellite {k : Nat} (hk : k < 10) : rowWidth msmSatellite k = bitsOf (satFields k) := by
  rw [← (presentFields_msmLayout hk).1, bitsOf_presentFields]

theorem rowWidth_msmCell {k : Nat} (hk : k < 10) : rowWidth msmCell k = bitsOf (cellFields k) := by
  rw [← (presentFields_msmLayout hk).2, bitsOf_presentFields]

theorem bits_pos {k : Nat} (h1 : 1 ≤ k) (h7 : k ≤ 7) : 0 < bitsOf (satFields k) ∧ 0 < bitsOf (cellFields k) := by
  have hall : ∀ k < 8, 1 ≤ k → 0 < bitsOf (satFields k) ∧ 0 < bitsOf (cellFields k) := by decide
  exact hall k (by omega) h1

/-! ### Rows under their keys -/

theorem satelliteRow_eq {k : Nat} (hk : k < 10) (s : Nat) (g : Placed → Scalar) :
    (.satelliteId, .uint s) :: keyedValues satKeys (place 0 (satFields k)) g =
      satelliteRowId s ++ rowValues g k 0 msmSatellite := by
  rw [← (presentFields_msmLayout hk).1, ← keyedValues_presentFields g k (by decide) 0]
  rfl

theorem cellRow_eq {k : Nat} (hk : k < 10) (c : Nat × Nat) (g : Placed → Scalar) :
    (.satelliteId, .uint c.1) :: (.signalId, .uint c.2) :: keyedValues cellKeys (place 0 (cellFields k)) g =
      cellRowId c ++ rowValues g k 0 msmCell := by
  rw [← (presentFields_msmLayout hk).2, ← keyedValues_presentFields g k (by decide) 0]
  rfl

/-! ### Row-major blocks -/

theorem mapIdx_map {α β γ : Type} (l : List α) (f : α → β) (g : Nat → β → γ) :
    (l.map f).mapIdx g = l.mapIdx fun i a => g i (f a) :=
  List.ext_getElem (by simp) (by simp)

theorem mapIdx_const {α β : Type} (l : List α) (f : α → β) : l.mapIdx (fun _ a => f a) = l.map f :=
  List.ext_getElem (by simp) (by simp)

section
variable {k : Nat} (h1 : 1 ≤ k) (h7 : k ≤ 7) {p : Bytes} {b kept : Nat} (hb : b ≤ 8 * p.length)
include h1 h7 hb

theorem readBlock_satellites_rowMajor (sats : List Nat)
    (hkept : kept = min sats.length ((8 * p.length - b) / bitsOf (satFields k))) :
    readBlock .rowMajor k msmSatellite (sats.map satelliteRowId) ⟨p, b⟩ =
      ⟨(sats.take kept).mapIdx fun a s => satRow k p (fun f => b + a * bitsOf (satFields k) + f.start) s,
        ⟨p, b + kept * bitsOf (satFields k)⟩, decide (8 * p.length < b + sats.length * bitsOf (satFields k))⟩ := by
  have hk : k < 10 := by omega
  have hpos := (bits_pos h1 h7).1
  rw [← rowWidth_msmSatellite hk] at hpos
  rw [readBlock, readMsmRows_eq k (fun _ => boolBits_of_mem_msmSatellite) hpos _ hb, rowWidth_msmSatellite hk,
    List.length_map, ← hkept, ← List.map_take, mapIdx_map]
  simp only [satRow, keyedRow_eq_keyedValues, satelliteRow_eq hk]

theorem readBlock_cells_rowMajor (cells : List (Nat × Nat))
    (hkept : kept = min cells.length ((8 * p.length - b) / bitsOf (cellFields k))) :
    readBlock .rowMajor k msmCell (cells.map cellRowId) ⟨p, b⟩ =
      ⟨(cells.take kept).mapIdx fun j c => cellRow k p (fun f => b + j * bitsOf (cellFields k) + f.start) c,
        ⟨p, b + kept * bitsOf (cellFields k)⟩, decide (8 * p.length < b + cells.length * bitsOf (cellFields k))⟩ := by
  have hk : k < 10 := by omega
  have hpos := (bits_pos h1 h7).2
  rw [← rowWidth_msmCell hk] at hpos
  rw [readBlock, readMsmRows_eq k (fun _ => boolBits_of_mem_msmCell) hpos _ hb, rowWidth_msmCell hk,
    List.length_map, ← hkept, ← List.map_take, mapIdx_map]
  simp only [cellRow, keyedRow_eq_keyedValues, cellRow_eq hk]

end

/-- Both data blocks row by row: the cells are read when the satellites were read whole (44_msm.md R236). -/
theorem readData_rowMajor {k : Nat} (h1 : 1 ≤ k) (h7 : k ≤ 7) {p : Bytes} (hstart : dataStart p ≤ 8 * p.length)
    {cellStart sats cells : Nat} (hcell : cellStart = dataStart p + (satIds p).length * bitsOf (satFields k))
    (hsats : sats = min (satIds p).length ((8 * p.length - dataStart p) / bitsOf (satFields k)))
    (hcells : cells = if 8 * p.length < cellStart then 0 else
      min (activeCells p).length ((8 * p.length - cellStart) / bitsOf (cellFields k))) :
    readData .rowMajor msmLayout k (satIds p) (activeCells p) ⟨p, dataStart p⟩ =
      ⟨(((satIds p).take sats).mapIdx fun a s =>
            satRow k p (fun f => dataStart p + a * bitsOf (satFields k) + f.start) s,
          ((activeCells p).take cells).mapIdx fun j c =>
            cellRow k p (fun f => cellStart + j * bitsOf (cellFields k) + f.start) c),
        ⟨p, dataStart p + sats * bitsOf (satFields k) + cells * bitsOf (cellFields k)⟩,
        decide (8 * p.length < msmTotal k p)⟩ := by
  have hpos := (bits_pos h1 h7).1
  rw [readData, show msmLayout.satellite = msmSatellite from rfl, show msmLayout.cell = msmCell from rfl,
    readBlock_satellites_rowMajor h1 h7 hstart (satIds p) hsats, msmTotal, ← hcell]
  by_cases hcut : 8 * p.length < cellStart
  · have hlt : 8 * p.length < cellStart + (activeCells p).length * bitsOf (cellFields k) :=
      hcut.trans_le (Nat.le_add_right _ _)
    rw [if_pos hcut] at hcells
    subst hcells
    simp [hcut, hlt, unreadCells]
  · have hwhole : sats = (satIds p).length := by
      rw [hsats]
      exact Nat.min_eq_left ((Nat.le_div_iff_mul_le hpos).mpr (by omega))
    rw [if_neg hcut] at hcells
    rw [hwhole, ← hcell, readBlock_cells_rowMajor h1 h7 (Nat.le_of_not_lt hcut) (activeCells p) hcells]
    simp [hcut]

/-- The row-major record, for every payload (44_msm.md R236, R240). -/
theorem decodeMsm_rowMajor {type : Nat} (h1 : 1 ≤ type % 10) (h7 : type % 10 ≤ 7) (p : Bytes) :
    decodeMsm .rowMajor msmLayout type p = msmRowMajor (type % 10) p := by
  have h169 := le_dataStart p
  rw [decodeMsm_eq]
  generalize type % 10 = k at h1 h7
  by_cases hcut : 8 * p.length < dataStart p
  · have hnone : 8 * p.length - dataStart p = 0 := by omega
    have hcells : 8 * p.length < dataStart p + (satIds p).length * bitsOf (satFields k) := by omega
    have htotal : 8 * p.length < msmTotal k p := by
      unfold msmTotal
      omega
    rw [msmData_of_lt hcut]
    simp [msmRowMajor, lastFit_headMarks, Reader.rem, hcut, hnone, hcells, htotal]
  · have hdata := readData_rowMajor h1 h7 (Nat.le_of_not_lt hcut) rfl rfl rfl
    have hread : ¬ 8 * p.length < 73 ∧ ¬ 8 * p.length < 137 ∧ ¬ 8 * p.length < 169 := by omega
    rw [msmData_of_le (Nat.le_of_not_lt hcut), hdata]
    simp [msmRowMajor, Reader.rem, hcut, hread]

theorem type_of_mem_msmTable {e : Nat × (Bytes → Instr)} (h : e ∈ msmTable) : 1 ≤ e.1 % 10 ∧ e.1 % 10 ≤ 7 := by
  have hall : ∀ n ∈ msmTable.map Prod.fst, 1 ≤ n % 10 ∧ n % 10 ≤ 7 := by decide
  exact hall e.1 (List.mem_map_of_mem h)

/-- Settles O53. -/
theorem msmReadsWholeRowsInRowMajorOrder : Obligations.MsmReadsWholeRowsInRowMajorOrder := by
  unfold Obligations.MsmReadsWholeRowsInRowMajorOrder
  intro e he p s hs horder
  obtain ⟨h1, h7⟩ := type_of_mem_msmTable he
  rw [exec_of_mem_msmTable he hs, horder, decodeMsm_rowMajor h1 h7]

/-! ### Field-major blocks -/

/-- A field-major block, for every payload (44_msm.md R238). -/
theorem readBlock_fieldMajor (k : Nat) {fields : List MsmField} (hbool : ∀ f ∈ fields, BoolBits f) (ids : List Row)
    {p : Bytes} {b : Nat} (hb : b ≤ 8 * p.length) :
    readBlock .fieldMajor k fields ids ⟨p, b⟩ =
      ⟨ids.mapIdx fun a id => id ++ rowValues (columnAt p b ids.length a) k 0 fields,
        ⟨p, lastFit (8 * p.length) (b :: valueEnds b ids.length (place 0 (presentFields k fields)))⟩,
        decide (8 * p.length < b + ids.length * rowWidth fields k)⟩ := by
  have hcolumns := readColumns_eq k ids.length hbool (p := p) (base := b) (o := 0) hb
  rw [Nat.mul_zero, Nat.add_zero, Nat.zero_add] at hcolumns
  rw [readBlock, readMsmColumns, hcolumns, columnRows_columnValues]

/-- A satellite row of a block of `count` rows read field by field. -/
theorem columnSatRow_eq {k : Nat} (hk : k < 10) (p : Bytes) (b count a s : Nat) :
    (.satelliteId, .uint s) :: fittingKeyedRow p satKeys (place 0 (satFields k))
        (fun f => b + count * f.start + a * f.width) =
      satelliteRowId s ++ rowValues (columnAt p b count a) k 0 msmSatellite := by
  rw [fittingKeyedRow_eq_keyedValues, satelliteRow_eq hk]
  rfl

/-- A cell row of a block of `count` rows read field by field. -/
theorem columnCellRow_eq {k : Nat} (hk : k < 10) (p : Bytes) (b count a : Nat) (c : Nat × Nat) :
    (.satelliteId, .uint c.1) :: (.signalId, .uint c.2) :: fittingKeyedRow p cellKeys (place 0 (cellFields k))
        (fun f => b + count * f.start + a * f.width) =
      cellRowId c ++ rowValues (columnAt p b count a) k 0 msmCell := by
  rw [fittingKeyedRow_eq_keyedValues, cellRow_eq hk]
  rfl

/-- No value of a block that begins behind the payload is there. -/
theorem rowValues_columnAt_of_lt {p : Bytes} {b : Nat} (h : 8 * p.length < b) (count a k : Nat)
    (fields : List MsmField) :
    rowValues (columnAt p b count a) k 0 fields = absentRow (fields.map MsmField.key) := by
  rw [← rowValues_absent k 0]
  refine rowValues_congr fun f _ => if_neg ?_
  omega

/-- Both data blocks field by field: behind a truncated satellite block no cell value is there (44_msm.md R238). -/
theorem readData_fieldMajor {k : Nat} (hk : k < 10) {p : Bytes} (hstart : dataStart p ≤ 8 * p.length)
    {cellStart : Nat} (hcell : cellStart = dataStart p + (satIds p).length * bitsOf (satFields k)) :
    readData .fieldMajor msmLayout k (satIds p) (activeCells p) ⟨p, dataStart p⟩ =
      ⟨((satIds p).mapIdx fun a s => (.satelliteId, .uint s) :: fittingKeyedRow p satKeys (place 0 (satFields k))
            fun f => dataStart p + (satIds p).length * f.start + a * f.width,
          (activeCells p).mapIdx fun j c => (.satelliteId, .uint c.1) :: (.signalId, .uint c.2) ::
            fittingKeyedRow p cellKeys (place 0 (cellFields k))
              fun f => cellStart + (activeCells p).length * f.start + j * f.width),
        ⟨p, lastFit (8 * p.length) (dataStart p :: valueEnds (dataStart p) (satIds p).length (place 0 (satFields k)) ++
          valueEnds cellStart (activeCells p).length (place 0 (cellFields k)))⟩,
        decide (8 * p.length < msmTotal k p)⟩ := by
  obtain ⟨hsatFields, hcellFields⟩ := presentFields_msmLayout hk
  rw [readData, show msmLayout.satellite = msmSatellite from rfl, show msmLayout.cell = msmCell from rfl,
    readBlock_fieldMajor k (fun _ => boolBits_of_mem_msmSatellite) _ hstart, rowWidth_msmSatellite hk, hsatFields,
    List.length_map, mapIdx_map, ← hcell, msmTotal, ← hcell, lastFit_append]
  simp only [columnSatRow_eq hk, columnCellRow_eq hk]
  by_cases hcut : 8 * p.length < cellStart
  · have hbeyond : lastFit (8 * p.length) (valueEnds cellStart (activeCells p).length (place 0 (cellFields k))) = 0 :=
      lastFit_of_lt fun m hm => lt_of_mem_valueEnds (o := 0) hcut hm
    have hlt : 8 * p.length < cellStart + (activeCells p).length * bitsOf (cellFields k) :=
      hcut.trans_le (Nat.le_add_right _ _)
    simp only [rowValues_columnAt_of_lt hcut]
    simp [hcut, hlt, hbeyond, unreadCells, mapIdx_const]
  · have hfit : cellStart ≤ 8 * p.length := Nat.le_of_not_lt hcut
    have hread : lastFit (8 * p.length)
        (dataStart p :: valueEnds (dataStart p) (satIds p).length (place 0 (satFields k))) = cellStart := by
      have hends := lastFit_valueEnds_of_fits (size := 8 * p.length) (base := dataStart p)
        (count := (satIds p).length) (satFields k) (o := 0)
      rw [Nat.mul_zero, Nat.add_zero, Nat.zero_add, ← hcell] at hends
      exact hends hfit
    rw [hread, readBlock_fieldMajor k (fun _ => boolBits_of_mem_msmCell) _ hfit, rowWidth_msmCell hk, hcellFields,
      List.length_map, mapIdx_map, lastFit_cons, if_pos hfit]
    simp [hcut]

/-- The field-major record, of any type and for every payload (44_msm.md R238, R240). -/
theorem decodeMsm_fieldMajor (type : Nat) (p : Bytes) :
    decodeMsm .fieldMajor msmLayout type p = msmFieldMajor (type % 10) p := by
  have hk : type % 10 < 10 := Nat.mod_lt _ (by omega)
  rw [decodeMsm_eq]
  generalize type % 10 = k at hk
  by_cases hcut : 8 * p.length < dataStart p
  · have hcells : 8 * p.length < dataStart p + (satIds p).length * bitsOf (satFields k) := by omega
    have htotal : 8 * p.length < msmTotal k p := by
      unfold msmTotal
      omega
    have hbeyond {b count : Nat} {fs : List (Key × NumKind × Nat)} (h : 8 * p.length < b) :
        lastFit (8 * p.length) (valueEnds b count (place 0 fs)) = 0 :=
      lastFit_of_lt fun m hm => lt_of_mem_valueEnds (o := 0) h hm
    rw [msmData_of_lt hcut]
    simp [msmFieldMajor, lastFit_append, hbeyond, Reader.rem, hcut, hcells, htotal]
  · have hdata := readData_fieldMajor hk (Nat.le_of_not_lt hcut) rfl
    have hread := lastFit_headMarks_of_fits (Nat.le_of_not_lt hcut)
    have hsingle : lastFit (8 * p.length) [dataStart p] = dataStart p := lastFit_singleton (Nat.le_of_not_lt hcut)
    rw [msmData_of_le (Nat.le_of_not_lt hcut), hdata]
    simp only [msmFieldMajor, Reader.rem, hcut, if_false, List.append_assoc]
    rw [lastFit_append _ (headMarks p), hread, ← hsingle, ← lastFit_append, hsingle]
    rfl

/-- Settles O54. -/
theorem msmFieldMajorPlacesValuesByField : Obligations.MsmFieldMajorPlacesValuesByField := by
  unfold Obligations.MsmFieldMajorPlacesValuesByField
  refine ⟨fun e he p s hs horder => ?_, decodeMsm_fieldMajor⟩
  rw [exec_of_mem_msmTable he hs, horder, decodeMsm_fieldMajor]

/-! ### Types without data bits -/

theorem presentFields_of_no_bits {k : Nat} {fields : List MsmField} (h : ∀ f ∈ fields, msmWidth f k = 0) :
    presentFields k fields = [] := by
  induction fields with
  | nil => rfl
  | cons f fs ih =>
    rw [presentFields_of_zero (h f List.mem_cons_self), ih fun g hg => h g (List.mem_cons_of_mem f hg)]

theorem rowValues_of_no_bits {k : Nat} {fields : List MsmField} (h : ∀ f ∈ fields, msmWidth f k = 0)
    (g : Placed → Scalar) (o : Nat) : rowValues g k o fields = absentRow (fields.map MsmField.key) := by
  rw [← rowValues_absent k o]
  refine rowValues_congr fun f hf => ?_
  rw [presentFields_of_no_bits h] at hf
  exact absurd hf List.not_mem_nil

theorem readColumns_of_no_bits {k : Nat} {fields : List MsmField} (h : ∀ f ∈ fields, msmWidth f k = 0)
    (g : Nat → Placed → Scalar) (count o : Nat) (r : Reader) :
    readColumns k count fields r = ⟨columnValues g k count o fields, r, false⟩ := by
  induction fields generalizing o with
  | nil => rfl
  | cons f fs ih =>
    have hw : msmWidth f k = 0 := h f List.mem_cons_self
    have htail := ih (fun g hg => h g (List.mem_cons_of_mem f hg)) (o + msmWidth f k)
    simp [readColumns, columnValues, hw, htail, List.map_const']

/-- A block of rows without bits has all its rows and takes nothing, in either order (44_msm.md R239, R242). -/
theorem readBlock_of_no_bits (order : MsmOrder) {k : Nat} {fields : List MsmField}
    (h : ∀ f ∈ fields, msmWidth f k = 0) (ids : List Row) (r : Reader) :
    readBlock order k fields ids r = ⟨ids.map fun id => id ++ absentRow (fields.map MsmField.key), r, false⟩ := by
  cases order with
  | rowMajor => exact readMsmRows_of_no_bits h ids r
  | fieldMajor =>
    have hcolumns := readColumns_of_no_bits h (fun _ _ => .absent) ids.length 0 r
    rw [readBlock, readMsmColumns, hcolumns, columnRows_columnValues]
    simp only [rowValues_of_no_bits h, mapIdx_const]

theorem msmWidth_of_outside {k : Nat} (h : k = 0 ∨ 8 ≤ k) (f : MsmField) : msmWidth f k = 0 := if_neg (by omega)

/-- The data blocks of a type outside 1..7: every row, nothing taken (44_msm.md R242). -/
theorem readData_of_outside (order : MsmOrder) {k : Nat} (hk : k < 10) (h : k = 0 ∨ 8 ≤ k) (p : Bytes) (r : Reader) :
    readData order msmLayout k (satIds p) (activeCells p) r =
      ⟨((satIds p).map (satRow k p fun _ => 0), (activeCells p).map (cellRow k p fun _ => 0)), r, false⟩ := by
  have hbits (fields : List MsmField) : ∀ f ∈ fields, msmWidth f k = 0 := fun f _ => msmWidth_of_outside h f
  have hsat (s : Nat) : satRow k p (fun _ => 0) s = satelliteRowId s ++ absentRow (msmSatellite.map MsmField.key) := by
    rw [satRow, keyedRow_eq_keyedValues, satelliteRow_eq hk, rowValues_of_no_bits (hbits _)]
  have hcell (c : Nat × Nat) : cellRow k p (fun _ => 0) c = cellRowId c ++ absentRow (msmCell.map MsmField.key) := by
    rw [cellRow, keyedRow_eq_keyedValues, cellRow_eq hk, rowValues_of_no_bits (hbits _)]
  simp only [readData, readBlock_of_no_bits order (hbits _), Bool.false_eq_true, if_false, List.map_map,
    List.map_congr_left fun s _ => hsat s, List.map_congr_left fun c _ => hcell c]
  rfl

/-- The record of a type outside 1..7, in either order and for every payload (44_msm.md R240, R242). -/
theorem decodeMsm_of_outside (order : MsmOrder) {type : Nat} (h : type % 10 = 0 ∨ 8 ≤ type % 10) (p : Bytes) :
    decodeMsm order msmLayout type p = msmNoData (type % 10) p := by
  have hk : type % 10 < 10 := Nat.mod_lt _ (by omega)
  rw [decodeMsm_eq]
  generalize type % 10 = k at h hk
  by_cases hcut : 8 * p.length < dataStart p
  · simp [msmData_of_lt hcut, msmNoData, Reader.rem, hcut]
  · have hfit : dataStart p ≤ 8 * p.length := Nat.le_of_not_lt hcut
    rw [msmData_of_le hfit, readData_of_outside order hk h]
    simp [msmNoData, Reader.rem, hcut, lastFit_headMarks_of_fits hfit]

/-- Settles O57. -/
theorem msmTypeOutside1To7ReadsNoData : Obligations.MsmTypeOutside1To7ReadsNoData := by
  unfold Obligations.MsmTypeOutside1To7ReadsNoData
  refine ⟨fun n p s hn hlookup hlayout => ?_, fun order _ p h => decodeMsm_of_outside order h p⟩
  rw [exec_decDecode_of_lookup hlookup, ← decodeMsm_of_outside s.params.msmOrder hn, ← hlayout]
  rfl

/-! ### At most one satellite and one cell -/

/-- A block of at most one row that fits is read alike in either order (44_msm.md R238). -/
theorem readBlock_of_length_le_one (order : MsmOrder) {k : Nat} {fields : List MsmField}
    (hbool : ∀ f ∈ fields, BoolBits f) (hW : 0 < rowWidth fields k) {ids : List Row} (hids : ids.length ≤ 1) {p : Bytes}
    {b : Nat} (hfit : b + ids.length * rowWidth fields k ≤ 8 * p.length) :
    readBlock order k fields ids ⟨p, b⟩ =
      ⟨ids.map fun id => id ++ rowValues (fun f => numAt f.kind p (b + f.start) f.width) k 0 fields,
        ⟨p, b + ids.length * rowWidth fields k⟩, false⟩ := by
  have hb : b ≤ 8 * p.length := (Nat.le_add_right _ _).trans hfit
  cases order with
  | rowMajor =>
    have hkept : min ids.length ((8 * p.length - b) / rowWidth fields k) = ids.length :=
      Nat.min_eq_left ((Nat.le_div_iff_mul_le hW).mpr (by omega))
    rw [readBlock, readMsmRows_eq k hbool hW ids hb, hkept, List.take_length, decide_eq_false (by omega)]
    match ids, hids with
    | [], _ => rfl
    | [id], _ => simp
  | fieldMajor =>
    have hends := lastFit_valueEnds_of_fits (size := 8 * p.length) (base := b) (count := ids.length)
      (presentFields k fields) (o := 0)
    rw [bitsOf_presentFields, Nat.mul_zero, Nat.add_zero, Nat.zero_add] at hends
    rw [readBlock_fieldMajor k hbool ids hb, hends hfit, decide_eq_false (by omega)]
    match ids, hids with
    | [], _ => rfl
    | [id], _ =>
      have hvalues : rowValues (columnAt p b 1 0) k 0 fields =
          rowValues (fun f => numAt f.kind p (b + f.start) f.width) k 0 fields := by
        refine rowValues_congr fun f hf => ?_
        have hplace := (bounds_of_mem_place hf).2
        rw [bitsOf_presentFields] at hplace
        rw [List.length_singleton, Nat.one_mul] at hfit
        rw [columnAt, Nat.one_mul, Nat.zero_mul, Nat.add_zero, if_pos (by omega)]
      simp [hvalues]

/-- A complete message with at most one satellite and one cell is read alike in either order (44_msm.md R238). -/
theorem msmData_of_length_le_one (order : MsmOrder) {k : Nat} (h1 : 1 ≤ k) (h7 : k ≤ 7) {p : Bytes}
    (htotal : msmTotal k p ≤ 8 * p.length) (hsats : (satIds p).length ≤ 1) (hcells : (activeCells p).length ≤ 1) :
    msmData order k p =
      ⟨((satIds p).map fun s => satelliteRowId s ++
          rowValues (fun f => numAt f.kind p (dataStart p + f.start) f.width) k 0 msmSatellite,
        (activeCells p).map fun c => cellRowId c ++
          rowValues (fun f => numAt f.kind p
            (dataStart p + (satIds p).length * bitsOf (satFields k) + f.start) f.width) k 0 msmCell),
        ⟨p, msmTotal k p⟩, false⟩ := by
  have hk : k < 10 := by omega
  obtain ⟨hsatBits, hcellBits⟩ := bits_pos h1 h7
  rw [← rowWidth_msmSatellite hk] at hsatBits
  rw [← rowWidth_msmCell hk] at hcellBits
  rw [msmTotal, ← rowWidth_msmSatellite hk, ← rowWidth_msmCell hk] at htotal
  have hsatBlock := readBlock_of_length_le_one order (fun _ => boolBits_of_mem_msmSatellite) hsatBits
    (ids := (satIds p).map satelliteRowId) (p := p) (b := dataStart p) (by simpa using hsats)
    (by rw [List.length_map]; omega)
  have hcellBlock := readBlock_of_length_le_one order (fun _ => boolBits_of_mem_msmCell) hcellBits
    (ids := (activeCells p).map cellRowId) (p := p)
    (b := dataStart p + (satIds p).length * rowWidth msmSatellite k) (by simpa using hcells)
    (by rw [List.length_map]; omega)
  rw [List.length_map, List.map_map] at hsatBlock hcellBlock
  rw [msmData_of_le (by omega), readData, show msmLayout.satellite = msmSatellite from rfl,
    show msmLayout.cell = msmCell from rfl, hsatBlock]
  simp only [Bool.false_eq_true, if_false, hcellBlock, msmTotal, ← rowWidth_msmSatellite hk, ← rowWidth_msmCell hk]
  rfl

/-- Settles O55. -/
theorem msmOrdersAgreeOnOneCell : Obligations.MsmOrdersAgreeOnOneCell := by
  unfold Obligations.MsmOrdersAgreeOnOneCell
  intro type p h1 h7 _ htotal hsats hcells
  simp only [decodeMsm_eq, msmData_of_length_le_one _ h1 h7 htotal hsats hcells]

/-! ### The test case of the source -/

theorem satIds_of_bitSum {p : Bytes} (h : bitSum p 73 64 = 0x2000000000000000) : satIds p = [3] := by
  have hmask : maskIds 64 (bitRead p 73 64) = satIds p := maskIds_bitRead p 72 64
  rw [← hmask, bitRead_eq_bitSum, h]
  decide

theorem sigIds_of_bitSum {p : Bytes} (h : bitSum p 137 32 = 0x40000000) : sigIds p = [2] := by
  have hmask : maskIds 32 (bitRead p 137 32) = sigIds p := maskIds_bitRead p 136 32
  rw [← hmask, bitRead_eq_bitSum, h]
  decide

/-- The totals of the source's test case (44_msm.md R244). -/
theorem msmTotal_of_single {k : Nat} (h1 : 1 ≤ k) (h7 : k ≤ 7) :
    170 + bitsOf (satFields k) + bitsOf (cellFields k) = [195, 207, 222, 236, 269, 253, 286].getD (k - 1) 0 := by
  have hall : ∀ k < 8, 1 ≤ k → 170 + bitsOf (satFields k) + bitsOf (cellFields k) =
      [195, 207, 222, 236, 269, 253, 286].getD (k - 1) 0 := by decide
  exact hall k (by omega) h1

/-- Settles O58. -/
theorem msmSingleCellTestCase : Obligations.MsmSingleCellTestCase := by
  unfold Obligations.MsmSingleCellTestCase
  intro order type p h1 h7 hsize hsatMask hsigMask hcellMask
  rw [decodeMsm_eq]
  generalize type % 10 = k at h1 h7 hsize
  have hsats := satIds_of_bitSum hsatMask
  have hsigs := sigIds_of_bitSum hsigMask
  have hcells : activeCells p = [(3, 2)] := by simp [activeCells, hsats, hsigs, hcellMask]
  have hstart : dataStart p = 170 := by simp [dataStart, hsats, hsigs]
  have htotal : msmTotal k p = [195, 207, 222, 236, 269, 253, 286].getD (k - 1) 0 := by
    rw [← msmTotal_of_single h1 h7]
    simp [msmTotal, hstart, hsats, hcells]
  rw [← htotal] at hsize ⊢
  have hdata := msmData_of_length_le_one order h1 h7 hsize (by simp [hsats]) (by simp [hcells])
  have hread : ¬ 8 * p.length < 137 ∧ ¬ 8 * p.length < 169 ∧ ¬ 8 * p.length < 170 := by
    unfold msmTotal at hsize
    omega
  have hhead : msmHead k p = (.msmType, .scalar (.uint k)) :: scalars (fittingRow p msmHeader) ++
      [(.satelliteIds, .ulist [3]), (.signalIds, .ulist [2]),
       (.activeCells, .list [[(.satelliteId, .uint 3), (.signalId, .uint 2)]])] := by
    simp [msmHead, hstart, hsats, hsigs, hcells, hread]
  rw [hdata, hhead, hsats, hcells]
  refine ⟨rowValues (fun f => numAt f.kind p (dataStart p + f.start) f.width) k 0 msmSatellite,
    rowValues (fun f => numAt f.kind p (dataStart p + 1 * bitsOf (satFields k) + f.start) f.width) k 0 msmCell, ?_⟩
  simp [satelliteRowId, cellRowId, ending, Reader.rem]

/-! ### Fields of width 0 -/

theorem key_mem_of_mem_rowValues {g : Placed → Scalar} {k o : Nat} {fields : List MsmField} {key : Key} {v : Scalar}
    (h : (key, v) ∈ rowValues g k o fields) : key ∈ fields.map MsmField.key := by
  induction fields generalizing o with
  | nil => exact absurd h List.not_mem_nil
  | cons f fs ih =>
    rw [rowValues, List.mem_cons] at h
    rw [List.map_cons, List.mem_cons]
    exact h.imp (fun heq => congrArg Prod.fst heq) ih

/-- Of distinct fields, one of width 0 is absent (44_msm.md R239). -/
theorem absent_of_mem_rowValues {g : Placed → Scalar} {k o : Nat} {fields : List MsmField}
    (hkeys : (fields.map MsmField.key).Nodup) {f : MsmField} (hf : f ∈ fields) (hw : msmWidth f k = 0) {v : Scalar}
    (h : (f.key, v) ∈ rowValues g k o fields) : v = .absent := by
  induction fields generalizing o with
  | nil => exact absurd hf List.not_mem_nil
  | cons f' fs ih =>
    obtain ⟨hnew, hrest⟩ := List.nodup_cons.mp hkeys
    rw [rowValues, List.mem_cons] at h
    obtain rfl | hf := List.mem_cons.mp hf
    · obtain heq | hin := h
      · rw [if_pos hw] at heq
        exact congrArg Prod.snd heq
      · exact absurd (key_mem_of_mem_rowValues hin) hnew
    · obtain heq | hin := h
      · have hkey : f.key = f'.key := congrArg Prod.fst heq
        exact absurd (List.mem_map_of_mem hf) (hkey ▸ hnew)
      · exact ih hrest hf hin

/-- Every row of a record's data blocks, in either order, has its identifiers and its fields' values. -/
theorem exists_rowValues_of_mem_msmData (order : MsmOrder) {k : Nat} (hk : k < 10) (p : Bytes) :
    (∀ row ∈ (msmData order k p).out.1, ∃ s g, row = satelliteRowId s ++ rowValues g k 0 msmSatellite) ∧
    (∀ row ∈ (msmData order k p).out.2, ∃ c g, row = cellRowId c ++ rowValues g k 0 msmCell) := by
  have hsat (at' : Placed → Nat) (s : Nat) : satRow k p at' s = satelliteRowId s ++
      rowValues (fun f => numAt f.kind p (at' f) f.width) k 0 msmSatellite := satelliteRow_eq hk s _
  have hcell (at' : Placed → Nat) (c : Nat × Nat) : cellRow k p at' c = cellRowId c ++
      rowValues (fun f => numAt f.kind p (at' f) f.width) k 0 msmCell := cellRow_eq hk c _
  by_cases hcut : 8 * p.length < dataStart p
  · rw [msmData_of_lt hcut]
    exact ⟨fun _ h => absurd h List.not_mem_nil, fun _ h => absurd h List.not_mem_nil⟩
  have hfit := Nat.le_of_not_lt hcut
  rw [msmData_of_le hfit]
  by_cases hin : 1 ≤ k ∧ k ≤ 7
  · cases order with
    | rowMajor =>
      rw [readData_rowMajor hin.1 hin.2 hfit rfl rfl rfl]
      simp only [List.mem_mapIdx]
      constructor <;> rintro _ ⟨a, _, rfl⟩
      exacts [⟨_, _, hsat _ _⟩, ⟨_, _, hcell _ _⟩]
    | fieldMajor =>
      rw [readData_fieldMajor hk hfit rfl]
      simp only [List.mem_mapIdx]
      constructor <;> rintro _ ⟨a, _, rfl⟩
      exacts [⟨_, _, columnSatRow_eq hk p _ _ a _⟩, ⟨_, _, columnCellRow_eq hk p _ _ a _⟩]
  · rw [readData_of_outside order hk (by omega)]
    simp only [List.mem_map]
    constructor <;> rintro _ ⟨a, _, rfl⟩
    exacts [⟨_, _, hsat _ _⟩, ⟨_, _, hcell _ _⟩]

/-- The one list under each block's name in a record is the block. -/
theorem mem_msmRecord {k : Nat} {p : Bytes} {sats cells rows : List Row} {cut : Bool} {left : Nat} :
    ((Key.satellites, Value.list rows) ∈
      msmHead k p ++ [(.satellites, .list sats), (.cells, .list cells)] ++ ending cut left → rows = sats) ∧
    ((Key.cells, Value.list rows) ∈
      msmHead k p ++ [(.satellites, .list sats), (.cells, .list cells)] ++ ending cut left → rows = cells) := by
  simp [msmHead, scalars, ending, fittingRow, msmHeader]

/-- Settles O56. -/
theorem msmWidthZeroIsAbsent : Obligations.MsmWidthZeroIsAbsent := by
  unfold Obligations.MsmWidthZeroIsAbsent
  intro order type p rows row f v hblock hw hrow hv
  have hk : type % 10 < 10 := Nat.mod_lt _ (by omega)
  rw [decodeMsm_eq] at hblock
  obtain ⟨hmem, hf⟩ | ⟨hmem, hf⟩ := hblock
  · rw [mem_msmRecord.1 hmem] at hrow
    obtain ⟨s, g, rfl⟩ := (exists_rowValues_of_mem_msmData order hk p).1 row hrow
    have hid : ∀ f ∈ msmSatellite, f.key ≠ .satelliteId := by decide
    obtain hv | hv := List.mem_append.mp hv
    · simp [satelliteRowId, hid f hf] at hv
    · exact absent_of_mem_rowValues (by decide) hf hw hv
  · rw [mem_msmRecord.2 hmem] at hrow
    obtain ⟨c, g, rfl⟩ := (exists_rowValues_of_mem_msmData order hk p).2 row hrow
    have hid : ∀ f ∈ msmCell, f.key ≠ .satelliteId ∧ f.key ≠ .signalId := by decide
    obtain hv | hv := List.mem_append.mp hv
    · simp [cellRowId, hid f hf] at hv
    · exact absent_of_mem_rowValues (by decide) hf hw hv

end Sys2Proof.Machine
